-- ==== Sys2Proof/Word.lean ====
section
/-! DEFINITION. The word types of the block (spec/00_scope.md R5, R7; spec/10_state.md R39). All quantities are unsigned. -/

namespace Sys2Proof

/-- One text symbol: a code point of CHAR_W = 21 bits (R7, R26). -/
abbrev Symbol := BitVec 21

/-- One entry of VBUF: VALUE_W = 16 bits (R5, R28). -/
abbrev Val := BitVec 16

/-- A tallied or decoded count: COUNT_W = 13 bits (R7, R23). -/
abbrev Count := BitVec 13

/-- A length register or an address: LEN_W = 32 bits (R7, R21, R35). -/
abbrev Len := BitVec 32

/-- A key of the tally: a trimmed token, a symbol string (R25, R123). -/
abbrev Key := List Symbol

/-- The packer's grouping structure, a finite map from key to count (R25), as a list of pairs. -/
abbrev Tally := List (Key × Count)

end Sys2Proof
end

