-- ==== Sys2Proof/Config.lean ====
section
/-! DEFINITION. What an implementation fixes (spec/00_scope.md R7) and the free values, which the spec leaves open. -/

namespace Sys2Proof

/-- The open parameters of R7 (decisions D6, D11, D13). Capacities are LEN_W wide, since the length registers that count up
to them are; MAX_ENTRIES is COUNT_W wide, since a MAX_ENTRIES above 8191 is an illegal configuration (R122, R243). -/
structure Config where
  /-- IBUF_CAP, in symbols. -/
  ibufCap : Len
  /-- BBUF_CAP, in bits. -/
  bbufCap : Len
  /-- VBUF_CAP, in 16-bit entries. -/
  vbufCap : Len
  /-- OBUF_CAP, in symbols. -/
  obufCap : Len
  /-- MAX_ENTRIES, the largest number of tokens PACK accepts. -/
  maxEntries : Count
  /-- WS_SET, the code points TRIM removes. -/
  wsSet : List Symbol
deriving DecidableEq, Repr

/-- The values R7 takes for its parameters. -/
def Config.standard : Config where
  ibufCap := 4096
  bbufCap := 24576
  vbufCap := 1024
  obufCap := 4096
  maxEntries := 1000
  wsSet := [0x09, 0x0A, 0x0B, 0x0C, 0x0D, 0x20]

/-- FREE VALUE. The choices behind GROUP_ORDER (R12, R125, U1, U14): for the n-th draw and the tally at hand, a stream of
numbers that `Machine.permute` turns into a permutation. Nothing constrains it. See log 1. -/
opaque Config.groupOrder : Nat → Tally → Nat → Nat

/-- FREE VALUE. What an IBUF entry that nothing has written holds when a host write of ILEN covers it (R30, R38, R233):
draw number, then index. See log 9. -/
opaque Config.unwrittenSymbol : Nat → Nat → Symbol

/-- FREE VALUE. The same for an entry of BBUF (R30, R38, R233). See log 9. -/
opaque Config.unwrittenBit : Nat → Nat → Bool

end Sys2Proof
end

