-- ==== Sys2Proof/Syntax.lean ====
section
/-! DEFINITION. The instructions: one constructor for each row of spec/opcode_table.json (spec/30_encoding.md R70, R85, R88, R93). -/

namespace Sys2Proof

/-- A field of the Bit Digit String, a symbol of the Printable String, or a host command. Payloads are at their nominal
widths (R70, R85), so that the bits which tell two rows apart are checked by `Instr.wellFormed`. -/
inductive Instr where
  /-- `0vvvvvvv` (R71, R104). -/
  | v8 (v : BitVec 7)
  /-- `10vvvvvvvvvvvvvv`: 15 payload bits, the first 0 (R72, R105). -/
  | v16 (v : BitVec 15)
  /-- `11vvvvvvvvvvvvvv` in position V: 15 payload bits, the first 1 (R73, R106). -/
  | v16x (v : BitVec 15)
  /-- `110ccccc`: 6 nominal payload bits, the first 0 (R74, R107). -/
  | c8 (c : BitVec 6)
  /-- `111ccccccccccccc`: 13 payload bits (R75, R108). -/
  | c16 (c : BitVec 13)
  /-- A symbol 32 to 63: a 6-bit group whose first bit is 0 (R85, R162). -/
  | symLo (g : BitVec 6)
  /-- A symbol 64 to 95: a 6-bit group whose first bit is 1 (R85, R162). -/
  | symHi (g : BitVec 6)
  /-- Opcode 0 (R181). -/
  | nop
  /-- Opcode 1 (R182). -/
  | pack
  /-- Opcode 2 (R183). -/
  | unpack
  /-- Opcode 3 (R184). -/
  | tenc
  /-- Opcode 4 (R185). -/
  | tdec
  /-- Opcode 5 (R187). -/
  | densify
  /-- Opcode 6 (R188). -/
  | revert
  /-- Opcode 7 (R186). -/
  | clear
deriving DecidableEq, Repr

end Sys2Proof
end

