-- ==== Sys2Proof/WellFormed.lean ====
section
/-! DEFINITION. Which terms of `Instr` are words of the opcode table (spec/30_encoding.md R70 to R75, R85, R93). -/

namespace Sys2Proof

/-- The payload bit that tells a row from its neighbour has the row's value: V16 from V16X (R72, R73), C8 from C16 (R74,
the width selector), SYM_LO from SYM_HI (R93). -/
def Instr.wellFormed : Instr → Bool
  | .v8 _ => true
  | .v16 v => decide (v < 0x4000#15)
  | .v16x v => decide (0x4000#15 ≤ v)
  | .c8 c => decide (c < 32#6)
  | .c16 _ => true
  | .symLo g => decide (g < 32#6)
  | .symHi g => decide (32#6 ≤ g)
  | .nop => true
  | .pack => true
  | .unpack => true
  | .tenc => true
  | .tdec => true
  | .densify => true
  | .revert => true
  | .clear => true

end Sys2Proof
end

