-- ==== Sys2Proof/Decode.lean ====
section
/-! DEFINITION. Bit strings, the decoder and the encoder (spec/00_scope.md R6, R8; spec/30_encoding.md R70 to R93). Every
bit string is written leading bit first. -/

namespace Sys2Proof

/-- The n-bit string of a number, leading bit first (R8). -/
def binNat : Nat → Nat → List Bool
  | 0, _ => []
  | n + 1, v => v.testBit n :: binNat n v

/-- `bin_n(v)` of R8. -/
def bin {n : Nat} (v : BitVec n) : List Bool := binNat n v.toNat

/-- `num(b)` of R8: the unsigned number of a bit string, leading bit most significant. -/
def num (b : List Bool) : Nat := b.foldl (fun a x => 2 * a + x.toNat) 0

/-- `MemRead(addr, n)` of R9 and R57, over a bit string; bits past its end are not read. -/
def memRead (b : List Bool) (addr n : Nat) : BitVec n :=
  BitVec.ofNat n (num ((b.drop addr).take n))

/-- M_C8 of R6. -/
def maskC8 : BitVec 8 := 0xC0#8

/-- M_C16 of R6. -/
def maskC16 : BitVec 16 := 0xE000#16

/-- M_V16 of R6. -/
def maskV16 : BitVec 16 := 0x8000#16

/-- The decoder's position (R76): S at a run start, V directly after a count field. -/
inductive Position where
  | S
  | V
deriving DecidableEq, Repr

/-- Why the decoder answers no instruction. -/
inductive DecodeError where
  /-- The field at hand is longer than the bits that remain, or no bit remains (R84). -/
  | endOfInput
  /-- A symbol outside 32 to 95 (R86). -/
  | illegalSymbol (c : Symbol)
deriving DecidableEq, Repr

/-- An instruction's code in the space its row belongs to (the "space" column of spec/opcode_table.json). -/
inductive Code where
  /-- A field of the Bit Digit String, leading bit first. -/
  | field (b : List Bool)
  /-- A symbol of the Printable String. -/
  | symbol (c : Symbol)
  /-- CMD[2:0]. -/
  | command (op : BitVec 3)
deriving DecidableEq, Repr

/-- A number of `n` bits at the front of `b`, or the end of input. -/
def wholeField (n : Nat) (b : List Bool) : Except DecodeError (BitVec n) :=
  if b.length < n then .error .endOfInput else .ok (memRead b 0 n)

/-- The payload of an 8-bit value field: the byte as it is (R71, R78). -/
def payloadV8 (x : BitVec 8) : BitVec 7 := x.setWidth 7

/-- The payload of a 16-bit value field: XOR with M_V16 (R72, R78). -/
def payloadV16 (x : BitVec 16) : BitVec 15 := (x ^^^ maskV16).setWidth 15

/-- The payload of an 8-bit count field: XOR with M_C8 (R74, R78). -/
def payloadC8 (x : BitVec 8) : BitVec 6 := (x ^^^ maskC8).setWidth 6

/-- The payload of a 16-bit count field: XOR with M_C16 (R75, R78). -/
def payloadC16 (x : BitVec 16) : BitVec 13 := (x ^^^ maskC16).setWidth 13

/-- A 16-bit value field by its second bit: V16, or V16X (R70). -/
def value16 (x : BitVec 16) : Instr :=
  if x.getLsbD 14 then .v16x (payloadV16 x) else .v16 (payloadV16 x)

/-- Position V of R76: bit index 0 tells an 8-bit value from a 16-bit one. -/
def decodeValue (b : List Bool) : Except DecodeError Instr :=
  if memRead b 0 1 = 0#1 then (wholeField 8 b).map (fun x => .v8 (payloadV8 x))
  else (wholeField 16 b).map value16

/-- A count field by bit index 2 (R76). -/
def decodeCount (b : List Bool) : Except DecodeError Instr :=
  if memRead b 2 1 = 0#1 then (wholeField 8 b).map (fun x => .c8 (payloadC8 x))
  else (wholeField 16 b).map (fun x => .c16 (payloadC16 x))

/-- The tree of R76 over the bits that remain, the field at hand first. It looks at the position and the leading bits and
nothing else; a field that does not fit in the bits that remain is an end of input (R84). -/
def decodeField (p : Position) (b : List Bool) : Except DecodeError Instr :=
  match p with
  | .S => if memRead b 0 2 = 3#2 then decodeCount b else decodeValue b
  | .V => decodeValue b

/-- A symbol (R85, R86, R162): `d = c - 32` on CHAR_W-bit unsigned numbers with wrap-around, one comparison (R164). -/
def decodeSymbol (c : Symbol) : Except DecodeError Instr :=
  let d := c - 32#21
  if 64#21 ≤ d then .error (.illegalSymbol c)
  else if d < 32#21 then .ok (.symLo (d.setWidth 6))
  else .ok (.symHi (d.setWidth 6))

/-- The command written to CMD: `CMD[2:0]`, the bits above ignored (R88, R89). -/
def decodeCommand (v : BitVec 32) : Instr :=
  match (v.setWidth 3).toFin with
  | 0 => .nop
  | 1 => .pack
  | 2 => .unpack
  | 3 => .tenc
  | 4 => .tdec
  | 5 => .densify
  | 6 => .revert
  | 7 => .clear

/-- The decoder of all three spaces; a field is decoded in a position. -/
def decode (p : Position) (w : Code) : Except DecodeError Instr :=
  match w with
  | .field b => decodeField p b
  | .symbol c => decodeSymbol c
  | .command op => .ok (decodeCommand (op.setWidth 32))

/-- The symbol of a 6-bit group: code point 32 + group (R85, R160). -/
def symbolOf (g : BitVec 6) : Symbol := g.setWidth 21 + 32#21

/-- The bits of a V8 field (R71). -/
def bitsV8 (v : BitVec 7) : List Bool := bin (v.setWidth 8)

/-- The bits of a V16 or V16X field (R72, R73). -/
def bitsV16 (v : BitVec 15) : List Bool := bin (v.setWidth 16 ^^^ maskV16)

/-- The bits of a C8 field (R74). -/
def bitsC8 (c : BitVec 6) : List Bool := bin (c.setWidth 8 ^^^ maskC8)

/-- The bits of a C16 field (R75). -/
def bitsC16 (c : BitVec 13) : List Bool := bin (c.setWidth 16 ^^^ maskC16)

/-- The encoder, from the formats of R71 to R75, R85 and the opcodes of R88. -/
def encode (i : Instr) : Code :=
  match i with
  | .v8 v => .field (bitsV8 v)
  | .v16 v => .field (bitsV16 v)
  | .v16x v => .field (bitsV16 v)
  | .c8 c => .field (bitsC8 c)
  | .c16 c => .field (bitsC16 c)
  | .symLo g => .symbol (symbolOf g)
  | .symHi g => .symbol (symbolOf g)
  | .nop => .command 0
  | .pack => .command 1
  | .unpack => .command 2
  | .tenc => .command 3
  | .tdec => .command 4
  | .densify => .command 5
  | .revert => .command 6
  | .clear => .command 7

/-- The positions in which the decoder recognises an instruction (R70, R76). Symbols and commands have none. -/
def Instr.recognisedAt (i : Instr) (p : Position) : Bool :=
  match i with
  | .v8 _ => true
  | .v16 _ => true
  | .v16x _ => decide (p = .V)
  | .c8 _ => decide (p = .S)
  | .c16 _ => decide (p = .S)
  | .symLo _ => true
  | .symHi _ => true
  | .nop => true
  | .pack => true
  | .unpack => true
  | .tenc => true
  | .tdec => true
  | .densify => true
  | .revert => true
  | .clear => true

/-- The width of an instruction's code in bits, as spec/opcode_table.json gives it. -/
def Instr.width (i : Instr) : Nat :=
  match i with
  | .v8 _ => 8
  | .v16 _ => 16
  | .v16x _ => 16
  | .c8 _ => 8
  | .c16 _ => 16
  | .symLo _ => 21
  | .symHi _ => 21
  | .nop => 3
  | .pack => 3
  | .unpack => 3
  | .tenc => 3
  | .tdec => 3
  | .densify => 3
  | .revert => 3
  | .clear => 3

/-- Which space, and for a field which position, a word of the table is read in (log 5): a word of at most 8 bits below 8 is
a command; 8 and 16 bits are a field, read in position S if the whole word is one field there, else in position V; anything
else is a symbol. -/
inductive TableSpace where
  | command
  | field (p : Position)
  | symbol
deriving DecidableEq, Repr

/-- The instruction a field of exactly `nbits` bits stands for in a position. -/
def wholeWord (p : Position) (nbits w : Nat) : Option Instr :=
  match decodeField p (binNat nbits w) with
  | .ok i => if i.width = nbits then some i else none
  | .error _ => none

/-- The space of a word of the opcode table (log 5). -/
def tableSpace (nbits w : Nat) : TableSpace :=
  if nbits ≤ 8 ∧ w < 8 then .command
  else if nbits = 8 ∨ nbits = 16 then
    (if (wholeWord .S nbits w).isSome then .field .S else .field .V)
  else .symbol

/-- The instruction the decoder reads from a word of the opcode table. -/
def decodeTableWord (nbits w : Nat) : Option Instr :=
  match tableSpace nbits w with
  | .command => some (decodeCommand (BitVec.ofNat 32 w))
  | .field p => wholeWord p nbits w
  | .symbol => if w < 2 ^ 21 then (decodeSymbol (BitVec.ofNat 21 w)).toOption else none

end Sys2Proof
end

