-- ==== Sys2Proof/Machine/State.lean ====
section
/-! DEFINITION. The state of the block (spec/10_state.md), its fault causes (spec/60_exceptions.md), the host's actions and the
state after reset (R38, R232). Plain data. -/

namespace Sys2Proof.Machine

/-- The eight host commands (R88). -/
inductive Command where
  | nop
  | pack
  | unpack
  | tenc
  | tdec
  | densify
  | revert
  | clear
deriving DecidableEq, Repr

/-- The four buffers (R50). -/
inductive Buffer where
  | ibuf
  | bbuf
  | vbuf
  | obuf
deriving DecidableEq, Repr

/-- The eight registers of the host's register interface, in the order of their numbers (R35). -/
inductive Reg where
  | cmd
  | status
  | errcode
  | errchar
  | ilen
  | blen
  | vlen
  | olen
deriving DecidableEq, Repr

/-- The block's own faults (R200). Each ends the command that raised it and leaves a next state (R212). -/
inductive CodecFault where
  /-- Code 1 (R202): a symbol outside 32 to 95 in a Printable String; carries the symbol. -/
  | invalidBase64Character (c : Symbol)
  /-- Code 2 (R203): reserved, never raised. -/
  | parseError
  /-- Code 3 (R204): the truncated bit string ends inside a run. -/
  | unexpectedEndOfInput
  /-- Code 4 (R205): reserved, never raised. -/
  | unexpectedChar
  /-- Code 5 (R206): a key that is not a number 1 to 300. -/
  | invalidValue
  /-- Code 6 (R208): TENC on a length that is not a multiple of 6. -/
  | contractViolation
  /-- Code 7 (R209): more than MAX_ENTRIES tokens, or a result longer than its buffer. -/
  | capacityExceeded
deriving DecidableEq, Repr

/-- Where the engine is. Between commands it is idle (STATUS.BUSY = 0, R32). A command is one atomic transition (R10, R180), so
no run from an idle state leaves the engine in the other two; they hold the inside of a command, one symbol of TDEC's loop
(R162) or one field of UNPACK's scan (R103, R143) at a time. See log 6. -/
inductive Engine where
  /-- Between commands. -/
  | idle
  /-- In TDEC's symbol loop, for command `c` (TDEC or REVERT). -/
  | symbols (c : Command)
  /-- In UNPACK's field scan, for command `c` (UNPACK or REVERT), the decoder in position `p` (R76). -/
  | fields (c : Command) (p : Position)
deriving DecidableEq, Repr

/-- What the host can do between commands (R31, R35, R36, R50, R231, R233). -/
inductive HostAction where
  /-- The reset event (R230, R231). -/
  | reset
  /-- Write `v` to register `r`; a write to CMD executes a command (R31). -/
  | writeReg (r : Reg) (v : BitVec 32)
  /-- Read register `r`; its value is `readReg r`. -/
  | readReg (r : Reg)
  /-- Write `IBUF[i]`. -/
  | writeIbuf (i : Len) (c : Symbol)
  /-- Write `BBUF[i]`. -/
  | writeBbuf (i : Len) (b : Bool)
  /-- Read entry `i` of a buffer; of IBUF too, which is the model's choice (log 22). -/
  | readBuf (b : Buffer) (i : Len)
deriving DecidableEq, Repr

/-- Why the machine stops with a fault. -/
inductive Fault where
  /-- Raised by a host write to an IBUF or BBUF index at or above the buffer's capacity: the array has no such entry (R26,
  R27, R61). Safe: the machine stops. See log 10. -/
  | noSuchEntry
deriving DecidableEq, Repr

/-- Why the machine answers with no meaning. -/
inductive Refusal where
  /-- Raised by `exec` for an instruction without a meaning; every instruction has one, so no arm uses it. Safe. -/
  | notModelled (mnemonic : String)
  /-- Raised by a field or symbol executed where the engine does not hold the position that recognises it (R76); the decoder
  never produces this, so no step does. Safe. See log 14. -/
  | outOfPosition
  /-- Raised by a host read of a buffer entry at or beyond the buffer's length, which is refused (R30, U9). Safe. See log 11. -/
  | readBeyondLength
deriving DecidableEq, Repr

end Sys2Proof.Machine

namespace Sys2Proof.Machine

/-- The whole state. The length registers are the lengths of the lists (R39). -/
structure State where
  /-- The parameters of R7; never written. See log 2. -/
  cfg : Config
  /-- `IBUF[0..ILEN)` (R26). -/
  ibuf : List Symbol
  /-- `BBUF[0..BLEN)` (R27). -/
  bbuf : List Bool
  /-- `VBUF[0..VLEN)` (R28). -/
  vbuf : List Val
  /-- `OBUF[0..OLEN)` (R29). -/
  obuf : List Symbol
  /-- Host-written IBUF entries at or beyond ILEN, by rising index (R233). See log 8. -/
  istage : List (Nat × Symbol)
  /-- Host-written BBUF entries at or beyond BLEN, by rising index (R233). See log 8. -/
  bstage : List (Nat × Bool)
  /-- STATUS.DONE (R32). -/
  done : Bool
  /-- STATUS.ERR (R32). -/
  err : Bool
  /-- ERRCODE.CODE (R33). -/
  errCode : BitVec 4
  /-- ERRCODE.CLASS (R33). -/
  errClass : BitVec 2
  /-- ERRCHAR (R34). -/
  errChar : Symbol
  /-- Where the engine is; STATUS.BUSY is computed from it (R32). -/
  engine : Engine
  /-- TDEC's loop index i (R162). -/
  idx : Len
  /-- POS (R21). -/
  pos : Len
  /-- LTRUNC (R22). -/
  ltrunc : Len
  /-- RCNT (R23). -/
  rcnt : Count
  /-- RVAL (R24). -/
  rval : Val
  /-- TALLY (R25). -/
  tally : Tally
  /-- How many free values have been drawn. The model's own. See log 3. -/
  draws : Nat
  /-- The host's pending actions, oldest first. The model's own. See log 4. -/
  host : List HostAction
deriving DecidableEq, Repr

/-- The machine right after reset (R38, R232), with the parameters at the values of R7. -/
def State.reset : State where
  cfg := Config.standard
  ibuf := []
  bbuf := []
  vbuf := []
  obuf := []
  istage := []
  bstage := []
  done := false
  err := false
  errCode := 0
  errClass := 0
  errChar := 0
  engine := .idle
  idx := 0
  pos := 0
  ltrunc := 0
  rcnt := 0
  rval := 0
  tally := []
  draws := 0
  host := []

end Sys2Proof.Machine
end

