-- ==== Sys2Proof/Machine/Flags.lean ====
section
/-! DEFINITION. The status flags and the error registers (spec/10_state.md R32 to R35; spec/60_exceptions.md R200, R201). -/

namespace Sys2Proof.Machine

/-- ERRCODE.CODE of a fault (R200). -/
def faultCode : CodecFault → BitVec 4
  | .invalidBase64Character _ => 1
  | .parseError => 2
  | .unexpectedEndOfInput => 3
  | .unexpectedChar => 4
  | .invalidValue => 5
  | .contractViolation => 6
  | .capacityExceeded => 7

/-- ERRCODE.CLASS of a fault (R201). -/
def faultClass : CodecFault → BitVec 2
  | .invalidBase64Character _ => 1
  | .parseError => 2
  | .unexpectedEndOfInput => 2
  | .unexpectedChar => 2
  | .invalidValue => 3
  | .contractViolation => 3
  | .capacityExceeded => 3

/-- ERRCHAR of a fault: the offending symbol for code 1, else 0 (R34). -/
def faultChar : CodecFault → Symbol
  | .invalidBase64Character c => c
  | .parseError => 0
  | .unexpectedEndOfInput => 0
  | .unexpectedChar => 0
  | .invalidValue => 0
  | .contractViolation => 0
  | .capacityExceeded => 0

/-- STATUS, ERRCODE and ERRCHAR at the completion of a command without a fault (R180). -/
def setSuccess (s : State) : State :=
  { s with errCode := 0, errClass := 0, errChar := 0, err := false, done := true }

/-- STATUS, ERRCODE and ERRCHAR at the completion of a command with a fault (R180, R212). -/
def setFault (f : CodecFault) (s : State) : State :=
  { s with errCode := faultCode f, errClass := faultClass f, errChar := faultChar f, err := true, done := true }

/-- STATUS.BUSY (R32): 1 while a command is executing. -/
def busy (s : State) : Bool := decide (s.engine ≠ .idle)

/-- The STATUS register: bit 0 BUSY, bit 1 DONE, bit 2 ERR (R35). -/
def statusWord (s : State) : BitVec 3 :=
  BitVec.ofBool s.err ++ BitVec.ofBool s.done ++ BitVec.ofBool (busy s)

/-- The ERRCODE register: CODE in bits 3 to 0, CLASS in bits 5 to 4 (R35). -/
def errcodeWord (s : State) : BitVec 6 := s.errClass ++ s.errCode

/-- What a host read of a register returns (R35): CMD reads 0, and bits above a register's width read 0. -/
def readReg (r : Reg) (s : State) : BitVec 32 :=
  match r with
  | .cmd => 0
  | .status => (statusWord s).setWidth 32
  | .errcode => (errcodeWord s).setWidth 32
  | .errchar => s.errChar.setWidth 32
  | .ilen => BitVec.ofNat 32 s.ibuf.length
  | .blen => BitVec.ofNat 32 s.bbuf.length
  | .vlen => BitVec.ofNat 32 s.vbuf.length
  | .olen => BitVec.ofNat 32 s.obuf.length

/-- The register's number on the host's register interface (R35). -/
def regNumber : Reg → Nat
  | .cmd => 0
  | .status => 1
  | .errcode => 2
  | .errchar => 3
  | .ilen => 4
  | .blen => 5
  | .vlen => 6
  | .olen => 7

end Sys2Proof.Machine
end

