-- ==== Sys2Proof/Machine/Ops.lean ====
section
/-! DEFINITION. The shared operations: appends, the frame every command runs in, taking a fault, reset, and the host's writes
(spec/20_memory.md R53; spec/44_commands.md R180, R192; spec/60_exceptions.md R212; spec/10_state.md R36, R38). -/

namespace Sys2Proof.Machine

/-- One stage after another; the first fault ends the command (R211). -/
def andThen (r : Except CodecFault State) (k : State → Except CodecFault State) : Except CodecFault State :=
  match r with
  | .ok s => k s
  | .error f => .error f

/-- The fault a decoder error raises: R84 for the end of input, R86 for an illegal symbol. -/
def faultOf : DecodeError → CodecFault
  | .endOfInput => .unexpectedEndOfInput
  | .illegalSymbol c => .invalidBase64Character c

/-- `append(BBUF, b)`, a bit string at once (R53). -/
def appendBits (b : List Bool) (s : State) : Except CodecFault State :=
  if s.bbuf.length + b.length ≤ s.cfg.bbufCap.toNat then .ok { s with bbuf := s.bbuf ++ b }
  else .error .capacityExceeded

/-- `append(VBUF, v)`, n times (R53, R103): n appends of one value, none of which finds VLEN = VBUF_CAP. See log 12. -/
def appendRun (n : Nat) (v : Val) (s : State) : Except CodecFault State :=
  if n = 0 ∨ s.vbuf.length + n ≤ s.cfg.vbufCap.toNat then
    .ok { s with vbuf := s.vbuf ++ List.replicate n v }
  else .error .capacityExceeded

/-- The whole result of a command stage, written to BBUF (R129, R130). -/
def putBits (b : List Bool) (s : State) : Except CodecFault State :=
  if b.length ≤ s.cfg.bbufCap.toNat then .ok { s with bbuf := b } else .error .capacityExceeded

/-- The whole result of a command stage, written to OBUF (R167, R189). -/
def putText (t : List Symbol) (s : State) : Except CodecFault State :=
  if t.length ≤ s.cfg.obufCap.toNat then .ok { s with obuf := t } else .error .capacityExceeded

/-- `writes(cmd)` (R192). -/
def writes : Command → List Buffer
  | .nop => []
  | .pack => [.bbuf]
  | .unpack => [.vbuf]
  | .tenc => [.obuf]
  | .tdec => [.bbuf]
  | .densify => [.bbuf, .obuf]
  | .revert => [.bbuf, .vbuf, .obuf]
  | .clear => [.ibuf, .bbuf, .vbuf, .obuf]

/-- `for every buffer B in writes(cmd): len(B) <- 0` (R180); the entries cease to exist (R30). -/
def clearOutputs (c : Command) (s : State) : State :=
  { s with
    ibuf := if .ibuf ∈ writes c then [] else s.ibuf
    istage := if .ibuf ∈ writes c then [] else s.istage
    bbuf := if .bbuf ∈ writes c then [] else s.bbuf
    bstage := if .bbuf ∈ writes c then [] else s.bstage
    vbuf := if .vbuf ∈ writes c then [] else s.vbuf
    obuf := if .obuf ∈ writes c then [] else s.obuf }

/-- The transients exist only inside one command (R20, R25); between commands the model holds them at their reset value
(log 7) and the engine is idle. -/
def park (s : State) : State :=
  { s with engine := .idle, idx := 0, pos := 0, ltrunc := 0, rcnt := 0, rval := 0, tally := [] }

/-- A command completes without a fault (R180). -/
def complete (s : State) : State := setSuccess (park s)

/-- TAKING A FAULT (R180, R212): the written buffers are emptied, the input buffers stand, the error registers take the
fault's code, class and symbol, and the block is ready for the next command. There is no return operation (R213). -/
def takeFault (c : Command) (f : CodecFault) (s : State) : State :=
  setFault f (park (clearOutputs c s))

/-- A stage's result inside a command of which more is to come: go on, or take the fault. -/
def settle (c : Command) (s : State) (r : Except CodecFault State) : Host.Outcome State Fault Refusal :=
  match r with
  | .ok s' => .next s'
  | .error f => .next (takeFault c f s)

/-- The frame of R180: empty the written buffers, run the command's function, complete or take the fault. -/
def frame (c : Command) (run : State → Except CodecFault State) (s : State) : State :=
  match run (clearOutputs c s) with
  | .ok s' => complete s'
  | .error f => takeFault c f s

/-- Reset (R230, R231), and the CLEAR command (R186). The parameters, the draw counter and the host's pending actions are
no state of the block and stay (log 4). -/
def resetBlock (s : State) : State :=
  { State.reset with cfg := s.cfg, draws := s.draws, host := s.host }

/-- A command is executed while STATUS.BUSY = 0 (R31); while a command executes a write to CMD is ignored (R238, log 13). -/
def whenIdle (s : State) (f : State → State) : Host.Outcome State Fault Refusal :=
  if s.engine = .idle then .next (f s) else .next s

/-! The host's writes to the buffers and their lengths (R36, R233). -/

/-- The staged entry at an index. -/
def staged {α : Type} (i : Nat) : List (Nat × α) → Option α
  | [] => none
  | (j, x) :: rest => if i = j then some x else staged i rest

/-- Stage an entry, keeping the indices strictly rising. -/
def stagePut {α : Type} (i : Nat) (x : α) : List (Nat × α) → List (Nat × α)
  | [] => [(i, x)]
  | (j, y) :: rest =>
    if i < j then (i, x) :: (j, y) :: rest
    else if i = j then (i, x) :: rest
    else (j, y) :: stagePut i x rest

/-- Entries with their indices, from `n` on. -/
def numbered {α : Type} (n : Nat) : List α → List (Nat × α)
  | [] => []
  | x :: xs => (n, x) :: numbered (n + 1) xs

/-- A buffer and its staged entries after the host writes `n` to the length register (R30, R233; logs 8 and 9). Shortening
to a length above 0 stages the entries beyond it; shortening to 0 ends them; lengthening takes the staged entries, and a free
value where nothing was written. -/
def setLength {α : Type} (free : Nat → α) (n : Nat) (buf : List α) (stage : List (Nat × α)) :
    List α × List (Nat × α) :=
  if n = 0 ∧ buf ≠ [] then ([], [])
  else if n ≤ buf.length then (buf.take n, numbered n (buf.drop n) ++ stage)
  else
    (buf ++ (List.range (n - buf.length)).map
        (fun k => (staged (buf.length + k) stage).getD (free (buf.length + k))),
      stage.filter (fun e => n ≤ e.1))

/-- A host write to ILEN: above the capacity it is refused and the register keeps its old value (R36). -/
def writeIlen (v : Len) (s : State) : State :=
  if v ≤ s.cfg.ibufCap then
    let r := setLength (Config.unwrittenSymbol s.draws) v.toNat s.ibuf s.istage
    { s with ibuf := r.1, istage := r.2, draws := s.draws + 1 }
  else s

/-- A host write to BLEN (R36). -/
def writeBlen (v : Len) (s : State) : State :=
  if v ≤ s.cfg.bbufCap then
    let r := setLength (Config.unwrittenBit s.draws) v.toNat s.bbuf s.bstage
    { s with bbuf := r.1, bstage := r.2, draws := s.draws + 1 }
  else s

/-- A host write to a register other than CMD (R35): ILEN and BLEN are read-write, the others read-only (log 17). CMD is
handled where a command is fetched. -/
def writeReg (r : Reg) (v : BitVec 32) (s : State) : State :=
  match r with
  | .cmd => s
  | .status => s
  | .errcode => s
  | .errchar => s
  | .ilen => writeIlen v s
  | .blen => writeBlen v s
  | .vlen => s
  | .olen => s

/-- A host write to `IBUF[i]` (R26, R233). -/
def writeIbuf (i : Len) (c : Symbol) (s : State) : Host.Outcome State Fault Refusal :=
  if s.cfg.ibufCap ≤ i then .fault .noSuchEntry
  else if i.toNat < s.ibuf.length then .next { s with ibuf := s.ibuf.set i.toNat c }
  else .next { s with istage := stagePut i.toNat c s.istage }

/-- A host write to `BBUF[i]` (R27, R233). -/
def writeBbuf (i : Len) (b : Bool) (s : State) : Host.Outcome State Fault Refusal :=
  if s.cfg.bbufCap ≤ i then .fault .noSuchEntry
  else if i.toNat < s.bbuf.length then .next { s with bbuf := s.bbuf.set i.toNat b }
  else .next { s with bstage := stagePut i.toNat b s.bstage }

/-- The length of a buffer. -/
def bufLength (b : Buffer) (s : State) : Nat :=
  match b with
  | .ibuf => s.ibuf.length
  | .bbuf => s.bbuf.length
  | .vbuf => s.vbuf.length
  | .obuf => s.obuf.length

/-- What a host read of entry `i` of a buffer returns, as a 32-bit number; nothing at or beyond the length (R30). R50 names the
host among the readers of BBUF, VBUF and OBUF. DESIGN CHOICE, unsafe: the host may also read IBUF, which R39 calls host-visible
and for which R26 and R50 name no such read (log 22). -/
def readBuf (b : Buffer) (i : Nat) (s : State) : Option (BitVec 32) :=
  match b with
  | .ibuf => s.ibuf[i]?.map (·.setWidth 32)
  | .bbuf => s.bbuf[i]?.map (fun x => (BitVec.ofBool x).setWidth 32)
  | .vbuf => s.vbuf[i]?.map (·.setWidth 32)
  | .obuf => s.obuf[i]?.map (·.setWidth 32)

/-! The canonical form of what the buffers hold. -/

/-- Indices strictly rising, at or beyond `lo`, below `hi`. -/
def stageWf {α : Type} (lo hi : Nat) : List (Nat × α) → Bool
  | [] => true
  | (i, _) :: rest => decide (lo ≤ i) && decide (i < hi) && stageWf (i + 1) hi rest

/-- The buffers fit their capacities (R37), and the staged entries lie beyond the length, inside the array, in one order. -/
def Memory.wf (s : State) : Bool :=
  decide (s.ibuf.length ≤ s.cfg.ibufCap.toNat) && decide (s.bbuf.length ≤ s.cfg.bbufCap.toNat) &&
  decide (s.vbuf.length ≤ s.cfg.vbufCap.toNat) && decide (s.obuf.length ≤ s.cfg.obufCap.toNat) &&
  stageWf s.ibuf.length s.cfg.ibufCap.toNat s.istage && stageWf s.bbuf.length s.cfg.bbufCap.toNat s.bstage

end Sys2Proof.Machine
end

