-- ==== Sys2Proof/Machine/Operands.lean ====
section
/-! DEFINITION. The operand forms: the field at POS, a value field's and a count field's operand, the symbol at the loop index
(spec/20_memory.md R57; spec/40_field_codec.md R103 to R108; spec/43_transcoder.md R162). -/

namespace Sys2Proof.Machine

/-- `rem`, the bits that remain below LTRUNC (R84, `40_field_codec.md` section 2). -/
def remaining (s : State) : Nat := s.ltrunc.toNat - s.pos.toNat

/-- `BBUF[POS..LTRUNC)`, the only bits the decoder sees: bits at or beyond LTRUNC are never read (R22). -/
def visibleBits (s : State) : List Bool := (s.bbuf.take s.ltrunc.toNat).drop s.pos.toNat

/-- The field at POS, decoded in a position (R66, R76). -/
def fetchField (p : Position) (s : State) : Except DecodeError Instr := decodeField p (visibleBits s)

/-- `if rem < n: raise UnexpectedEndOfInput` (R105, R106, R108). -/
def needBits (n : Nat) (k : State → Except CodecFault State) (s : State) : Except CodecFault State :=
  if remaining s < n then .error .unexpectedEndOfInput else k s

/-- How often the value of a value field in a position is appended: once when no count field came before (R103), else RCNT
times. -/
def runCount (p : Position) (s : State) : Count :=
  match p with
  | .S => 1
  | .V => s.rcnt

/-- A value field of `w` bits with value `v`, and the end of its run (R103 to R106): RCNT is 1 when no count field came before;
RVAL and POS are written; the value is appended RCNT times; the decoder is back in position S. -/
def valueField (c : Command) (p : Position) (w : Len) (v : Val) (s : State) : Except CodecFault State :=
  appendRun (runCount p s).toNat v { s with rcnt := runCount p s, rval := v, pos := s.pos + w, engine := .fields c .S }

/-- A count field of `w` bits with count `n` (R107, R108): RCNT and POS are written; the decoder is in position V. -/
def countField (c : Command) (w : Len) (n : Count) (s : State) : Except CodecFault State :=
  .ok { s with rcnt := n, pos := s.pos + w, engine := .fields c .V }

/-- One symbol of TDEC's loop (R162): the group's six bits are appended to BBUF and the loop index moves on. -/
def symbolField (g : BitVec 6) (s : State) : Except CodecFault State :=
  appendBits (bin g) { s with idx := s.idx + 1 }

/-- Executing a field where the engine scans fields; elsewhere the spec has no such event (log 14). -/
def atField (s : State) (k : Command → Position → Host.Outcome State Fault Refusal) :
    Host.Outcome State Fault Refusal :=
  match s.engine with
  | .fields c p => k c p
  | .idle => .refused .outOfPosition
  | .symbols _ => .refused .outOfPosition

/-- Executing a field that one position alone recognises (R76; log 14). -/
def atPosition (q : Position) (s : State) (k : Command → Host.Outcome State Fault Refusal) :
    Host.Outcome State Fault Refusal :=
  atField s (fun c p => if p = q then k c else .refused .outOfPosition)

/-- Executing a symbol where the engine is in TDEC's loop (log 14). -/
def atSymbol (s : State) (k : Command → Host.Outcome State Fault Refusal) :
    Host.Outcome State Fault Refusal :=
  match s.engine with
  | .symbols c => k c
  | .idle => .refused .outOfPosition
  | .fields _ _ => .refused .outOfPosition

end Sys2Proof.Machine
end

