-- ==== Sys2Proof/Machine/Fields.lean ====
section
/-! DEFINITION. The fields of the Bit Digit String: V8, V16, V16X, C8, C16 (spec/40_field_codec.md R104 to R108), the run decode
step DEC_RUN (R103), and the meanings of the five instructions. -/

namespace Sys2Proof.Machine

/-- V8 (R104): RVAL is the byte as it is; no fault of its own. -/
def fieldV8 (c : Command) (p : Position) (v : BitVec 7) (s : State) : Except CodecFault State :=
  valueField c p 8 (v.setWidth 16) s

/-- V16 (R105). -/
def fieldV16 (c : Command) (p : Position) (v : BitVec 15) (s : State) : Except CodecFault State :=
  needBits 16 (valueField c p 16 (v.setWidth 16)) s

/-- V16X (R106): the semantics of V16, in position V. -/
def fieldV16x (c : Command) (v : BitVec 15) (s : State) : Except CodecFault State :=
  needBits 16 (valueField c .V 16 (v.setWidth 16)) s

/-- C8 (R107); no fault of its own. -/
def fieldC8 (c : Command) (n : BitVec 6) (s : State) : Except CodecFault State :=
  countField c 8 (n.setWidth 13) s

/-- C16 (R108). -/
def fieldC16 (c : Command) (n : BitVec 13) (s : State) : Except CodecFault State :=
  needBits 16 (countField c 16 n) s

/-- The effect of a decoded field inside the scan of command `c`. The decoder of a field gives no symbol and no command. -/
def runField (c : Command) (p : Position) (i : Instr) (s : State) : Except CodecFault State :=
  match i with
  | .v8 v => fieldV8 c p v s
  | .v16 v => fieldV16 c p v s
  | .v16x v => fieldV16x c v s
  | .c8 n => fieldC8 c n s
  | .c16 n => fieldC16 c n s
  | .symLo _ => .ok s
  | .symHi _ => .ok s
  | .nop => .ok s
  | .pack => .ok s
  | .unpack => .ok s
  | .tenc => .ok s
  | .tdec => .ok s
  | .densify => .ok s
  | .revert => .ok s
  | .clear => .ok s

/-- One field of the scan: decode at POS in the decoder's position and execute (R76, R103). A count field with no bit after it,
like any field that does not fit, is an end of input (R84). -/
def nextField (s : State) : Except CodecFault State :=
  match s.engine with
  | .fields c p =>
    match fetchField p s with
    | .ok i => runField c p i s
    | .error e => .error (faultOf e)
  | .idle => .ok s
  | .symbols _ => .ok s

/-- Whether the decoder has just read a count field (R76). -/
def expectsValue (s : State) : Bool :=
  match s.engine with
  | .fields _ .V => true
  | .fields _ .S => false
  | .idle => false
  | .symbols _ => false

/-- DEC_RUN (R103): the field at the run start and, if it was a count, the value field after it. -/
def decRun (s : State) : Except CodecFault State :=
  andThen (nextField s) (fun s' => if expectsValue s' then nextField s' else .ok s')

/-- The loop of R143 and R146, at most `n` runs; the scan ends at a run start with POS at LTRUNC (R144). -/
def scanLoop : Nat → State → Except CodecFault State
  | 0, s => .ok s
  | n + 1, s => if s.pos < s.ltrunc then andThen (decRun s) (scanLoop n) else .ok s

/-- The start of the scan for command `c` (R142, R143). -/
def beginScan (c : Command) (s : State) : State :=
  { s with ltrunc := BitVec.ofNat 32 (s.bbuf.length - s.bbuf.length % 8), pos := 0, engine := .fields c .S }

/-- The meaning of V8: inside a scan, R104 and the end of its run. -/
def execV8 (v : BitVec 7) (s : State) : Host.Outcome State Fault Refusal :=
  atField s (fun c p => settle c s (fieldV8 c p v s))

/-- The meaning of V16: inside a scan, R105 and the end of its run. -/
def execV16 (v : BitVec 15) (s : State) : Host.Outcome State Fault Refusal :=
  atField s (fun c p => settle c s (fieldV16 c p v s))

/-- The meaning of V16X: inside a scan in position V, R106 and the end of its run. -/
def execV16x (v : BitVec 15) (s : State) : Host.Outcome State Fault Refusal :=
  atPosition .V s (fun c => settle c s (fieldV16x c v s))

/-- The meaning of C8: inside a scan in position S, R107. -/
def execC8 (n : BitVec 6) (s : State) : Host.Outcome State Fault Refusal :=
  atPosition .S s (fun c => settle c s (fieldC8 c n s))

/-- The meaning of C16: inside a scan in position S, R108. -/
def execC16 (n : BitVec 13) (s : State) : Host.Outcome State Fault Refusal :=
  atPosition .S s (fun c => settle c s (fieldC16 c n s))

end Sys2Proof.Machine
end

