-- ==== Sys2Proof/Machine/Pack.lean ====
section
/-! DEFINITION. PACK: text to Bit Digit String (spec/41_pack.md R120 to R132), with the encoder primitives it uses
(spec/40_field_codec.md R100 to R102). -/

namespace Sys2Proof.Machine

/-- The code point of the comma (R121). -/
def comma : Symbol := 44#21

/-- VALUE_MAX (R5). -/
def valueMax : Nat := 300

/-- ENC_VALUE (R100). -/
def encValue (v : Val) : List Bool :=
  if v ≤ 127#16 then bin (v.setWidth 8) else bin (v ^^^ maskV16)

/-- ENC_COUNT (R101). -/
def encCount (c : Count) : List Bool :=
  if c ≤ 31#13 then bin (c.setWidth 8 ^^^ maskC8) else bin (c.setWidth 16 ^^^ maskC16)

/-- ENC_RUN (R102): a count of 1 is not encoded. -/
def encRun (c : Count) (v : Val) : List Bool :=
  if 1#13 < c then encCount c ++ encValue v else encValue v

/-- SPLIT (R121): k commas give k + 1 tokens. -/
def split : List Symbol → List (List Symbol)
  | [] => [[]]
  | x :: xs =>
    if x = comma then [] :: split xs
    else
      match split xs with
      | [] => [[x]]
      | t :: ts => (x :: t) :: ts

/-- TRIM (R123): the longest prefix and the longest suffix of symbols in WS_SET are removed. -/
def trim (ws : List Symbol) (t : List Symbol) : Key :=
  ((t.dropWhile (fun x => decide (x ∈ ws))).reverse.dropWhile (fun x => decide (x ∈ ws))).reverse

/-- One more token with key `k` (R124). Keys are compared as symbol sequences. -/
def bump (k : Key) : Tally → Tally
  | [] => [(k, 1)]
  | (k', n) :: t => if k = k' then (k', n + 1) :: t else (k', n) :: bump k t

/-- TALLY (R124): every distinct key with the number of tokens that have it. -/
def tallyOf (keys : List Key) : Tally := keys.foldl (fun t k => bump k t) []

/-- A symbol `'0'` to `'9'` (R126). -/
def isDigit (x : Symbol) : Bool := decide (48#21 ≤ x) && decide (x ≤ 57#21)

/-- The decimal value of a digit string, without width limit (R126). -/
def decimalValue (k : Key) : Nat := k.foldl (fun a x => 10 * a + (x.toNat - 48)) 0

/-- PARSE (R126): one or more ASCII digits with decimal value 1 to 300. -/
def parseKey (k : Key) : Option Val :=
  if k ≠ [] ∧ k.all isDigit = true ∧ 0 < decimalValue k ∧ decimalValue k ≤ valueMax then
    some (BitVec.ofNat 16 (decimalValue k))
  else none

/-- A permutation of a list from a stream of choices: every element is inserted among those after it at a chosen place. Every
permutation comes from some choices. -/
def permute {α : Type} (choice : Nat → Nat) : List α → List α
  | [] => []
  | [x] => [x]
  | x :: y :: rest =>
    (permute choice (y :: rest)).insertIdx (choice (rest.length + 1) % (rest.length + 2)) x

/-- The fragment of one key (R127). Called for valid keys only. -/
def fragment (e : Key × Count) : List Bool :=
  match parseKey e.1 with
  | some v => encRun e.2 v
  | none => []

/-- The fragments of the tally's keys, concatenated in the order given (R127). -/
def emission (t : Tally) : List Bool := (t.map fragment).flatten

/-- PAD6 (R128). -/
def pad6 (b : List Bool) : List Bool := b ++ List.replicate ((6 - b.length % 6) % 6) false

/-- The first half of R129: SPLIT, the entry bound (R122), TRIM, TALLY. -/
def tallyText (cfg : Config) (text : List Symbol) : Except CodecFault Tally :=
  if cfg.maxEntries.toNat < (split text).length then .error .capacityExceeded
  else .ok (tallyOf ((split text).map (trim cfg.wsSet)))

/-- The second half of R129: every key is checked before anything is emitted (R132), then emission in GROUP_ORDER and the
padding. -/
def emitTally (choice : Nat → Nat) (t : Tally) : Except CodecFault (List Bool) :=
  if t.all (fun e => (parseKey e.1).isSome) then .ok (pad6 (emission (permute choice t)))
  else .error .invalidValue

/-- PACK for the GROUP_ORDER of draw `n` (R129): the empty input first (R120), the output capacity last (R130, R132). -/
def packStage (n : Nat) (s : State) : Except CodecFault State :=
  if s.ibuf = [] then .ok s
  else
    match tallyText s.cfg s.ibuf with
    | .error f => .error f
    | .ok t =>
      let s' := { s with tally := t }
      match emitTally (Config.groupOrder n s'.tally) s'.tally with
      | .error f => .error f
      | .ok b => putBits b s'

end Sys2Proof.Machine
end

