-- ==== Sys2Proof/Machine/Symbols.lean ====
section
/-! DEFINITION. The Printable Transcoder: TENC and TDEC as stages of a command, and the meanings of the two symbol rows
(spec/43_transcoder.md R160 to R167; spec/30_encoding.md R85). -/

namespace Sys2Proof.Machine

/-- The symbols of a bit string, six bits at a time, the leading bit of each group the most significant (R56, R160). -/
def symbolsOfBits : List Bool → List Symbol
  | b0 :: b1 :: b2 :: b3 :: b4 :: b5 :: rest =>
    symbolOf (memRead [b0, b1, b2, b3, b4, b5] 0 6) :: symbolsOfBits rest
  | _ => []

/-- TENC (R160, R161, R167): the length is checked before any bit is read. -/
def tencStage (s : State) : Except CodecFault State :=
  if s.bbuf.length % 6 ≠ 0 then .error .contractViolation
  else putText (symbolsOfBits s.bbuf) s

/-- One symbol row inside TDEC's loop. The decoder of a symbol gives no field and no command. -/
def runSymbol (i : Instr) (s : State) : Except CodecFault State :=
  match i with
  | .symLo g => symbolField g s
  | .symHi g => symbolField g s
  | .v8 _ => .ok s
  | .v16 _ => .ok s
  | .v16x _ => .ok s
  | .c8 _ => .ok s
  | .c16 _ => .ok s
  | .nop => .ok s
  | .pack => .ok s
  | .unpack => .ok s
  | .tenc => .ok s
  | .tdec => .ok s
  | .densify => .ok s
  | .revert => .ok s
  | .clear => .ok s

/-- One symbol of the loop: decode and append, or the fault that names it (R162). -/
def nextSymbol (x : Symbol) (s : State) : Except CodecFault State :=
  match decodeSymbol x with
  | .ok i => runSymbol i s
  | .error e => .error (faultOf e)

/-- TDEC's loop over the symbols in index order; the first offender ends it (R165). -/
def symbolLoop : List Symbol → State → Except CodecFault State
  | [], s => .ok s
  | x :: xs, s => andThen (nextSymbol x s) (symbolLoop xs)

/-- TDEC for command `c` (R162); the capacity test is made before the symbol scan (R167). -/
def tdecStage (c : Command) (s : State) : Except CodecFault State :=
  if s.cfg.bbufCap.toNat < 6 * s.ibuf.length then .error .capacityExceeded
  else symbolLoop s.ibuf { s with idx := 0, engine := .symbols c }

/-- The meaning of SYM_LO: inside TDEC's loop, R162 for a symbol 32 to 63. -/
def execSymLo (g : BitVec 6) (s : State) : Host.Outcome State Fault Refusal :=
  atSymbol s (fun c => settle c s (symbolField g s))

/-- The meaning of SYM_HI: inside TDEC's loop, R162 for a symbol 64 to 95. -/
def execSymHi (g : BitVec 6) (s : State) : Host.Outcome State Fault Refusal :=
  atSymbol s (fun c => settle c s (symbolField g s))

end Sys2Proof.Machine
end

