-- ==== Sys2Proof/Machine/Commands.lean ====
section
/-! DEFINITION. The eight host commands (spec/44_commands.md R180 to R189), UNPACK as a stage (spec/42_unpack.md R146) and JOIN. -/

namespace Sys2Proof.Machine

/-- UNPACK for command `c` (R146): the short-circuit, the truncation, the scan. A string of n bits has at most n runs. -/
def unpackStage (c : Command) (s : State) : Except CodecFault State :=
  if s.bbuf.length < 8 then .ok s else scanLoop s.bbuf.length (beginScan c s)

/-- The decimal digits of a number below 10^n, no leading zero (R189). -/
def digits : Nat → Nat → List Symbol
  | 0, _ => []
  | n + 1, v =>
    if v < 10 then [BitVec.ofNat 21 (48 + v)] else digits n (v / 10) ++ [BitVec.ofNat 21 (48 + v % 10)]

/-- DEC (R189): the shortest decimal numeral; a 16-bit number has at most 5 digits. -/
def decimal (v : Val) : List Symbol := digits 5 v.toNat

/-- JOIN's text (R189, R92). -/
def joinText : List Val → List Symbol
  | [] => []
  | [v] => decimal v
  | v :: w :: rest => decimal v ++ comma :: joinText (w :: rest)

/-- JOIN as a stage (R188, R189). -/
def joinStage (s : State) : Except CodecFault State := putText (joinText s.vbuf) s

/-- `PACK; TENC` (R187). -/
def densifyStage (n : Nat) (s : State) : Except CodecFault State := andThen (packStage n s) tencStage

/-- `TDEC; UNPACK; JOIN` (R188). -/
def revertStage (s : State) : Except CodecFault State :=
  andThen (tdecStage .revert s) (fun s' => andThen (unpackStage .revert s') joinStage)

/-- A draw of a free value makes the next one fresh (log 3). -/
def draw (s : State) : State := { s with draws := s.draws + 1 }

/-- NOP (R181): no effect. -/
def execNop (s : State) : Host.Outcome State Fault Refusal := .next s

/-- PACK (R182). -/
def execPack (s : State) : Host.Outcome State Fault Refusal :=
  whenIdle s (fun s => frame .pack (packStage s.draws) (draw s))

/-- UNPACK (R183). -/
def execUnpack (s : State) : Host.Outcome State Fault Refusal :=
  whenIdle s (frame .unpack (unpackStage .unpack))

/-- TENC (R184). -/
def execTenc (s : State) : Host.Outcome State Fault Refusal :=
  whenIdle s (frame .tenc tencStage)

/-- TDEC (R185). -/
def execTdec (s : State) : Host.Outcome State Fault Refusal :=
  whenIdle s (frame .tdec (tdecStage .tdec))

/-- DENSIFY (R187). -/
def execDensify (s : State) : Host.Outcome State Fault Refusal :=
  whenIdle s (fun s => frame .densify (densifyStage s.draws) (draw s))

/-- REVERT (R188). -/
def execRevert (s : State) : Host.Outcome State Fault Refusal :=
  whenIdle s (frame .revert revertStage)

/-- CLEAR (R186): the reset state. -/
def execClear (s : State) : Host.Outcome State Fault Refusal :=
  whenIdle s resetBlock

end Sys2Proof.Machine
end

