-- ==== Sys2Proof/Machine/Dispatch.lean ====
section
/-! DEFINITION. The meaning of every instruction, one arm each. -/

namespace Sys2Proof.Machine

/-- The meaning of an instruction in a state. -/
def exec (i : Instr) (s : State) : Host.Outcome State Fault Refusal :=
  match i with
  | .v8 v => Sys2Proof.Machine.execV8 v s
  | .v16 v => Sys2Proof.Machine.execV16 v s
  | .v16x v => Sys2Proof.Machine.execV16x v s
  | .c8 c => Sys2Proof.Machine.execC8 c s
  | .c16 c => Sys2Proof.Machine.execC16 c s
  | .symLo g => Sys2Proof.Machine.execSymLo g s
  | .symHi g => Sys2Proof.Machine.execSymHi g s
  | .nop => Sys2Proof.Machine.execNop s
  | .pack => Sys2Proof.Machine.execPack s
  | .unpack => Sys2Proof.Machine.execUnpack s
  | .tenc => Sys2Proof.Machine.execTenc s
  | .tdec => Sys2Proof.Machine.execTdec s
  | .densify => Sys2Proof.Machine.execDensify s
  | .revert => Sys2Proof.Machine.execRevert s
  | .clear => Sys2Proof.Machine.execClear s

end Sys2Proof.Machine
end

