-- ==== Sys2Proof/Machine/Fetch.lean ====
section
/-! DEFINITION. What the machine does next: the host's next action between commands (spec/10_state.md R31, R35; spec/70_reset_and_hazards.md
R231, R233, R238), the next symbol or field inside a command (spec/43_transcoder.md R162; spec/42_unpack.md R143), and where a word
is put so that the next step runs it. -/

namespace Sys2Proof.Machine

/-- What a step is about: an instruction to run in a state, or something that is no instruction. -/
inductive Fetched where
  | run (i : Instr) (s : State)
  | other (o : Host.Outcome State Fault Refusal)

/-- One action of the host, the action already taken off the list. -/
def hostAct (a : HostAction) (s : State) : Fetched :=
  match a with
  | .reset => .other (.next (resetBlock s))
  | .writeReg .cmd v => .run (decodeCommand v) s
  | .writeReg .status v => .other (.next (writeReg .status v s))
  | .writeReg .errcode v => .other (.next (writeReg .errcode v s))
  | .writeReg .errchar v => .other (.next (writeReg .errchar v s))
  | .writeReg .ilen v => .other (.next (writeReg .ilen v s))
  | .writeReg .blen v => .other (.next (writeReg .blen v s))
  | .writeReg .vlen v => .other (.next (writeReg .vlen v s))
  | .writeReg .olen v => .other (.next (writeReg .olen v s))
  | .readReg _ => .other (.next s)
  | .writeIbuf i c => .other (writeIbuf i c s)
  | .writeBbuf i b => .other (writeBbuf i b s)
  | .readBuf b i => .other (if i.toNat < bufLength b s then .next s else .refused .readBeyondLength)

/-- The symbol loop of command `c` is over: TDEC is complete, REVERT goes on to UNPACK (R188). -/
def finishSymbols (c : Command) (s : State) : State :=
  if c = .revert then beginScan c s else complete s

/-- The field scan of command `c` is over: UNPACK is complete, REVERT goes on to JOIN (R188). -/
def finishFields (c : Command) (s : State) : State :=
  if c = .revert then
    match joinStage s with
    | .ok s' => complete s'
    | .error f => takeFault c f s
  else complete s

/-- What the next step does. Between commands the engine takes the host's next action, and stays as it is when there is none. -/
def fetch (s : State) : Fetched :=
  match s.engine with
  | .idle =>
    match s.host with
    | [] => .other (.next s)
    | a :: rest => hostAct a { s with host := rest }
  | .symbols c =>
    match s.ibuf[s.idx.toNat]? with
    | none => .other (.next (finishSymbols c s))
    | some x =>
      match decodeSymbol x with
      | .ok i => .run i s
      | .error e => .other (.next (takeFault c (faultOf e) s))
  | .fields c p =>
    if p = .S ∧ s.ltrunc ≤ s.pos then .other (.next (finishFields c s))
    else
      match fetchField p s with
      | .ok i => .run i s
      | .error e => .other (.next (takeFault c (faultOf e) s))

/-- `s` with a word of the opcode table put where the next step fetches it (log 5): a command as the host's next write to CMD,
a field as the whole of BBUF at the start of a scan of UNPACK in the word's position, a symbol as the whole of IBUF at the start
of TDEC's loop. -/
def placeWord (s : State) (nbits w : Nat) : State :=
  match tableSpace nbits w with
  | .command => { s with engine := .idle, host := .writeReg .cmd (BitVec.ofNat 32 w) :: s.host }
  | .field p =>
    { s with engine := .fields .unpack p, bbuf := binNat nbits w, bstage := [], pos := 0, ltrunc := BitVec.ofNat 32 nbits }
  | .symbol => { s with engine := .symbols .tdec, ibuf := [BitVec.ofNat 21 w], istage := [], idx := 0 }

end Sys2Proof.Machine
end

