-- ==== Sys2Proof/Machine/Step.lean ====
section
/-! DEFINITION. One step of the machine, and the state in which the next step runs a given word. -/

namespace Sys2Proof.Machine

/-- One step: run the fetched instruction, or do what is no instruction. -/
def step (s : State) : Host.Outcome State Fault Refusal :=
  match fetch s with
  | .run i s' => exec i s'
  | .other o => o

/-- `s` with a word of spec/opcode_table.json where the next step fetches its instruction. -/
def State.withFetchWord (s : State) (nbits w : Nat) : State := placeWord s nbits w

end Sys2Proof.Machine
end

