-- ==== Sys2Proof/Safety.lean ====
section
/-! DEFINITION. What holds between steps: the invariants of the state (spec/10_state.md R37 and the ranges of R21 to R34). -/

namespace Sys2Proof.Machine

/-- The class of a fault code (R200, R201). -/
def classOfCode (c : BitVec 4) : BitVec 2 :=
  if c = 0 then 0 else if c = 1 then 1 else if c ≤ 4 then 2 else 3

/-- The transients between commands and inside one (R21, R22, R24, R41). -/
def engineOk (s : State) : Bool :=
  match s.engine with
  | .idle => decide (s.idx = 0) && decide (s.pos = 0) && decide (s.ltrunc = 0) && decide (s.rcnt = 0) && decide (s.rval = 0)
  | .symbols c =>
    (decide (c = .tdec) || decide (c = .revert)) && decide (s.idx.toNat ≤ s.ibuf.length) &&
    decide (s.bbuf.length = 6 * s.idx.toNat) && decide (s.bstage = []) && decide (6 * s.ibuf.length ≤ s.cfg.bbufCap.toNat)
  | .fields c _ =>
    (decide (c = .unpack) || decide (c = .revert)) &&
    decide (s.ltrunc.toNat = s.bbuf.length - s.bbuf.length % 8) &&
    decide (s.pos.toNat % 8 = 0) && decide (s.pos.toNat ≤ s.ltrunc.toNat)

/-- The invariant of the state (R37, with the ranges of R24, R28, R29, R33, R34). -/
structure Inv (s : State) : Prop where
  /-- The buffers fit their capacities; staged entries are in canonical form (R37). -/
  memory : Memory.wf s = true
  /-- STATUS.ERR = 1 exactly when ERRCODE.CODE is not 0 (R37). -/
  err_iff : s.err = true ↔ s.errCode ≠ 0
  /-- STATUS.ERR = 1 implies STATUS.DONE = 1 (R37). -/
  err_done : s.err = true → s.done = true
  /-- CODE is 0, 1, 3, 5, 6 or 7 (R33, R203, R205). -/
  code_legal : s.errCode ≤ 7 ∧ s.errCode ≠ 2 ∧ s.errCode ≠ 4
  /-- CLASS is the class of CODE (R37). -/
  class_of : s.errClass = classOfCode s.errCode
  /-- ERRCHAR is not 0 only if CODE is 1 (R37). -/
  char_code : s.errChar ≠ 0 → s.errCode = 1
  /-- With CODE 1, ERRCHAR is a symbol outside the alphabet (R34, R202). -/
  char_illegal : s.errCode = 1 → s.errChar < 32 ∨ 95 < s.errChar
  /-- Bit 15 of a decoded value is 0 (R24, R28). -/
  values : ∀ v ∈ s.vbuf, v < 0x8000
  /-- Every output symbol is in 32 to 95 (R29). -/
  symbols : ∀ c ∈ s.obuf, 32 ≤ c ∧ c ≤ 95
  /-- The transients. -/
  engine : engineOk s = true
  /-- RVAL's bit 15 is 0 (R24). -/
  rval : s.rval < 0x8000
  /-- TALLY is empty between steps (R25). -/
  tally : s.tally = []

/-! The terms of the claims about the Bit Digit String and about PACK. -/

/-- The bits of a field. -/
def fieldBits (i : Instr) : List Bool :=
  match encode i with
  | .field b => b
  | .symbol _ => []
  | .command _ => []

/-- The number a field carries: a value or a count (R78). -/
def fieldNumber : Instr → Nat
  | .v8 v => v.toNat
  | .v16 v => v.toNat
  | .v16x v => v.toNat
  | .c8 c => c.toNat
  | .c16 c => c.toNat
  | .symLo _ => 0
  | .symHi _ => 0
  | .nop => 0
  | .pack => 0
  | .unpack => 0
  | .tenc => 0
  | .tdec => 0
  | .densify => 0
  | .revert => 0
  | .clear => 0

/-- A value field: V8, V16 or V16X (R77). -/
def isValueField : Instr → Bool
  | .v8 _ => true
  | .v16 _ => true
  | .v16x _ => true
  | .c8 _ => false
  | .c16 _ => false
  | .symLo _ => false
  | .symHi _ => false
  | .nop => false
  | .pack => false
  | .unpack => false
  | .tenc => false
  | .tdec => false
  | .densify => false
  | .revert => false
  | .clear => false

/-- A count field: C8 or C16 (R77). -/
def isCountField : Instr → Bool
  | .v8 _ => false
  | .v16 _ => false
  | .v16x _ => false
  | .c8 _ => true
  | .c16 _ => true
  | .symLo _ => false
  | .symHi _ => false
  | .nop => false
  | .pack => false
  | .unpack => false
  | .tenc => false
  | .tdec => false
  | .densify => false
  | .revert => false
  | .clear => false

/-- A run of the stream grammar: `value | count value` (R77). -/
structure Run where
  /-- The count field, if there is one. -/
  count : Option Instr
  /-- The value field. -/
  value : Instr
deriving DecidableEq, Repr

/-- The run is one of the grammar: well-formed fields, V16X only directly after a count (R77). -/
def Run.legal (r : Run) : Bool :=
  isValueField r.value && r.value.wellFormed &&
  match r.count with
  | none => r.value.recognisedAt .S
  | some i => isCountField i && i.wellFormed

/-- The bits of a run. -/
def Run.bits (r : Run) : List Bool :=
  match r.count with
  | none => fieldBits r.value
  | some i => fieldBits i ++ fieldBits r.value

/-- What a run appends to VBUF: its value, once or count times (R83, R103). -/
def Run.values (r : Run) : List Val :=
  match r.count with
  | none => [BitVec.ofNat 16 (fieldNumber r.value)]
  | some i => List.replicate (fieldNumber i) (BitVec.ofNat 16 (fieldNumber r.value))

/-- The bits of a stream (R77). -/
def streamBits (rs : List Run) : List Bool := (rs.map Run.bits).flatten

/-- The values of a stream, in scan order (R145). -/
def streamValues (rs : List Run) : List Val := (rs.map Run.values).flatten

/-- The keys of PACK's tokens, in input order; the empty input has none (R120, R121, R123). -/
def textKeys (cfg : Config) (text : List Symbol) : List Key :=
  if text = [] then [] else (split text).map (trim cfg.wsSet)

/-- The number of a valid key (R126). -/
def keyValue (k : Key) : Val := (parseKey k).getD 0

/-- PACK's checks on the text pass: the entry bound and every key (R122, R126). -/
def textValid (cfg : Config) (text : List Symbol) : Prop :=
  (textKeys cfg text).length ≤ cfg.maxEntries.toNat ∧ ∀ k ∈ textKeys cfg text, (parseKey k).isSome = true

/-- The fragments of the keys in an order, each with its tally among all keys (R127). -/
def fragments (keys order : List Key) : List Bool :=
  (order.map (fun k => encRun (BitVec.ofNat 13 (keys.count k)) (keyValue k))).flatten

/-- The values UNPACK gives for them: each key's value repeated its tally (R152). -/
def groupedValues (keys order : List Key) : List Val :=
  (order.map (fun k => List.replicate (keys.count k) (keyValue k))).flatten

/-- A symbol of the alphabet (R86). -/
def inAlphabet (c : Symbol) : Prop := 32 ≤ c.toNat ∧ c.toNat ≤ 95

/-- The instruction of a command. -/
def commandInstr : Command → Instr
  | .nop => .nop
  | .pack => .pack
  | .unpack => .unpack
  | .tenc => .tenc
  | .tdec => .tdec
  | .densify => .densify
  | .revert => .revert
  | .clear => .clear

/-- The commands that run in the frame of R180: all but NOP and CLEAR. -/
def framed (c : Command) : Prop := c ≠ .nop ∧ c ≠ .clear

/-- The buffer a command takes its input from (R192). What DENSIFY and REVERT go on to read they have written themselves. -/
def reads : Command → List Buffer
  | .nop => []
  | .pack => [.ibuf]
  | .unpack => [.bbuf]
  | .tenc => [.bbuf]
  | .tdec => [.ibuf]
  | .densify => [.ibuf]
  | .revert => [.ibuf]
  | .clear => []

/-- A string that ends inside a run: a proper prefix, not empty, of the bits of some run of the grammar (R77, R147). -/
def endsInsideARun (cut : List Bool) : Prop :=
  cut ≠ [] ∧ ∃ r : Run, r.legal = true ∧ cut <+: r.bits ∧ cut ≠ r.bits

/-- The machine runs on: the step stops with neither a fault nor a refusal. -/
def Safe (s : State) : Prop := ∃ t, step s = .next t

end Sys2Proof.Machine
end

