-- ==== Sys2Proof/Certificates/Slice0/Obligations.lean ====
section
/-! DEFINITION. The statements for the provers. Each docstring names the rules of spec/ it formalises. -/

open Sys2Proof Sys2Proof.Machine

/-! ## Encodings -/

/-- For every well-formed instruction, in every position that recognises it, the decoder reads the instruction back from its
encoding (R70 to R76, R85, R88). -/
def Obligations.DecodeOfEncodeIsTheInstruction : Prop :=
  ∀ (i : Instr) (p : Position), i.wellFormed = true → i.recognisedAt p = true → decode p (encode i) = .ok i

/-- A field the decoder reads is well-formed, recognised in that position, and its encoding is exactly the bits at the front
of what was read: no bit of a field has a second reading (R70, R76, R78). -/
def Obligations.DecodedFieldEncodesToTheBitsRead : Prop :=
  ∀ (p : Position) (b : List Bool) (i : Instr), decodeField p b = .ok i →
    i.wellFormed = true ∧ i.recognisedAt p = true ∧ i.width ≤ b.length ∧ encode i = .field (b.take i.width)

/-- A symbol in 32 to 95 decodes to a well-formed row whose encoding is the symbol; every other 21-bit number is an illegal
symbol (R85, R86, R164). -/
def Obligations.SymbolDecodesExactlyInsideTheAlphabet : Prop :=
  ∀ c : Symbol,
    (inAlphabet c → ∃ i, decodeSymbol c = .ok i ∧ i.wellFormed = true ∧ encode i = .symbol c ∧ (c.toNat < 64 ↔ ∃ g, i = .symLo g)) ∧
    (¬ inAlphabet c → decodeSymbol c = .error (.illegalSymbol c))

/-- R84. With `rem` bits left, a multiple of 8 and at least 8 at a run start, a field fails to decode exactly in the rows of
R84's table, always as an end of input, and 16 bits always decode; inside a scan the failure takes UnexpectedEndOfInput. -/
def Obligations.FieldFailsExactlyAtTheEndOfInput : Prop :=
  (∀ (p : Position) (b : List Bool), b.length % 8 = 0 → (p = .S → 8 ≤ b.length) →
    (decodeField p b = .error .endOfInput ↔
      (p = .V ∧ b = []) ∨
      (p = .S ∧ memRead b 0 3 = 7#3 ∧ b.length = 8) ∨
      (memRead b 0 1 = 1#1 ∧ (p = .V ∨ memRead b 0 2 = 2#2) ∧ b.length = 8)) ∧
    (∀ e, decodeField p b = .error e → e = .endOfInput) ∧
    (16 ≤ b.length → ∃ i, decodeField p b = .ok i)) ∧
  (∀ (s : State) (c : Command) (p : Position), s.engine = .fields c p → (p = .S → s.pos < s.ltrunc) →
    fetchField p s = .error .endOfInput → step s = .next (takeFault c .unexpectedEndOfInput s))

/-- R88, R89. All eight opcodes are defined, and a write to CMD uses CMD[2:0] and ignores the rest. -/
def Obligations.CommandOpcodesUseTheLowThreeBits : Prop :=
  ∀ v : BitVec 32,
    (v.toNat % 8 = 0 → decodeCommand v = .nop) ∧ (v.toNat % 8 = 1 → decodeCommand v = .pack) ∧
    (v.toNat % 8 = 2 → decodeCommand v = .unpack) ∧ (v.toNat % 8 = 3 → decodeCommand v = .tenc) ∧
    (v.toNat % 8 = 4 → decodeCommand v = .tdec) ∧ (v.toNat % 8 = 5 → decodeCommand v = .densify) ∧
    (v.toNat % 8 = 6 → decodeCommand v = .revert) ∧ (v.toNat % 8 = 7 → decodeCommand v = .clear)

/-- A few words written out from the spec's encodings: `00101010` is V8(42), `1000000100101100` is V16(300), `11000011` is
C8(3) at a run start, `1110000000100000` is C16(32), `1111111100000000` is V16X(32512) after a count, symbol 42 is SYM_LO(10),
symbol 80 is SYM_HI(48) (R104 to R108, R163). -/
def Obligations.WordsOfTheSpecDecode : Prop :=
  decodeField .S [false, false, true, false, true, false, true, false] = .ok (.v8 42) ∧
  decodeField .S [true, false, false, false, false, false, false, true, false, false, true, false, true, true, false, false] = .ok (.v16 300) ∧
  decodeField .S [true, true, false, false, false, false, true, true] = .ok (.c8 3) ∧
  decodeField .S [true, true, true, false, false, false, false, false, false, false, true, false, false, false, false, false] = .ok (.c16 32) ∧
  decodeField .V [true, true, true, true, true, true, true, true, false, false, false, false, false, false, false, false] = .ok (.v16x 32512) ∧
  decodeSymbol 42 = .ok (.symLo 10) ∧ decodeSymbol 80 = .ok (.symHi 48)

/-! ## The five field kinds and the two symbol rows, executed -/

/-- V8 inside a scan, in either position: RVAL, POS, RCNT (1 at a run start), the appends, and nothing else; or, where the
appends do not fit, the fault CapacityExceeded (R103, R104). -/
def Obligations.V8ExecutesInsideAScan : Prop :=
  ∀ (s : State) (c : Command) (p : Position) (v : BitVec 7) (n : Count), s.engine = .fields c p →
    n = (if p = .S then 1 else s.rcnt) →
    ((n = 0 ∨ s.vbuf.length + n.toNat ≤ s.cfg.vbufCap.toNat) →
      exec (.v8 v) s = .next { s with
        rcnt := n, rval := v.setWidth 16, pos := s.pos + 8, vbuf := s.vbuf ++ List.replicate n.toNat (v.setWidth 16)
        engine := .fields c .S }) ∧
    (¬ (n = 0 ∨ s.vbuf.length + n.toNat ≤ s.cfg.vbufCap.toNat) → exec (.v8 v) s = .next (takeFault c .capacityExceeded s))

/-- V16 inside a scan, in either position, with 16 bits left: as V8, with a 15-bit payload and POS + 16; with fewer bits left,
UnexpectedEndOfInput (R103, R105). -/
def Obligations.V16ExecutesInsideAScan : Prop :=
  ∀ (s : State) (c : Command) (p : Position) (v : BitVec 15) (n : Count), s.engine = .fields c p →
    n = (if p = .S then 1 else s.rcnt) →
    (s.pos.toNat + 16 ≤ s.ltrunc.toNat → (n = 0 ∨ s.vbuf.length + n.toNat ≤ s.cfg.vbufCap.toNat) →
      exec (.v16 v) s = .next { s with
        rcnt := n, rval := v.setWidth 16, pos := s.pos + 16, vbuf := s.vbuf ++ List.replicate n.toNat (v.setWidth 16)
        engine := .fields c .S }) ∧
    (s.pos.toNat + 16 ≤ s.ltrunc.toNat → ¬ (n = 0 ∨ s.vbuf.length + n.toNat ≤ s.cfg.vbufCap.toNat) →
      exec (.v16 v) s = .next (takeFault c .capacityExceeded s)) ∧
    (s.ltrunc.toNat < s.pos.toNat + 16 → exec (.v16 v) s = .next (takeFault c .unexpectedEndOfInput s))

/-- V16X directly after a count field: the semantics of V16 (R103, R106). -/
def Obligations.V16xExecutesAfterACount : Prop :=
  ∀ (s : State) (c : Command) (v : BitVec 15), s.engine = .fields c .V →
    (s.pos.toNat + 16 ≤ s.ltrunc.toNat → (s.rcnt = 0 ∨ s.vbuf.length + s.rcnt.toNat ≤ s.cfg.vbufCap.toNat) →
      exec (.v16x v) s = .next { s with
        rval := v.setWidth 16, pos := s.pos + 16, vbuf := s.vbuf ++ List.replicate s.rcnt.toNat (v.setWidth 16)
        engine := .fields c .S }) ∧
    (s.pos.toNat + 16 ≤ s.ltrunc.toNat → ¬ (s.rcnt = 0 ∨ s.vbuf.length + s.rcnt.toNat ≤ s.cfg.vbufCap.toNat) →
      exec (.v16x v) s = .next (takeFault c .capacityExceeded s)) ∧
    (s.ltrunc.toNat < s.pos.toNat + 16 → exec (.v16x v) s = .next (takeFault c .unexpectedEndOfInput s))

/-- C8 and C16 at a run start: RCNT and POS are written and the decoder is in position V; C16 with fewer than 16 bits left
takes UnexpectedEndOfInput (R107, R108). -/
def Obligations.CountFieldsExecuteAtARunStart : Prop :=
  ∀ (s : State) (c : Command), s.engine = .fields c .S →
    (∀ n : BitVec 6, exec (.c8 n) s = .next { s with rcnt := n.setWidth 13, pos := s.pos + 8, engine := .fields c .V }) ∧
    (∀ n : BitVec 13, s.pos.toNat + 16 ≤ s.ltrunc.toNat →
      exec (.c16 n) s = .next { s with rcnt := n, pos := s.pos + 16, engine := .fields c .V }) ∧
    (∀ n : BitVec 13, s.ltrunc.toNat < s.pos.toNat + 16 → exec (.c16 n) s = .next (takeFault c .unexpectedEndOfInput s))

/-- SYM_LO and SYM_HI inside TDEC's loop: the group's six bits are appended to BBUF and the loop index moves on; where BBUF is
full, CapacityExceeded (R53, R162). -/
def Obligations.SymbolRowsExecuteInsideTheLoop : Prop :=
  ∀ (s : State) (c : Command) (g : BitVec 6), s.engine = .symbols c →
    (s.bbuf.length + 6 ≤ s.cfg.bbufCap.toNat →
      exec (.symLo g) s = .next { s with bbuf := s.bbuf ++ bin g, idx := s.idx + 1 } ∧
      exec (.symHi g) s = .next { s with bbuf := s.bbuf ++ bin g, idx := s.idx + 1 }) ∧
    (s.cfg.bbufCap.toNat < s.bbuf.length + 6 →
      exec (.symLo g) s = .next (takeFault c .capacityExceeded s) ∧
      exec (.symHi g) s = .next (takeFault c .capacityExceeded s))

/-- A field or a symbol executed where the engine does not hold the position that recognises it is refused. The model's choice,
log 14; the spec's decoder never produces it (R76). -/
def Obligations.FieldOutOfItsPositionIsRefused : Prop :=
  (∀ (s : State) (i : Instr), (isValueField i = true ∨ isCountField i = true) →
    (∀ c p, s.engine = .fields c p → i.recognisedAt p = false) → exec i s = .refused .outOfPosition) ∧
  (∀ (s : State) (g : BitVec 6), (∀ c, s.engine ≠ .symbols c) →
    exec (.symLo g) s = .refused .outOfPosition ∧ exec (.symHi g) s = .refused .outOfPosition)

/-- Frame of the fields and symbols, where the instruction took no fault: every entry of every buffer that could be read before
reads the same after; a value field stores only at VBUF's end, a symbol only at BBUF's end, a count field nowhere. Of the
transients a value field writes RCNT, RVAL, POS, a count field RCNT, POS, a symbol the loop index. Everything else is unchanged
(R53, R104 to R108, R162). -/
def Obligations.FieldsAndSymbolsOnlyAppend : Prop :=
  ∀ (s t : State) (i : Instr), (isValueField i = true ∨ isCountField i = true ∨ ∃ g, i = .symLo g ∨ i = .symHi g) →
    exec i s = .next t → t.engine ≠ .idle →
    (∀ b k, k < bufLength b s → readBuf b k t = readBuf b k s) ∧
    (isValueField i = false → t.vbuf = s.vbuf ∧ t.rval = s.rval) ∧
    ((isValueField i = true ∨ isCountField i = true) → t.bbuf = s.bbuf ∧ t.idx = s.idx) ∧
    ((∃ g, i = .symLo g ∨ i = .symHi g) → t.pos = s.pos ∧ t.rcnt = s.rcnt ∧ t.engine = s.engine) ∧
    t.ltrunc = s.ltrunc ∧ t.ibuf = s.ibuf ∧ t.obuf = s.obuf ∧ t.cfg = s.cfg ∧ t.istage = s.istage ∧ t.bstage = s.bstage ∧
    t.done = s.done ∧ t.err = s.err ∧ t.errCode = s.errCode ∧ t.errClass = s.errClass ∧ t.errChar = s.errChar ∧
    t.tally = s.tally ∧ t.draws = s.draws ∧ t.host = s.host

/-! ## The five field kinds as the scan reads them from BBUF -/

/-- R104. In position S or V, a field whose leading bit is 0: RVAL is the 8 bits at POS as a number and POS moves by 8. -/
def Obligations.ScanReadsV8 : Prop :=
  ∀ (s : State) (c : Command) (p : Position) (n : Count), s.engine = .fields c p →
    s.pos.toNat + 8 ≤ s.ltrunc.toNat → s.ltrunc.toNat ≤ s.bbuf.length → memRead s.bbuf s.pos.toNat 1 = 0#1 →
    n = (if p = .S then 1 else s.rcnt) → (n = 0 ∨ s.vbuf.length + n.toNat ≤ s.cfg.vbufCap.toNat) →
    step s = .next { s with
      rcnt := n, rval := (memRead s.bbuf s.pos.toNat 8).setWidth 16, pos := s.pos + 8
      vbuf := s.vbuf ++ List.replicate n.toNat ((memRead s.bbuf s.pos.toNat 8).setWidth 16), engine := .fields c .S }

/-- R105. In position S or V, a field whose two leading bits are `10`: with 16 bits left RVAL is the 16 bits at POS XOR 0x8000
and POS moves by 16; with fewer, UnexpectedEndOfInput. -/
def Obligations.ScanReadsV16 : Prop :=
  ∀ (s : State) (c : Command) (p : Position) (n : Count), s.engine = .fields c p →
    s.pos.toNat + 2 ≤ s.ltrunc.toNat → s.ltrunc.toNat ≤ s.bbuf.length → memRead s.bbuf s.pos.toNat 2 = 2#2 →
    n = (if p = .S then 1 else s.rcnt) →
    (s.pos.toNat + 16 ≤ s.ltrunc.toNat → (n = 0 ∨ s.vbuf.length + n.toNat ≤ s.cfg.vbufCap.toNat) →
      step s = .next { s with
        rcnt := n, rval := memRead s.bbuf s.pos.toNat 16 ^^^ 0x8000#16, pos := s.pos + 16
        vbuf := s.vbuf ++ List.replicate n.toNat (memRead s.bbuf s.pos.toNat 16 ^^^ 0x8000#16), engine := .fields c .S }) ∧
    (s.ltrunc.toNat < s.pos.toNat + 16 → step s = .next (takeFault c .unexpectedEndOfInput s))

/-- R106. In position V only, a field whose two leading bits are `11`: the semantics of V16. -/
def Obligations.ScanReadsV16xAfterACount : Prop :=
  ∀ (s : State) (c : Command), s.engine = .fields c .V →
    s.pos.toNat + 2 ≤ s.ltrunc.toNat → s.ltrunc.toNat ≤ s.bbuf.length → memRead s.bbuf s.pos.toNat 2 = 3#2 →
    (s.pos.toNat + 16 ≤ s.ltrunc.toNat → (s.rcnt = 0 ∨ s.vbuf.length + s.rcnt.toNat ≤ s.cfg.vbufCap.toNat) →
      step s = .next { s with
        rval := memRead s.bbuf s.pos.toNat 16 ^^^ 0x8000#16, pos := s.pos + 16
        vbuf := s.vbuf ++ List.replicate s.rcnt.toNat (memRead s.bbuf s.pos.toNat 16 ^^^ 0x8000#16), engine := .fields c .S }) ∧
    (s.ltrunc.toNat < s.pos.toNat + 16 → step s = .next (takeFault c .unexpectedEndOfInput s))

/-- R107. In position S, a field whose leading bits are `110`: RCNT is the 8 bits at POS XOR 0xC0, POS moves by 8, and the
decoder is in position V. -/
def Obligations.ScanReadsC8 : Prop :=
  ∀ (s : State) (c : Command), s.engine = .fields c .S →
    s.pos.toNat + 8 ≤ s.ltrunc.toNat → s.ltrunc.toNat ≤ s.bbuf.length →
    memRead s.bbuf s.pos.toNat 2 = 3#2 → memRead s.bbuf (s.pos.toNat + 2) 1 = 0#1 →
    step s = .next { s with
      rcnt := (memRead s.bbuf s.pos.toNat 8 ^^^ 0xC0#8).setWidth 13, pos := s.pos + 8, engine := .fields c .V }

/-- R108. In position S, a field whose leading bits are `111`: with 16 bits left RCNT is the 16 bits at POS XOR 0xE000, POS
moves by 16, and the decoder is in position V; with fewer, UnexpectedEndOfInput. -/
def Obligations.ScanReadsC16 : Prop :=
  ∀ (s : State) (c : Command), s.engine = .fields c .S →
    s.pos.toNat + 3 ≤ s.ltrunc.toNat → s.ltrunc.toNat ≤ s.bbuf.length →
    memRead s.bbuf s.pos.toNat 2 = 3#2 → memRead s.bbuf (s.pos.toNat + 2) 1 = 1#1 →
    (s.pos.toNat + 16 ≤ s.ltrunc.toNat →
      step s = .next { s with
        rcnt := (memRead s.bbuf s.pos.toNat 16 ^^^ 0xE000#16).setWidth 13, pos := s.pos + 16, engine := .fields c .V }) ∧
    (s.ltrunc.toNat < s.pos.toNat + 16 → step s = .next (takeFault c .unexpectedEndOfInput s))

/-- R109. Where BBUF holds ENC_RUN(n, v) at POS, DEC_RUN leaves RCNT = n and RVAL = v, moves POS by the run's length and appends
v exactly n times, or, where they do not fit, raises CapacityExceeded and never UnexpectedEndOfInput. -/
def Obligations.DecRunOfEncRun : Prop :=
  ∀ (s : State) (c : Command) (n : Count) (v : Val), s.engine = .fields c .S → s.pos.toNat % 8 = 0 →
    1 ≤ n → 1 ≤ v → v ≤ 300 → s.ltrunc.toNat ≤ s.bbuf.length →
    s.pos.toNat + (encRun n v).length ≤ s.ltrunc.toNat →
    (s.bbuf.drop s.pos.toNat).take (encRun n v).length = encRun n v →
    (s.vbuf.length + n.toNat ≤ s.cfg.vbufCap.toNat →
      decRun s = .ok { s with
        rcnt := n, rval := v, pos := s.pos + BitVec.ofNat 32 (encRun n v).length
        vbuf := s.vbuf ++ List.replicate n.toNat v }) ∧
    (s.cfg.vbufCap.toNat < s.vbuf.length + n.toNat → decRun s = .error .capacityExceeded)

/-! ## UNPACK -/

/-- R141. A Bit Digit String shorter than 8 bits unpacks to the empty list, without fault, whatever its bits. -/
def Obligations.UnpackOfAShortStringIsEmpty : Prop :=
  ∀ s : State, s.engine = .idle → s.bbuf.length < 8 → exec .unpack s = .next (complete { s with vbuf := [] })

/-- Every stream of the grammar of R77 with fewer than 8 bits after it, canonical or not, unpacks to its runs' values in scan
order, or takes CapacityExceeded where they do not fit VBUF (R77, R83, R142 to R149). -/
def Obligations.UnpackDecodesEveryStreamOfTheGrammar : Prop :=
  ∀ (s : State) (rs : List Run) (tail : List Bool), s.engine = .idle → s.bbuf.length ≤ s.cfg.bbufCap.toNat →
    (∀ r ∈ rs, r.legal = true) → tail.length < 8 → s.bbuf = streamBits rs ++ tail →
    ((streamValues rs).length ≤ s.cfg.vbufCap.toNat →
      exec .unpack s = .next (complete { s with vbuf := streamValues rs })) ∧
    (s.cfg.vbufCap.toNat < (streamValues rs).length →
      exec .unpack s = .next (takeFault .unpack .capacityExceeded s))

/-- What UNPACK gives on every bit string. The string is a stream of the grammar, then possibly a part of one more run, then
fewer than 8 bits. Where no run is cut, UNPACK completes with the runs' values; where one is, it takes UnexpectedEndOfInput; and
in both cases, where the values of the complete runs do not fit VBUF, it takes CapacityExceeded, which comes first in scan order
(R77, R84, R142 to R149, R204, R209, R211 (c)). -/
def Obligations.UnpackOutcomeOfEveryBitString : Prop :=
  ∀ s : State, s.engine = .idle → s.bbuf.length ≤ s.cfg.bbufCap.toNat →
    (∃ (rs : List Run) (cut tail : List Bool), (∀ r ∈ rs, r.legal = true) ∧ (cut = [] ∨ endsInsideARun cut) ∧
      cut.length % 8 = 0 ∧ tail.length < 8 ∧ s.bbuf = streamBits rs ++ cut ++ tail) ∧
    ∀ (rs : List Run) (cut tail : List Bool), (∀ r ∈ rs, r.legal = true) → cut.length % 8 = 0 → tail.length < 8 →
      s.bbuf = streamBits rs ++ cut ++ tail →
      (cut = [] → (streamValues rs).length ≤ s.cfg.vbufCap.toNat →
        exec .unpack s = .next (complete { s with vbuf := streamValues rs })) ∧
      (endsInsideARun cut → (streamValues rs).length ≤ s.cfg.vbufCap.toNat →
        exec .unpack s = .next (takeFault .unpack .unexpectedEndOfInput s)) ∧
      ((cut = [] ∨ endsInsideARun cut) → s.cfg.vbufCap.toNat < (streamValues rs).length →
        exec .unpack s = .next (takeFault .unpack .capacityExceeded s))

/-- Running the fields one at a time by `step`, from the start of the scan, reaches exactly the state that the one atomic
command UNPACK gives (R66, R143, R180). That the inside of a command can be stepped at all is the model's choice, log 6. -/
def Obligations.UnpackIsItsFieldsOneByOne : Prop :=
  ∀ s : State, s.engine = .idle → s.bbuf.length ≤ s.cfg.bbufCap.toNat →
    ∃ n, Sys2Proof.core.run n (beginScan .unpack (clearOutputs .unpack s)) = exec .unpack s

/-! ## The transcoder -/

/-- R160, R161. TENC writes, for every group g, the symbol 32 + MemRead(6g, 6); a length that is not a multiple of 6 takes
ContractViolation; a result longer than OBUF takes CapacityExceeded. -/
def Obligations.TencWritesOneSymbolPerGroup : Prop :=
  ∀ s : State, s.engine = .idle →
    (s.bbuf.length % 6 = 0 → s.bbuf.length / 6 ≤ s.cfg.obufCap.toNat →
      ∃ text : List Symbol, exec .tenc s = .next (complete { s with obuf := text }) ∧ text.length = s.bbuf.length / 6 ∧
        ∀ g, g < s.bbuf.length / 6 → text[g]? = some ((memRead s.bbuf (6 * g) 6).setWidth 21 + 32)) ∧
    (s.bbuf.length % 6 = 0 → s.cfg.obufCap.toNat < s.bbuf.length / 6 →
      exec .tenc s = .next (takeFault .tenc .capacityExceeded s)) ∧
    (s.bbuf.length % 6 ≠ 0 → exec .tenc s = .next (takeFault .tenc .contractViolation s))

/-- R162, R165, R167. TDEC writes the six bits of every symbol in index order; the capacity is tested before the scan; the
first symbol outside 32 to 95 ends it and is the one recorded. -/
def Obligations.TdecWritesSixBitsPerSymbol : Prop :=
  ∀ s : State, s.engine = .idle →
    (6 * s.ibuf.length ≤ s.cfg.bbufCap.toNat → (∀ c ∈ s.ibuf, inAlphabet c) →
      exec .tdec s = .next (complete { s with
        bbuf := (s.ibuf.map (fun c => binNat 6 (c.toNat - 32))).flatten, bstage := [] })) ∧
    (∀ (before after : List Symbol) (c : Symbol), 6 * s.ibuf.length ≤ s.cfg.bbufCap.toNat →
      s.ibuf = before ++ c :: after → (∀ x ∈ before, inAlphabet x) → ¬ inAlphabet c →
      exec .tdec s = .next (takeFault .tdec (.invalidBase64Character c) s)) ∧
    (s.cfg.bbufCap.toNat < 6 * s.ibuf.length → exec .tdec s = .next (takeFault .tdec .capacityExceeded s))

/-- TENC and TDEC are mutual inverses: any bit string whose length is a multiple of 6 comes back, and so does any string over the
alphabet (R166). -/
def Obligations.TranscoderIsABijection : Prop :=
  (∀ s : State, s.engine = .idle → s.bbuf.length % 6 = 0 → s.bbuf.length / 6 ≤ s.cfg.obufCap.toNat →
    s.bbuf.length ≤ s.cfg.bbufCap.toNat →
    ∃ t u, exec .tenc s = .next t ∧ t.obuf.length = s.bbuf.length / 6 ∧ (∀ c ∈ t.obuf, inAlphabet c) ∧
      exec .tdec { t with ibuf := t.obuf } = .next u ∧ u.err = false ∧ u.bbuf = s.bbuf) ∧
  (∀ s : State, s.engine = .idle → (∀ c ∈ s.ibuf, inAlphabet c) → 6 * s.ibuf.length ≤ s.cfg.bbufCap.toNat →
    s.ibuf.length ≤ s.cfg.obufCap.toNat →
    ∃ t u, exec .tdec s = .next t ∧ t.bbuf.length = 6 * s.ibuf.length ∧
      exec .tenc t = .next u ∧ u.err = false ∧ u.obuf = s.ibuf)

/-! ## PACK -/

/-- R121. k commas give k + 1 tokens; no token holds a comma; joined by commas the tokens are the input. -/
def Obligations.SplitCutsAtEveryComma : Prop :=
  ∀ text : List Symbol,
    (split text).length = text.count 44#21 + 1 ∧ (∀ t ∈ split text, 44#21 ∉ t) ∧ List.intercalate [44#21] (split text) = text

/-- R123. TRIM removes the longest prefix and the longest suffix of symbols in WS_SET, nothing inside; WS_SET is the six ASCII
whitespace characters; whitespace that is kept inside a key makes it invalid. -/
def Obligations.TrimRemovesTheOuterWhitespace : Prop :=
  Config.standard.wsSet = [0x09, 0x0A, 0x0B, 0x0C, 0x0D, 0x20] ∧
  ∀ (ws t : List Symbol), ∃ before after : List Symbol,
    t = before ++ trim ws t ++ after ∧ (∀ x ∈ before, x ∈ ws) ∧ (∀ x ∈ after, x ∈ ws) ∧
    (∀ x, (trim ws t).head? = some x → x ∉ ws) ∧ (∀ x, (trim ws t).getLast? = some x → x ∉ ws) ∧
    ((∃ x ∈ trim ws t, x ∈ Config.standard.wsSet) → parseKey (trim ws t) = none)

/-- R124. The tally holds every distinct key once, with the number of tokens that have it; the counts add up to the number of
tokens, and each is at least 1 and at most MAX_ENTRIES. -/
def Obligations.TallyCountsEveryDistinctKey : Prop :=
  ∀ (cfg : Config) (keys : List Key), keys.length ≤ cfg.maxEntries.toNat →
    ((tallyOf keys).map Prod.fst).Nodup ∧
    (∀ k n, (k, n) ∈ tallyOf keys ↔ k ∈ keys ∧ n.toNat = keys.count k) ∧
    ((tallyOf keys).map (fun e => e.2.toNat)).sum = keys.length ∧
    (∀ e ∈ tallyOf keys, 1 ≤ e.2.toNat ∧ e.2.toNat ≤ cfg.maxEntries.toNat)

/-- R126. A key is valid exactly when it is one or more digits 48 to 57 with decimal value 1 to 300, and its number is that
value. -/
def Obligations.ParseAcceptsExactlyTheNumbersOneToThreeHundred : Prop :=
  ∀ (k : Key) (v : Val),
    parseKey k = some v ↔
      k ≠ [] ∧ (∀ x ∈ k, 48 ≤ x.toNat ∧ x.toNat ≤ 57) ∧
      v.toNat = Nat.ofDigits 10 (k.reverse.map (fun x => x.toNat - 48)) ∧ 1 ≤ v.toNat ∧ v.toNat ≤ 300

/-- R100, R101, R102. The encoder primitives on their domains, by number. -/
def Obligations.EncodersUseTheShortestFields : Prop :=
  (∀ v : Val, 1 ≤ v.toNat → v.toNat ≤ 300 →
    encValue v = if v.toNat ≤ 127 then binNat 8 v.toNat else binNat 16 (0x8000 + v.toNat)) ∧
  (∀ c : Count, 2 ≤ c.toNat →
    encCount c = if c.toNat ≤ 31 then binNat 8 (0xC0 + c.toNat) else binNat 16 (0xE000 + c.toNat)) ∧
  (∀ (c : Count) (v : Val), 1 ≤ c.toNat → 1 ≤ v.toNat → v.toNat ≤ 300 →
    encRun c v = if 1 < c.toNat then encCount c ++ encValue v else encValue v)

/-- R128. Zero bits are appended until the length is a multiple of 6; for a concatenation of fields they are 0, 2 or 4. -/
def Obligations.PadMakesAMultipleOfSix : Prop :=
  ∀ b : List Bool, ∃ p : Nat,
    pad6 b = b ++ List.replicate p false ∧ p = (6 - b.length % 6) % 6 ∧ (pad6 b).length % 6 = 0 ∧
    (b.length % 8 = 0 → p = 0 ∨ p = 2 ∨ p = 4)

/-- GROUP_ORDER is any permutation: what `permute` gives is a permutation whatever the choices, and every permutation comes from
some choices (R12, R125). -/
def Obligations.GroupOrderAdmitsExactlyThePermutations : Prop :=
  (∀ (choice : Nat → Nat) (t : Tally), (permute choice t).Perm t) ∧
  (∀ t order : Tally, order.Perm t → ∃ choice : Nat → Nat, permute choice t = order)

/-- PACK of a valid text: one fragment for each distinct key with its tally, in some order of the distinct keys, padded; the
empty text gives the empty string (R120, R125, R127, R128, R129, R182). -/
def Obligations.PackEmitsOneRunPerDistinctKey : Prop :=
  ∀ s : State, s.engine = .idle → textValid s.cfg s.ibuf →
    (pad6 (fragments (textKeys s.cfg s.ibuf) (textKeys s.cfg s.ibuf).dedup)).length ≤ s.cfg.bbufCap.toNat →
    ∃ order : List Key, order.Perm (textKeys s.cfg s.ibuf).dedup ∧
      exec .pack s = .next (complete { s with
        bbuf := pad6 (fragments (textKeys s.cfg s.ibuf) order), bstage := [], draws := s.draws + 1 })

/-- R132. PACK's checks in order: the token count, then the validity of every key, then the output's length; the first that
fails is reported, for every GROUP_ORDER. -/
def Obligations.PackReportsTheFirstFailingCheck : Prop :=
  ∀ s : State, s.engine = .idle → s.ibuf ≠ [] →
    (s.cfg.maxEntries.toNat < (split s.ibuf).length →
      exec .pack s = .next (takeFault .pack .capacityExceeded (draw s))) ∧
    ((split s.ibuf).length ≤ s.cfg.maxEntries.toNat → (∃ k ∈ textKeys s.cfg s.ibuf, parseKey k = none) →
      exec .pack s = .next (takeFault .pack .invalidValue (draw s))) ∧
    (textValid s.cfg s.ibuf →
      s.cfg.bbufCap.toNat < (pad6 (fragments (textKeys s.cfg s.ibuf) (textKeys s.cfg s.ibuf).dedup)).length →
      exec .pack s = .next (takeFault .pack .capacityExceeded (draw s)))

/-- Every successful PACK: the length is a multiple of 6, at most 16 bits a token and the padding, and the same for every
GROUP_ORDER (R131). -/
def Obligations.PackOutputIsAlignedAndBounded : Prop :=
  ∀ s t : State, s.engine = .idle → exec .pack s = .next t → t.err = false →
    t.bbuf.length % 6 = 0 ∧ t.bbuf.length ≤ 16 * (textKeys s.cfg s.ibuf).length + 4 ∧
    t.bbuf.length = (pad6 (fragments (textKeys s.cfg s.ibuf) (textKeys s.cfg s.ibuf).dedup)).length

/-- R152. For every text PACK accepts and every GROUP_ORDER, UNPACK of what PACK wrote succeeds and returns, run by run in
PACK's order, each key's value repeated its tally: as a multiset, the numbers of the text. -/
def Obligations.UnpackOfPackGivesTheNumbersBack : Prop :=
  ∀ s t : State, s.engine = .idle → s.cfg.maxEntries.toNat ≤ s.cfg.vbufCap.toNat →
    exec .pack s = .next t → t.err = false →
    ∃ (u : State) (order : List Key), order.Perm (textKeys s.cfg s.ibuf).dedup ∧
      t.bbuf = pad6 (fragments (textKeys s.cfg s.ibuf) order) ∧
      exec .unpack t = .next u ∧ u.err = false ∧ u.vbuf = groupedValues (textKeys s.cfg s.ibuf) order ∧
      u.vbuf.Perm ((textKeys s.cfg s.ibuf).map keyValue)

/-! ## The two pipelines -/

/-- DENSIFY of a valid text that fits completes: BBUF is the padded fragments in some order, OBUF its symbols (R187). -/
def Obligations.DensifyCompletesOnAValidText : Prop :=
  ∀ s : State, s.engine = .idle → textValid s.cfg s.ibuf →
    16 * (textKeys s.cfg s.ibuf).length + 4 ≤ s.cfg.bbufCap.toNat →
    16 * (textKeys s.cfg s.ibuf).length + 4 ≤ 6 * s.cfg.obufCap.toNat →
    ∃ (order : List Key) (bits : List Bool) (text : List Symbol), order.Perm (textKeys s.cfg s.ibuf).dedup ∧
      bits = pad6 (fragments (textKeys s.cfg s.ibuf) order) ∧ text.length = bits.length / 6 ∧
      (∀ g, g < bits.length / 6 → text[g]? = some ((memRead bits (6 * g) 6).setWidth 21 + 32)) ∧
      exec .densify s = .next (complete { s with bbuf := bits, bstage := [], obuf := text, draws := s.draws + 1 })

/-- R187. DENSIFY is PACK and then TENC: where both succeed the states are equal and OLEN = BLEN / 6, and where one faults
DENSIFY takes its fault with BLEN = OLEN = 0; TENC can raise CapacityExceeded only. -/
def Obligations.DensifyIsPackThenTenc : Prop :=
  ∀ s t : State, s.engine = .idle → exec .pack s = .next t →
    (∀ u, t.err = false → exec .tenc t = .next u → u.err = false →
      exec .densify s = .next u ∧ u.obuf.length = u.bbuf.length / 6) ∧
    (∀ u, t.err = false → exec .tenc t = .next u → u.err = true →
      exec .densify s = .next (takeFault .densify .capacityExceeded (draw s))) ∧
    (∀ f, t = takeFault .pack f (draw s) → exec .densify s = .next (takeFault .densify f (draw s)))

/-- REVERT of a string over the alphabet whose bits are a stream of the grammar completes with the bits, the values and their
comma-joined decimals (R188). -/
def Obligations.RevertCompletesOnAStream : Prop :=
  ∀ (s : State) (rs : List Run) (tail : List Bool), s.engine = .idle → (∀ c ∈ s.ibuf, inAlphabet c) →
    6 * s.ibuf.length ≤ s.cfg.bbufCap.toNat → (∀ r ∈ rs, r.legal = true) → tail.length < 8 →
    (s.ibuf.map (fun c => binNat 6 (c.toNat - 32))).flatten = streamBits rs ++ tail →
    (streamValues rs).length ≤ s.cfg.vbufCap.toNat → (joinText (streamValues rs)).length ≤ s.cfg.obufCap.toNat →
    exec .revert s = .next (complete { s with
      bbuf := streamBits rs ++ tail, bstage := [], vbuf := streamValues rs, obuf := joinText (streamValues rs) })

/-- R188. REVERT is TDEC, then UNPACK, then JOIN: where all succeed the states are equal and BLEN = 6 * ILEN, and the first that
faults is the fault REVERT takes, with BLEN = VLEN = OLEN = 0. -/
def Obligations.RevertIsTdecThenUnpackThenJoin : Prop :=
  ∀ s t : State, s.engine = .idle → exec .tdec s = .next t →
    (∀ f, t = takeFault .tdec f s → exec .revert s = .next (takeFault .revert f s)) ∧
    (∀ u f, t.err = false → exec .unpack t = .next u → u = takeFault .unpack f t →
      exec .revert s = .next (takeFault .revert f s)) ∧
    (∀ u, t.err = false → exec .unpack t = .next u → u.err = false →
      u.bbuf.length = 6 * s.ibuf.length ∧
      ((joinText u.vbuf).length ≤ s.cfg.obufCap.toNat →
        exec .revert s = .next (complete { u with obuf := joinText u.vbuf })) ∧
      (s.cfg.obufCap.toNat < (joinText u.vbuf).length →
        exec .revert s = .next (takeFault .revert .capacityExceeded s)))

/-- An illegal symbol anywhere is reported in preference to any defect of the bit stream, and the first one is recorded (R165,
R188, R211). -/
def Obligations.RevertReportsAnIllegalSymbolFirst : Prop :=
  ∀ (s : State) (before after : List Symbol) (c : Symbol), s.engine = .idle → 6 * s.ibuf.length ≤ s.cfg.bbufCap.toNat →
    s.ibuf = before ++ c :: after → (∀ x ∈ before, inAlphabet x) → ¬ inAlphabet c →
    exec .revert s = .next (takeFault .revert (.invalidBase64Character c) s)

/-- R189. JOIN: the empty text for the empty list, otherwise the shortest decimal numerals with one comma between them;
CapacityExceeded where the text is longer than OBUF. -/
def Obligations.JoinWritesShortestDecimals : Prop :=
  joinText [] = [] ∧
  (∀ vs : List Val, vs ≠ [] → joinText vs = List.intercalate [44#21] (vs.map decimal)) ∧
  (∀ v : Val, (∀ x ∈ decimal v, 48 ≤ x.toNat ∧ x.toNat ≤ 57) ∧ decimalValue (decimal v) = v.toNat ∧
    1 ≤ (decimal v).length ∧ (decimal v).length ≤ 5 ∧ ((decimal v).head? = some 48#21 → decimal v = [48#21])) ∧
  (∀ s : State,
    ((joinText s.vbuf).length ≤ s.cfg.obufCap.toNat → joinStage s = .ok { s with obuf := joinText s.vbuf }) ∧
    (s.cfg.obufCap.toNat < (joinText s.vbuf).length → joinStage s = .error .capacityExceeded))

/-- R191. Where DENSIFY succeeds and its OBUF is put in IBUF, REVERT succeeds, its BBUF is the BBUF DENSIFY left, and its VBUF
is, run by run in DENSIFY's order, each key's value repeated its tally: as a multiset, the numbers of the text. OBUF is their
comma-joined decimals, for which OBUF must have room (in any order they are of one length). -/
def Obligations.RevertOfDensifyGivesTheNumbersBack : Prop :=
  ∀ s t : State, s.engine = .idle → s.cfg.maxEntries.toNat ≤ s.cfg.vbufCap.toNat →
    (joinText ((textKeys s.cfg s.ibuf).map keyValue)).length ≤ s.cfg.obufCap.toNat →
    exec .densify s = .next t → t.err = false →
    ∃ (u : State) (order : List Key), order.Perm (textKeys s.cfg s.ibuf).dedup ∧
      t.bbuf = pad6 (fragments (textKeys s.cfg s.ibuf) order) ∧
      exec .revert { t with ibuf := t.obuf } = .next u ∧ u.err = false ∧ u.bbuf = t.bbuf ∧
      u.vbuf = groupedValues (textKeys s.cfg s.ibuf) order ∧
      u.vbuf.Perm ((textKeys s.cfg s.ibuf).map keyValue) ∧ u.obuf = joinText u.vbuf

/-- Running REVERT's symbols and fields one at a time by `step` reaches exactly the state that the one atomic command gives, where
the capacity test before the scan passes (R167, R180, R188). That the inside of a command can be stepped at all is the model's
choice, log 6. -/
def Obligations.RevertIsItsSymbolsAndFieldsOneByOne : Prop :=
  ∀ s : State, s.engine = .idle → 6 * s.ibuf.length ≤ s.cfg.bbufCap.toNat →
    ∃ n, Sys2Proof.core.run n { clearOutputs .revert s with idx := 0, engine := .symbols .revert } = exec .revert s

/-! ## The commands in common -/

/-- R181. NOP changes nothing. -/
def Obligations.NopChangesNothing : Prop :=
  ∀ s : State, exec .nop s = .next s

/-- R38, R186, R230, R231. CLEAR and the reset event return the block to its reset state: every register reads as after reset,
which is 0, no buffer entry exists, and the engine is idle. The model keeps its parameters, its counter and the host's further
actions, and takes a reset between commands (log 4). -/
def Obligations.ClearAndResetReturnToTheResetState : Prop :=
  (∀ r : Reg, readReg r State.reset = 0) ∧
  (∀ s : State, s.engine = .idle → ∃ t, exec .clear s = .next t ∧
    (∀ r : Reg, readReg r t = readReg r State.reset) ∧ (∀ b k, readBuf b k t = none) ∧ busy t = false ∧
    t = { State.reset with cfg := s.cfg, draws := s.draws, host := s.host }) ∧
  (∀ (s : State) (rest : List HostAction), s.engine = .idle → s.host = .reset :: rest → ∃ t, step s = .next t ∧
    (∀ r : Reg, readReg r t = readReg r State.reset) ∧ (∀ b k, readBuf b k t = none) ∧ busy t = false ∧
    t = { State.reset with cfg := s.cfg, draws := s.draws, host := rest })

/-- The frame of a command: it leaves every buffer outside writes(cmd) as it was, never the input, and the parameters and the
host's actions; it ends with DONE = 1, the engine idle and the transients at rest (R180, R192). -/
def Obligations.CommandLeavesTheOtherBuffers : Prop :=
  ∀ (s t : State) (c : Command), framed c → s.engine = .idle → exec (commandInstr c) s = .next t →
    (∀ b, b ∉ writes c → ∀ k, readBuf b k t = readBuf b k s) ∧ t.ibuf = s.ibuf ∧ t.istage = s.istage ∧
    (.bbuf ∉ writes c → t.bstage = s.bstage) ∧ t.cfg = s.cfg ∧ t.host = s.host ∧ t.done = true ∧ t.engine = .idle ∧
    t.tally = [] ∧ t.pos = 0 ∧ t.ltrunc = 0 ∧ t.rcnt = 0 ∧ t.rval = 0 ∧ t.idx = 0

/-- R212. When a command ends with a fault every buffer it writes has length 0, its inputs are unchanged, CODE and CLASS are the
fault's, ERRCHAR is 0 but for code 1, and ERR and DONE are 1. -/
def Obligations.FaultEmptiesTheWrittenBuffers : Prop :=
  ∀ (s t : State) (c : Command), framed c → s.engine = .idle → exec (commandInstr c) s = .next t → t.err = true →
    (∀ b, b ∈ writes c → ∀ k, readBuf b k t = none) ∧ (∀ b, b ∉ writes c → ∀ k, readBuf b k t = readBuf b k s) ∧
    t.errCode ≠ 0 ∧ t.errClass = classOfCode t.errCode ∧
    (t.errCode ≠ 1 → t.errChar = 0) ∧ (t.errCode = 1 → t.errChar ∈ s.ibuf ∧ ¬ inAlphabet t.errChar) ∧
    t.done = true ∧ t.engine = .idle

/-- R219. Which command can end with which code: no other, and each of these from some state; NOP writes no status, CLEAR
clears it. -/
def Obligations.CommandsEndWithTheCodesOfTheTable : Prop :=
  (∀ s t : State, exec .nop s = .next t → t.done = s.done ∧ t.err = s.err ∧ t.errCode = s.errCode) ∧
  (∀ s t : State, s.engine = .idle → exec .clear s = .next t → t.done = false ∧ t.err = false ∧ t.errCode = 0) ∧
  ∀ c : Command, framed c → ∀ code : BitVec 4,
    (∃ s t : State, s.engine = .idle ∧ exec (commandInstr c) s = .next t ∧ t.errCode = code) ↔
      code ∈ (match c with
        | .pack => [0#4, 5, 7]
        | .unpack => [0#4, 3, 7]
        | .tenc => [0#4, 6, 7]
        | .tdec => [0#4, 1, 7]
        | .densify => [0#4, 5, 7]
        | .revert => [0#4, 1, 3, 7]
        | .nop => []
        | .clear => [])

/-- A command's results depend on its parameters, on the buffer it takes its input from, for PACK and DENSIFY on GROUP_ORDER
(here the draw number), and on nothing else: not on the other buffers, nor on anything an earlier command left (R11, R180,
R192). -/
def Obligations.CommandDependsOnItsInputAlone : Prop :=
  ∀ (s s' t t' : State) (c : Command), framed c → s.engine = .idle → s'.engine = .idle →
    s.cfg = s'.cfg → (.ibuf ∈ reads c → s.ibuf = s'.ibuf) → (.bbuf ∈ reads c → s.bbuf = s'.bbuf) →
    (c = .pack ∨ c = .densify → s.draws = s'.draws) →
    exec (commandInstr c) s = .next t → exec (commandInstr c) s' = .next t' →
    (∀ b, b ∈ writes c → ∀ k, readBuf b k t = readBuf b k t') ∧ (∀ b, b ∈ writes c → bufLength b t = bufLength b t') ∧
    (∀ r, r = .status ∨ r = .errcode ∨ r = .errchar → readReg r t = readReg r t')

/-- A command executed while another is in progress has no effect. The model's choice, log 13, after R238 ("a write is
ignored"). -/
def Obligations.CommandWhileBusyIsIgnored : Prop :=
  ∀ (s : State) (c : Command), s.engine ≠ .idle → exec (commandInstr c) s = .next s

/-! ## The step, the host, the invariant -/

/-- A step runs the instruction it decodes: a write to CMD runs the command with that action taken off the host's list; inside
TDEC's loop the symbol at the loop index; inside a scan the field at POS (R31, R162, R143). -/
def Obligations.StepRunsTheDecodedInstruction : Prop :=
  (∀ (s : State) (v : BitVec 32) (rest : List HostAction), s.engine = .idle → s.host = .writeReg .cmd v :: rest →
    step s = exec (decodeCommand v) { s with host := rest }) ∧
  (∀ (s : State) (c : Command) (x : Symbol) (i : Instr), s.engine = .symbols c → s.ibuf[s.idx.toNat]? = some x →
    decodeSymbol x = .ok i → step s = exec i s) ∧
  (∀ (s : State) (c : Command) (p : Position) (i : Instr), s.engine = .fields c p → (p = .S → s.pos < s.ltrunc) →
    fetchField p s = .ok i → step s = exec i s)

/-- R36. A host write to ILEN or BLEN above the buffer's capacity is refused: the register keeps its value; otherwise it reads
back and the entries below both lengths stand. The last clause is the model's choice, log 17: STATUS, ERRCODE, ERRCHAR, VLEN and
OLEN are read-only for the host (R35, R36), which do not say what a write does; here it changes nothing. -/
def Obligations.HostWritesLengthsUpToTheCapacity : Prop :=
  ∀ (s : State) (v : Len) (rest : List HostAction), s.engine = .idle → Memory.wf s = true →
    (s.host = .writeReg .ilen v :: rest → s.cfg.ibufCap < v → step s = .next { s with host := rest }) ∧
    (s.host = .writeReg .blen v :: rest → s.cfg.bbufCap < v → step s = .next { s with host := rest }) ∧
    (s.host = .writeReg .ilen v :: rest → v ≤ s.cfg.ibufCap →
      ∃ t, step s = .next t ∧ readReg .ilen t = v ∧ t.ibuf.take s.ibuf.length = s.ibuf.take v.toNat ∧
        t = { s with ibuf := t.ibuf, istage := t.istage, draws := t.draws, host := rest }) ∧
    (s.host = .writeReg .blen v :: rest → v ≤ s.cfg.bbufCap →
      ∃ t, step s = .next t ∧ readReg .blen t = v ∧ t.bbuf.take s.bbuf.length = s.bbuf.take v.toNat ∧
        t = { s with bbuf := t.bbuf, bstage := t.bstage, draws := t.draws, host := rest }) ∧
    (∀ r : Reg, r = .status ∨ r = .errcode ∨ r = .errchar ∨ r = .vlen ∨ r = .olen →
      s.host = .writeReg r v :: rest → step s = .next { s with host := rest })

/-- The host loads an input: it writes the symbols of a text, or the bits of a string, one by one, in index order, and then ILEN,
or BLEN; IBUF, or BBUF, is then that text, or that string, whatever it held before, and no other buffer and no other register has
changed. A host write to an entry below the length stores there, and only there (R26, R27, R63, R233; that the entries beyond the
length are kept until the length covers them: log 8). -/
def Obligations.HostLoadsATextOrABitString : Prop :=
  (∀ (s : State) (text : List Symbol) (rest : List HostAction), s.engine = .idle → Memory.wf s = true →
    text.length ≤ s.cfg.ibufCap.toNat →
    s.host = text.zipIdx.map (fun e => HostAction.writeIbuf (BitVec.ofNat 32 e.2) e.1) ++
      HostAction.writeReg .ilen (BitVec.ofNat 32 text.length) :: rest →
    ∃ t : State, Sys2Proof.core.run (text.length + 1) s = .next t ∧ t.ibuf = text ∧
      t = { s with ibuf := t.ibuf, istage := t.istage, draws := t.draws, host := rest }) ∧
  (∀ (s : State) (bits : List Bool) (rest : List HostAction), s.engine = .idle → Memory.wf s = true →
    bits.length ≤ s.cfg.bbufCap.toNat →
    s.host = bits.zipIdx.map (fun e => HostAction.writeBbuf (BitVec.ofNat 32 e.2) e.1) ++
      HostAction.writeReg .blen (BitVec.ofNat 32 bits.length) :: rest →
    ∃ t : State, Sys2Proof.core.run (bits.length + 1) s = .next t ∧ t.bbuf = bits ∧
      t = { s with bbuf := t.bbuf, bstage := t.bstage, draws := t.draws, host := rest }) ∧
  (∀ (s : State) (i : Len) (c : Symbol) (rest : List HostAction), s.engine = .idle → Memory.wf s = true →
    s.host = .writeIbuf i c :: rest → i.toNat < s.ibuf.length →
    ∃ t : State, step s = .next t ∧ t.ibuf.length = s.ibuf.length ∧
      (∀ k, t.ibuf[k]? = if k = i.toNat then some c else s.ibuf[k]?) ∧ t = { s with ibuf := t.ibuf, host := rest }) ∧
  (∀ (s : State) (i : Len) (b : Bool) (rest : List HostAction), s.engine = .idle → Memory.wf s = true →
    s.host = .writeBbuf i b :: rest → i.toNat < s.bbuf.length →
    ∃ t : State, step s = .next t ∧ t.bbuf.length = s.bbuf.length ∧
      (∀ k, t.bbuf[k]? = if k = i.toNat then some b else s.bbuf[k]?) ∧ t = { s with bbuf := t.bbuf, host := rest })

/-- A host read of an entry below the buffer's length changes nothing and returns a value; at or beyond the length it is refused
(R30, R60; the form of the refusal is the model's, log 11; that the host may read IBUF at all is the model's choice, log 22). -/
def Obligations.HostReadsOnlyBelowTheLength : Prop :=
  ∀ (s : State) (b : Buffer) (i : Len) (rest : List HostAction), s.engine = .idle → s.host = .readBuf b i :: rest →
    (i.toNat < bufLength b s → step s = .next { s with host := rest } ∧ (readBuf b i.toNat s).isSome = true) ∧
    (bufLength b s ≤ i.toNat → step s = .refused .readBeyondLength ∧ readBuf b i.toNat s = none)

/-- R35. What a read of the status and error registers returns: BUSY, DONE, ERR in bits 0, 1, 2; CODE in bits 3 to 0 and CLASS in
bits 5 to 4; ERRCHAR; zeros above; CMD reads 0; the lengths read the number of valid entries. -/
def Obligations.RegistersReadTheirFields : Prop :=
  ∀ s : State,
    readReg .cmd s = 0 ∧
    (readReg .status s).toNat = (busy s).toNat + 2 * s.done.toNat + 4 * s.err.toNat ∧
    (readReg .errcode s).toNat = s.errCode.toNat + 16 * s.errClass.toNat ∧
    (readReg .errchar s).toNat = s.errChar.toNat ∧
    (Memory.wf s = true →
      (readReg .ilen s).toNat = s.ibuf.length ∧ (readReg .blen s).toNat = s.bbuf.length ∧
      (readReg .vlen s).toNat = s.vbuf.length ∧ (readReg .olen s).toNat = s.obuf.length)

/-- The reset state has the invariant (R37, R38). -/
def Obligations.ResetHasTheInvariant : Prop := Inv State.reset

/-- Every step keeps the invariant, from every state that has it (R37; the ranges of R21, R24, R28, R29, R33, R34). -/
def Obligations.StepKeepsTheInvariant : Prop :=
  ∀ s t : State, Inv s → step s = .next t → Inv t

/-- From a state with the invariant the machine stops only where the host accesses an entry that is not there: a write beyond a
buffer's array or a read beyond a buffer's length (R30, R61, R213). -/
def Obligations.OnlyAHostAccessStopsTheMachine : Prop :=
  ∀ s : State, Inv s →
    (∀ rest i c, s.engine = .idle → s.host = .writeIbuf i c :: rest → i < s.cfg.ibufCap) →
    (∀ rest i b, s.engine = .idle → s.host = .writeBbuf i b :: rest → i < s.cfg.bbufCap) →
    (∀ rest b i, s.engine = .idle → s.host = .readBuf b i :: rest → i.toNat < bufLength b s) →
    Safe s
end

