-- ==== Sys2Proof/Laws/Bits.lean ====
section
/-! SUPPORT. Bit strings: lengths, `num` and `bin` are inverse (R8), reads of a string's front (R54). -/

namespace Sys2Proof

@[simp] theorem binNat_zero (v : Nat) : binNat 0 v = [] := rfl

@[simp] theorem binNat_succ (n v : Nat) : binNat (n + 1) v = v.testBit n :: binNat n v := rfl

@[simp] theorem length_binNat (n v : Nat) : (binNat n v).length = n := by
  induction n with
  | zero => rfl
  | succ n ih => simp [ih]

@[simp] theorem length_bin {n : Nat} (v : BitVec n) : (bin v).length = n := length_binNat n v.toNat

/-- `num` with an accumulator. -/
theorem foldl_num (b : List Bool) (a : Nat) :
    b.foldl (fun a x => 2 * a + x.toNat) a = a * 2 ^ b.length + num b := by
  unfold num
  induction b generalizing a with
  | nil => simp
  | cons x xs ih =>
    simp only [List.foldl_cons, List.length_cons]
    rw [ih, ih (2 * 0 + x.toNat)]
    ring

@[simp] theorem num_nil : num [] = 0 := rfl

theorem num_cons (x : Bool) (b : List Bool) : num (x :: b) = x.toNat * 2 ^ b.length + num b := by
  have := foldl_num b (2 * 0 + x.toNat)
  simpa [num] using this

theorem num_append (a b : List Bool) : num (a ++ b) = num a * 2 ^ b.length + num b := by
  have := foldl_num b (num a)
  simpa [num, List.foldl_append] using this

theorem num_lt (b : List Bool) : num b < 2 ^ b.length := by
  induction b with
  | nil => simp
  | cons x xs ih =>
    rw [num_cons, List.length_cons, pow_succ]
    cases x <;> simp <;> omega

/-- The number of the n-bit string of `v` is `v` modulo 2^n. -/
theorem num_binNat (n v : Nat) : num (binNat n v) = v % 2 ^ n := by
  induction n with
  | zero => simp [Nat.mod_one]
  | succ n ih =>
    rw [binNat_succ, num_cons, length_binNat, ih, Nat.testBit_eq_decide_div_mod_eq]
    have hmod : v % 2 ^ (n + 1) = v % 2 ^ n + 2 ^ n * (v / 2 ^ n % 2) := by
      rw [pow_succ, Nat.mod_mul]
    rw [hmod]
    have : v / 2 ^ n % 2 = 0 ∨ v / 2 ^ n % 2 = 1 := by omega
    rcases this with h | h <;> simp [h]; ring

/-- `num(bin_n(v)) = v` (R8). -/
@[simp] theorem num_bin {n : Nat} (v : BitVec n) : num (bin v) = v.toNat := by
  rw [bin, num_binNat, Nat.mod_eq_of_lt v.isLt]

/-- A bit string is the string of its number (R8). -/
theorem binNat_num (b : List Bool) : binNat b.length (num b) = b := by
  have key : ∀ (n : Nat) (c : List Bool), n = c.length → ∀ a, binNat n (a * 2 ^ n + num c) = c := by
    intro n
    induction n with
    | zero => intro c hc a; simp [List.length_eq_zero_iff.mp hc.symm]
    | succ n ih =>
      intro c hc a
      cases c with
      | nil => simp at hc
      | cons x xs =>
        have hl : n = xs.length := by simpa using hc
        have hlt : num xs < 2 ^ n := by rw [hl]; exact num_lt xs
        have hv : a * 2 ^ (n + 1) + num (x :: xs) = (2 * a + x.toNat) * 2 ^ n + num xs := by
          rw [num_cons, ← hl]; ring
        rw [hv, binNat_succ, ih xs hl]
        congr 1
        rw [Nat.testBit_eq_decide_div_mod_eq]
        have hd : ((2 * a + x.toNat) * 2 ^ n + num xs) / 2 ^ n = 2 * a + x.toNat := by
          rw [Nat.add_comm, Nat.add_mul_div_right _ _ (by positivity), Nat.div_eq_of_lt hlt]
          simp
        rw [hd]
        cases x <;> simp
  simpa using key b.length b rfl 0

theorem bin_ofNat_num (b : List Bool) : bin (BitVec.ofNat b.length (num b)) = b := by
  simp [bin, Nat.mod_eq_of_lt (num_lt b), binNat_num]

/-- A read of exactly the bits of `bin v` gives `v` (R54). -/
@[simp] theorem memRead_bin {n : Nat} (v : BitVec n) : memRead (bin v) 0 n = v := by
  apply BitVec.eq_of_toNat_eq
  have h : (bin v).take n = bin v := List.take_of_length_le (by simp)
  simp [memRead, h]

/-- A read that ends before the later bits does not see them. -/
theorem memRead_append (a b : List Bool) (k n : Nat) (h : k + n ≤ a.length) :
    memRead (a ++ b) k n = memRead a k n := by
  unfold memRead
  rw [List.drop_append_of_le_length (by omega), List.take_append_of_le_length (by simp; omega)]

theorem toNat_memRead (b : List Bool) (k n : Nat) :
    (memRead b k n).toNat = num ((b.drop k).take n) := by
  have hl : ((b.drop k).take n).length ≤ n := by simp
  have h1 := num_lt ((b.drop k).take n)
  have h2 : 2 ^ ((b.drop k).take n).length ≤ 2 ^ n := Nat.pow_le_pow_right (by norm_num) hl
  simp [memRead, Nat.mod_eq_of_lt (lt_of_lt_of_le h1 h2)]

/-- `num` cut in two. -/
theorem num_split (b : List Bool) (k : Nat) :
    num b = num (b.take k) * 2 ^ (b.length - k) + num (b.drop k) := by
  conv_lhs => rw [← List.take_append_drop k b]
  rw [num_append, List.length_drop]

/-- A peek at the first `k` bits is the front of the full read (R59). -/
theorem memRead_peek (b : List Bool) (k n : Nat) (hk : k ≤ n) (hn : n ≤ b.length) :
    (memRead b 0 k).toNat = (memRead b 0 n).toNat / 2 ^ (n - k) := by
  rw [toNat_memRead, toNat_memRead]
  simp only [List.drop_zero]
  have hsplit := num_split (b.take n) k
  have hl : (b.take n).length = n := by simp [hn]
  rw [List.take_take, Nat.min_eq_left hk, hl] at hsplit
  rw [hsplit]
  have hlt := num_lt ((b.take n).drop k)
  rw [List.length_drop, hl] at hlt
  rw [Nat.add_comm, Nat.add_mul_div_right _ _ (by positivity), Nat.div_eq_of_lt hlt]
  simp

/-- A peek at bit index 2 is a bit of the byte's number (R59). -/
theorem memRead_bit2 (b : List Bool) (h : 8 ≤ b.length) :
    (memRead b 2 1).toNat = (memRead b 0 8).toNat / 32 % 2 := by
  match b, h with
  | b0 :: b1 :: b2 :: b3 :: b4 :: b5 :: b6 :: b7 :: rest, _ =>
    rw [toNat_memRead, toNat_memRead]
    revert b0 b1 b2 b3 b4 b5 b6 b7
    simp [num]

end Sys2Proof
end

