-- ==== Sys2Proof/Laws/Codec.lean ====
section
/-! SUPPORT. What the decoder does with each kind of field and with a symbol (R71 to R78, R85, R86). -/

namespace Sys2Proof

theorem wholeField_append {n : Nat} (x : BitVec n) (rest : List Bool) :
    wholeField n (bin x ++ rest) = .ok x := by
  simp [wholeField, memRead_append]

/-- Fewer bits than the field are an end of input. -/
theorem wholeField_short {n : Nat} {b : List Bool} (h : b.length < n) :
    wholeField n b = .error .endOfInput := by
  simp [wholeField, h]

theorem wholeField_long {n : Nat} {b : List Bool} (h : n ≤ b.length) :
    wholeField n b = .ok (memRead b 0 n) := by
  simp [wholeField, Nat.not_lt.mpr h]

/-- The peek at bit index 0, in terms of the byte (R59). -/
theorem peek1_of_byte {b : List Bool} (h : 8 ≤ b.length) :
    memRead b 0 1 = 0#1 ↔ (memRead b 0 8).toNat < 128 := by
  have hp := memRead_peek b 1 8 (by norm_num) h
  have hb := (memRead b 0 8).isLt
  rw [← BitVec.toNat_inj, hp]
  simp


/-- The peek at two bits, in terms of the byte (R59). -/
theorem peek2_of_byte {b : List Bool} (h : 8 ≤ b.length) :
    memRead b 0 2 = 3#2 ↔ 192 ≤ (memRead b 0 8).toNat := by
  have hp := memRead_peek b 2 8 (by norm_num) h
  have hb := (memRead b 0 8).isLt
  rw [← BitVec.toNat_inj, hp]
  simp
  omega

/-- The width selector at bit index 2, in terms of the byte (R59). -/
theorem peek3_of_byte {b : List Bool} (h : 8 ≤ b.length) :
    memRead b 2 1 = 0#1 ↔ (memRead b 0 8).toNat / 32 % 2 = 0 := by
  rw [← BitVec.toNat_inj, memRead_bit2 b h]
  simp

/-- The leading byte of a 16-bit field is the high half of its number (R55). -/
theorem byte_of_field16 {b : List Bool} (h : 16 ≤ b.length) :
    (memRead b 0 8).toNat = (memRead b 0 16).toNat / 256 :=
  memRead_peek b 8 16 (by norm_num) h

/-- XOR with a mask whose bits the operand does not have is an addition (R110). -/
theorem xor_mask_eq_add {k m a : Nat} (h : a < 2 ^ k) : a ^^^ (2 ^ k * m) = 2 ^ k * m + a := by
  apply Nat.eq_of_testBit_eq
  intro j
  rw [Nat.testBit_xor, Nat.testBit_two_pow_mul, Nat.testBit_two_pow_mul_add _ h]
  by_cases hj : j < k
  · simp [hj, Nat.not_le.mpr hj]
  · have : a.testBit j = false :=
      Nat.testBit_lt_two_pow (lt_of_lt_of_le h (Nat.pow_le_pow_right (by norm_num) (Nat.not_lt.mp hj)))
    simp [hj, Nat.not_lt.mp hj, this]

theorem toNat_xor_maskV16 (v : BitVec 15) : (v.setWidth 16 ^^^ maskV16).toNat = 0x8000 + v.toNat := by
  have hv := v.isLt
  rw [BitVec.toNat_xor, BitVec.toNat_setWidth, Nat.mod_eq_of_lt (by omega)]
  exact xor_mask_eq_add (k := 15) (m := 1) hv

theorem toNat_xor_maskC8 (c : BitVec 6) : (c.setWidth 8 ^^^ maskC8).toNat = 0xC0 + c.toNat := by
  have hc := c.isLt
  rw [BitVec.toNat_xor, BitVec.toNat_setWidth, Nat.mod_eq_of_lt (by omega)]
  exact xor_mask_eq_add (k := 6) (m := 3) hc

theorem toNat_xor_maskC16 (c : BitVec 13) : (c.setWidth 16 ^^^ maskC16).toNat = 0xE000 + c.toNat := by
  have hc := c.isLt
  rw [BitVec.toNat_xor, BitVec.toNat_setWidth, Nat.mod_eq_of_lt (by omega)]
  exact xor_mask_eq_add (k := 13) (m := 7) hc

theorem decodeField_S (b : List Bool) :
    decodeField .S b = if memRead b 0 2 = 3#2 then decodeCount b else decodeValue b := rfl

theorem decodeField_V (b : List Bool) : decodeField .V b = decodeValue b := rfl

/-- Position S looks past a field whose two leading bits are not `11` (R76). -/
theorem decodeField_value {b : List Bool} (p : Position) (h : p = .V ∨ ¬ memRead b 0 2 = 3#2) :
    decodeField p b = decodeValue b := by
  cases p with
  | V => rfl
  | S => rw [decodeField_S, if_neg (by simpa using h)]

/-- A V8 field is read as its payload, in both positions (R71). -/
theorem decodeField_bitsV8 (p : Position) (v : BitVec 7) (rest : List Bool) :
    decodeField p (bitsV8 v ++ rest) = .ok (.v8 v) := by
  have hlen : 8 ≤ (bitsV8 v ++ rest).length := by simp [bitsV8]
  have hbyte : memRead (bitsV8 v ++ rest) 0 8 = v.setWidth 8 := by
    rw [memRead_append _ _ _ _ (by simp [bitsV8]), bitsV8, memRead_bin]
  have hv := v.isLt
  have hnum : (v.setWidth 8).toNat = v.toNat := by
    rw [BitVec.toNat_setWidth, Nat.mod_eq_of_lt (by omega)]
  have h1 : memRead (bitsV8 v ++ rest) 0 1 = 0#1 := by
    rw [peek1_of_byte hlen, hbyte, hnum]; omega
  have h2 : ¬ memRead (bitsV8 v ++ rest) 0 2 = 3#2 := by
    rw [peek2_of_byte hlen, hbyte, hnum]; omega
  rw [decodeField_value p (.inr h2), decodeValue, if_pos h1, wholeField_long hlen, hbyte]
  simp [Except.map, payloadV8]

/-- A 16-bit value field is read as its payload where its first two bits do not make it a count (R72, R73, R76). -/
theorem decodeField_bitsV16 (p : Position) (v : BitVec 15) (rest : List Bool) (h : p = .V ∨ v < 0x4000#15) :
    decodeField p (bitsV16 v ++ rest) = .ok (if v < 0x4000#15 then .v16 v else .v16x v) := by
  have hlen : 16 ≤ (bitsV16 v ++ rest).length := by simp [bitsV16]
  have h16 : memRead (bitsV16 v ++ rest) 0 16 = v.setWidth 16 ^^^ maskV16 := by
    rw [memRead_append _ _ _ _ (by simp [bitsV16]), bitsV16, memRead_bin]
  have hv := v.isLt
  have hnum := toNat_xor_maskV16 v
  have hbyte := byte_of_field16 hlen
  rw [h16, hnum] at hbyte
  have h1 : ¬ memRead (bitsV16 v ++ rest) 0 1 = 0#1 := by
    rw [peek1_of_byte (by omega)]; omega
  have hlt : v < 0x4000#15 ↔ v.toNat < 0x4000 := by simp [BitVec.lt_def]
  have h2 : p = .V ∨ ¬ memRead (bitsV16 v ++ rest) 0 2 = 3#2 := by
    rcases h with h | h
    · exact .inl h
    · right; rw [peek2_of_byte (by omega)]; rw [hlt] at h; omega
  have hpay : payloadV16 (v.setWidth 16 ^^^ maskV16) = v := by simp [payloadV16]
  have hbit : (v.setWidth 16 ^^^ maskV16).getLsbD 14 = !decide (v < 0x4000#15) := by
    rw [BitVec.getLsbD, hnum, Nat.testBit_eq_decide_div_mod_eq]
    by_cases hl : v < 0x4000#15
    · simp only [hl]; rw [hlt] at hl; simp; omega
    · simp only [hl]; rw [hlt] at hl; simp; omega
  rw [decodeField_value p h2, decodeValue, if_neg h1, wholeField_long hlen, h16]
  have hval : value16 (v.setWidth 16 ^^^ maskV16) = if v < 0x4000#15 then .v16 v else .v16x v := by
    rw [value16, hbit, hpay]
    by_cases hl : v < 0x4000#15 <;> simp [hl]
  rw [← hval]
  rfl

/-- A C8 field is read as its payload at a run start (R74). -/
theorem decodeField_bitsC8 (c : BitVec 6) (rest : List Bool) (h : c < 32#6) :
    decodeField .S (bitsC8 c ++ rest) = .ok (.c8 c) := by
  have hlen : 8 ≤ (bitsC8 c ++ rest).length := by simp [bitsC8]
  have hbyte : memRead (bitsC8 c ++ rest) 0 8 = c.setWidth 8 ^^^ maskC8 := by
    rw [memRead_append _ _ _ _ (by simp [bitsC8]), bitsC8, memRead_bin]
  have hnum := toNat_xor_maskC8 c
  have hc : c.toNat < 32 := by simpa [BitVec.lt_def] using h
  have h2 : memRead (bitsC8 c ++ rest) 0 2 = 3#2 := by
    rw [peek2_of_byte hlen, hbyte, hnum]; omega
  have h3 : memRead (bitsC8 c ++ rest) 2 1 = 0#1 := by
    rw [peek3_of_byte hlen, hbyte, hnum]; omega
  rw [decodeField_S, if_pos h2, decodeCount, if_pos h3, wholeField_long hlen, hbyte]
  simp [Except.map, payloadC8]

/-- A C16 field is read as its payload at a run start (R75). -/
theorem decodeField_bitsC16 (c : BitVec 13) (rest : List Bool) :
    decodeField .S (bitsC16 c ++ rest) = .ok (.c16 c) := by
  have hlen : 16 ≤ (bitsC16 c ++ rest).length := by simp [bitsC16]
  have h16 : memRead (bitsC16 c ++ rest) 0 16 = c.setWidth 16 ^^^ maskC16 := by
    rw [memRead_append _ _ _ _ (by simp [bitsC16]), bitsC16, memRead_bin]
  have hnum := toNat_xor_maskC16 c
  have hc := c.isLt
  have hbyte := byte_of_field16 hlen
  rw [h16, hnum] at hbyte
  have h2 : memRead (bitsC16 c ++ rest) 0 2 = 3#2 := by
    rw [peek2_of_byte (by omega), hbyte]; omega
  have h3 : ¬ memRead (bitsC16 c ++ rest) 2 1 = 0#1 := by
    rw [peek3_of_byte (by omega), hbyte]; omega
  rw [decodeField_S, if_pos h2, decodeCount, if_neg h3, wholeField_long hlen, h16]
  simp [Except.map, payloadC16]

theorem toNat_symbolOf (g : BitVec 6) : (symbolOf g).toNat = 32 + g.toNat := by
  have hg := g.isLt
  have h32 : (32#21).toNat = 32 := rfl
  rw [symbolOf, BitVec.toNat_add, BitVec.toNat_setWidth, h32]
  omega

theorem symbolOf_sub (g : BitVec 6) : symbolOf g - 32#21 = g.setWidth 21 := by
  simp [symbolOf]

/-- A symbol of the alphabet is read as its group (R85). -/
theorem decodeSymbol_symbolOf (g : BitVec 6) :
    decodeSymbol (symbolOf g) = .ok (if g < 32#6 then .symLo g else .symHi g) := by
  have hg := g.isLt
  have hn : (g.setWidth 21).toNat = g.toNat := by
    rw [BitVec.toNat_setWidth, Nat.mod_eq_of_lt (by omega)]
  have h64 : ¬ 64#21 ≤ g.setWidth 21 := by rw [BitVec.le_def, hn]; simp; omega
  have h32 : g.setWidth 21 < 32#21 ↔ g < 32#6 := by rw [BitVec.lt_def, BitVec.lt_def, hn]; simp
  rw [decodeSymbol]
  simp only [symbolOf_sub, h64, if_false]
  by_cases hl : g < 32#6 <;> simp [h32, hl]

/-- The two-sided test of R86 and R164: outside 32 to 95 the symbol is illegal, and inside it is the symbol of its group. -/
theorem decodeSymbol_cases (c : Symbol) :
    (32 ≤ c.toNat ∧ c.toNat ≤ 95 ∧ symbolOf ((c - 32#21).setWidth 6) = c) ∨
    ((c.toNat < 32 ∨ 95 < c.toNat) ∧ decodeSymbol c = .error (.illegalSymbol c)) := by
  have hc := c.isLt
  have hsub : (c - 32#21).toNat = (c.toNat + (2 ^ 21 - 32)) % 2 ^ 21 := by
    rw [BitVec.toNat_sub]; simp; omega
  by_cases h : 32 ≤ c.toNat ∧ c.toNat ≤ 95
  · left
    refine ⟨h.1, h.2, ?_⟩
    apply BitVec.eq_of_toNat_eq
    rw [toNat_symbolOf, BitVec.toNat_setWidth, hsub]
    omega
  · right
    have h64 : 64#21 ≤ c - 32#21 := by rw [BitVec.le_def, hsub]; simp; omega
    exact ⟨by omega, by simp [decodeSymbol, h64]⟩

end Sys2Proof
end

