-- ==== Sys2Proof/Laws/State.lean ====
section
/-! SUPPORT. One lemma for each field of State under each named update, true by rfl. -/

namespace Sys2Proof.Machine

/-! `setSuccess` -/

@[simp] theorem setSuccess_cfg (s : State) : (setSuccess s).cfg = s.cfg := rfl
@[simp] theorem setSuccess_ibuf (s : State) : (setSuccess s).ibuf = s.ibuf := rfl
@[simp] theorem setSuccess_bbuf (s : State) : (setSuccess s).bbuf = s.bbuf := rfl
@[simp] theorem setSuccess_vbuf (s : State) : (setSuccess s).vbuf = s.vbuf := rfl
@[simp] theorem setSuccess_obuf (s : State) : (setSuccess s).obuf = s.obuf := rfl
@[simp] theorem setSuccess_istage (s : State) : (setSuccess s).istage = s.istage := rfl
@[simp] theorem setSuccess_bstage (s : State) : (setSuccess s).bstage = s.bstage := rfl
@[simp] theorem setSuccess_done (s : State) : (setSuccess s).done = true := rfl
@[simp] theorem setSuccess_err (s : State) : (setSuccess s).err = false := rfl
@[simp] theorem setSuccess_errCode (s : State) : (setSuccess s).errCode = 0 := rfl
@[simp] theorem setSuccess_errClass (s : State) : (setSuccess s).errClass = 0 := rfl
@[simp] theorem setSuccess_errChar (s : State) : (setSuccess s).errChar = 0 := rfl
@[simp] theorem setSuccess_engine (s : State) : (setSuccess s).engine = s.engine := rfl
@[simp] theorem setSuccess_idx (s : State) : (setSuccess s).idx = s.idx := rfl
@[simp] theorem setSuccess_pos (s : State) : (setSuccess s).pos = s.pos := rfl
@[simp] theorem setSuccess_ltrunc (s : State) : (setSuccess s).ltrunc = s.ltrunc := rfl
@[simp] theorem setSuccess_rcnt (s : State) : (setSuccess s).rcnt = s.rcnt := rfl
@[simp] theorem setSuccess_rval (s : State) : (setSuccess s).rval = s.rval := rfl
@[simp] theorem setSuccess_tally (s : State) : (setSuccess s).tally = s.tally := rfl
@[simp] theorem setSuccess_draws (s : State) : (setSuccess s).draws = s.draws := rfl
@[simp] theorem setSuccess_host (s : State) : (setSuccess s).host = s.host := rfl

/-! `setFault` -/

@[simp] theorem setFault_cfg (f : CodecFault) (s : State) : (setFault f s).cfg = s.cfg := rfl
@[simp] theorem setFault_ibuf (f : CodecFault) (s : State) : (setFault f s).ibuf = s.ibuf := rfl
@[simp] theorem setFault_bbuf (f : CodecFault) (s : State) : (setFault f s).bbuf = s.bbuf := rfl
@[simp] theorem setFault_vbuf (f : CodecFault) (s : State) : (setFault f s).vbuf = s.vbuf := rfl
@[simp] theorem setFault_obuf (f : CodecFault) (s : State) : (setFault f s).obuf = s.obuf := rfl
@[simp] theorem setFault_istage (f : CodecFault) (s : State) : (setFault f s).istage = s.istage := rfl
@[simp] theorem setFault_bstage (f : CodecFault) (s : State) : (setFault f s).bstage = s.bstage := rfl
@[simp] theorem setFault_done (f : CodecFault) (s : State) : (setFault f s).done = true := rfl
@[simp] theorem setFault_err (f : CodecFault) (s : State) : (setFault f s).err = true := rfl
@[simp] theorem setFault_errCode (f : CodecFault) (s : State) : (setFault f s).errCode = faultCode f := rfl
@[simp] theorem setFault_errClass (f : CodecFault) (s : State) : (setFault f s).errClass = faultClass f := rfl
@[simp] theorem setFault_errChar (f : CodecFault) (s : State) : (setFault f s).errChar = faultChar f := rfl
@[simp] theorem setFault_engine (f : CodecFault) (s : State) : (setFault f s).engine = s.engine := rfl
@[simp] theorem setFault_idx (f : CodecFault) (s : State) : (setFault f s).idx = s.idx := rfl
@[simp] theorem setFault_pos (f : CodecFault) (s : State) : (setFault f s).pos = s.pos := rfl
@[simp] theorem setFault_ltrunc (f : CodecFault) (s : State) : (setFault f s).ltrunc = s.ltrunc := rfl
@[simp] theorem setFault_rcnt (f : CodecFault) (s : State) : (setFault f s).rcnt = s.rcnt := rfl
@[simp] theorem setFault_rval (f : CodecFault) (s : State) : (setFault f s).rval = s.rval := rfl
@[simp] theorem setFault_tally (f : CodecFault) (s : State) : (setFault f s).tally = s.tally := rfl
@[simp] theorem setFault_draws (f : CodecFault) (s : State) : (setFault f s).draws = s.draws := rfl
@[simp] theorem setFault_host (f : CodecFault) (s : State) : (setFault f s).host = s.host := rfl

/-! `park` -/

@[simp] theorem park_cfg (s : State) : (park s).cfg = s.cfg := rfl
@[simp] theorem park_ibuf (s : State) : (park s).ibuf = s.ibuf := rfl
@[simp] theorem park_bbuf (s : State) : (park s).bbuf = s.bbuf := rfl
@[simp] theorem park_vbuf (s : State) : (park s).vbuf = s.vbuf := rfl
@[simp] theorem park_obuf (s : State) : (park s).obuf = s.obuf := rfl
@[simp] theorem park_istage (s : State) : (park s).istage = s.istage := rfl
@[simp] theorem park_bstage (s : State) : (park s).bstage = s.bstage := rfl
@[simp] theorem park_done (s : State) : (park s).done = s.done := rfl
@[simp] theorem park_err (s : State) : (park s).err = s.err := rfl
@[simp] theorem park_errCode (s : State) : (park s).errCode = s.errCode := rfl
@[simp] theorem park_errClass (s : State) : (park s).errClass = s.errClass := rfl
@[simp] theorem park_errChar (s : State) : (park s).errChar = s.errChar := rfl
@[simp] theorem park_engine (s : State) : (park s).engine = .idle := rfl
@[simp] theorem park_idx (s : State) : (park s).idx = 0 := rfl
@[simp] theorem park_pos (s : State) : (park s).pos = 0 := rfl
@[simp] theorem park_ltrunc (s : State) : (park s).ltrunc = 0 := rfl
@[simp] theorem park_rcnt (s : State) : (park s).rcnt = 0 := rfl
@[simp] theorem park_rval (s : State) : (park s).rval = 0 := rfl
@[simp] theorem park_tally (s : State) : (park s).tally = [] := rfl
@[simp] theorem park_draws (s : State) : (park s).draws = s.draws := rfl
@[simp] theorem park_host (s : State) : (park s).host = s.host := rfl

/-! `complete` -/

@[simp] theorem complete_cfg (s : State) : (complete s).cfg = s.cfg := rfl
@[simp] theorem complete_ibuf (s : State) : (complete s).ibuf = s.ibuf := rfl
@[simp] theorem complete_bbuf (s : State) : (complete s).bbuf = s.bbuf := rfl
@[simp] theorem complete_vbuf (s : State) : (complete s).vbuf = s.vbuf := rfl
@[simp] theorem complete_obuf (s : State) : (complete s).obuf = s.obuf := rfl
@[simp] theorem complete_istage (s : State) : (complete s).istage = s.istage := rfl
@[simp] theorem complete_bstage (s : State) : (complete s).bstage = s.bstage := rfl
@[simp] theorem complete_done (s : State) : (complete s).done = true := rfl
@[simp] theorem complete_err (s : State) : (complete s).err = false := rfl
@[simp] theorem complete_errCode (s : State) : (complete s).errCode = 0 := rfl
@[simp] theorem complete_errClass (s : State) : (complete s).errClass = 0 := rfl
@[simp] theorem complete_errChar (s : State) : (complete s).errChar = 0 := rfl
@[simp] theorem complete_engine (s : State) : (complete s).engine = .idle := rfl
@[simp] theorem complete_idx (s : State) : (complete s).idx = 0 := rfl
@[simp] theorem complete_pos (s : State) : (complete s).pos = 0 := rfl
@[simp] theorem complete_ltrunc (s : State) : (complete s).ltrunc = 0 := rfl
@[simp] theorem complete_rcnt (s : State) : (complete s).rcnt = 0 := rfl
@[simp] theorem complete_rval (s : State) : (complete s).rval = 0 := rfl
@[simp] theorem complete_tally (s : State) : (complete s).tally = [] := rfl
@[simp] theorem complete_draws (s : State) : (complete s).draws = s.draws := rfl
@[simp] theorem complete_host (s : State) : (complete s).host = s.host := rfl

/-! `clearOutputs` -/

@[simp] theorem clearOutputs_cfg (c : Command) (s : State) : (clearOutputs c s).cfg = s.cfg := rfl
@[simp] theorem clearOutputs_ibuf (c : Command) (s : State) : (clearOutputs c s).ibuf = if Buffer.ibuf ∈ writes c then [] else s.ibuf := rfl
@[simp] theorem clearOutputs_bbuf (c : Command) (s : State) : (clearOutputs c s).bbuf = if Buffer.bbuf ∈ writes c then [] else s.bbuf := rfl
@[simp] theorem clearOutputs_vbuf (c : Command) (s : State) : (clearOutputs c s).vbuf = if Buffer.vbuf ∈ writes c then [] else s.vbuf := rfl
@[simp] theorem clearOutputs_obuf (c : Command) (s : State) : (clearOutputs c s).obuf = if Buffer.obuf ∈ writes c then [] else s.obuf := rfl
@[simp] theorem clearOutputs_istage (c : Command) (s : State) : (clearOutputs c s).istage = if Buffer.ibuf ∈ writes c then [] else s.istage := rfl
@[simp] theorem clearOutputs_bstage (c : Command) (s : State) : (clearOutputs c s).bstage = if Buffer.bbuf ∈ writes c then [] else s.bstage := rfl
@[simp] theorem clearOutputs_done (c : Command) (s : State) : (clearOutputs c s).done = s.done := rfl
@[simp] theorem clearOutputs_err (c : Command) (s : State) : (clearOutputs c s).err = s.err := rfl
@[simp] theorem clearOutputs_errCode (c : Command) (s : State) : (clearOutputs c s).errCode = s.errCode := rfl
@[simp] theorem clearOutputs_errClass (c : Command) (s : State) : (clearOutputs c s).errClass = s.errClass := rfl
@[simp] theorem clearOutputs_errChar (c : Command) (s : State) : (clearOutputs c s).errChar = s.errChar := rfl
@[simp] theorem clearOutputs_engine (c : Command) (s : State) : (clearOutputs c s).engine = s.engine := rfl
@[simp] theorem clearOutputs_idx (c : Command) (s : State) : (clearOutputs c s).idx = s.idx := rfl
@[simp] theorem clearOutputs_pos (c : Command) (s : State) : (clearOutputs c s).pos = s.pos := rfl
@[simp] theorem clearOutputs_ltrunc (c : Command) (s : State) : (clearOutputs c s).ltrunc = s.ltrunc := rfl
@[simp] theorem clearOutputs_rcnt (c : Command) (s : State) : (clearOutputs c s).rcnt = s.rcnt := rfl
@[simp] theorem clearOutputs_rval (c : Command) (s : State) : (clearOutputs c s).rval = s.rval := rfl
@[simp] theorem clearOutputs_tally (c : Command) (s : State) : (clearOutputs c s).tally = s.tally := rfl
@[simp] theorem clearOutputs_draws (c : Command) (s : State) : (clearOutputs c s).draws = s.draws := rfl
@[simp] theorem clearOutputs_host (c : Command) (s : State) : (clearOutputs c s).host = s.host := rfl

/-! `takeFault` -/

@[simp] theorem takeFault_cfg (c : Command) (f : CodecFault) (s : State) : (takeFault c f s).cfg = s.cfg := rfl
@[simp] theorem takeFault_ibuf (c : Command) (f : CodecFault) (s : State) : (takeFault c f s).ibuf = if Buffer.ibuf ∈ writes c then [] else s.ibuf := rfl
@[simp] theorem takeFault_bbuf (c : Command) (f : CodecFault) (s : State) : (takeFault c f s).bbuf = if Buffer.bbuf ∈ writes c then [] else s.bbuf := rfl
@[simp] theorem takeFault_vbuf (c : Command) (f : CodecFault) (s : State) : (takeFault c f s).vbuf = if Buffer.vbuf ∈ writes c then [] else s.vbuf := rfl
@[simp] theorem takeFault_obuf (c : Command) (f : CodecFault) (s : State) : (takeFault c f s).obuf = if Buffer.obuf ∈ writes c then [] else s.obuf := rfl
@[simp] theorem takeFault_istage (c : Command) (f : CodecFault) (s : State) : (takeFault c f s).istage = if Buffer.ibuf ∈ writes c then [] else s.istage := rfl
@[simp] theorem takeFault_bstage (c : Command) (f : CodecFault) (s : State) : (takeFault c f s).bstage = if Buffer.bbuf ∈ writes c then [] else s.bstage := rfl
@[simp] theorem takeFault_done (c : Command) (f : CodecFault) (s : State) : (takeFault c f s).done = true := rfl
@[simp] theorem takeFault_err (c : Command) (f : CodecFault) (s : State) : (takeFault c f s).err = true := rfl
@[simp] theorem takeFault_errCode (c : Command) (f : CodecFault) (s : State) : (takeFault c f s).errCode = faultCode f := rfl
@[simp] theorem takeFault_errClass (c : Command) (f : CodecFault) (s : State) : (takeFault c f s).errClass = faultClass f := rfl
@[simp] theorem takeFault_errChar (c : Command) (f : CodecFault) (s : State) : (takeFault c f s).errChar = faultChar f := rfl
@[simp] theorem takeFault_engine (c : Command) (f : CodecFault) (s : State) : (takeFault c f s).engine = .idle := rfl
@[simp] theorem takeFault_idx (c : Command) (f : CodecFault) (s : State) : (takeFault c f s).idx = 0 := rfl
@[simp] theorem takeFault_pos (c : Command) (f : CodecFault) (s : State) : (takeFault c f s).pos = 0 := rfl
@[simp] theorem takeFault_ltrunc (c : Command) (f : CodecFault) (s : State) : (takeFault c f s).ltrunc = 0 := rfl
@[simp] theorem takeFault_rcnt (c : Command) (f : CodecFault) (s : State) : (takeFault c f s).rcnt = 0 := rfl
@[simp] theorem takeFault_rval (c : Command) (f : CodecFault) (s : State) : (takeFault c f s).rval = 0 := rfl
@[simp] theorem takeFault_tally (c : Command) (f : CodecFault) (s : State) : (takeFault c f s).tally = [] := rfl
@[simp] theorem takeFault_draws (c : Command) (f : CodecFault) (s : State) : (takeFault c f s).draws = s.draws := rfl
@[simp] theorem takeFault_host (c : Command) (f : CodecFault) (s : State) : (takeFault c f s).host = s.host := rfl

/-! `resetBlock`: every field of the block is at its reset value (R38) -/

/-! `resetBlock` -/

@[simp] theorem resetBlock_cfg (s : State) : (resetBlock s).cfg = s.cfg := rfl
@[simp] theorem resetBlock_ibuf (s : State) : (resetBlock s).ibuf = [] := rfl
@[simp] theorem resetBlock_bbuf (s : State) : (resetBlock s).bbuf = [] := rfl
@[simp] theorem resetBlock_vbuf (s : State) : (resetBlock s).vbuf = [] := rfl
@[simp] theorem resetBlock_obuf (s : State) : (resetBlock s).obuf = [] := rfl
@[simp] theorem resetBlock_istage (s : State) : (resetBlock s).istage = [] := rfl
@[simp] theorem resetBlock_bstage (s : State) : (resetBlock s).bstage = [] := rfl
@[simp] theorem resetBlock_done (s : State) : (resetBlock s).done = false := rfl
@[simp] theorem resetBlock_err (s : State) : (resetBlock s).err = false := rfl
@[simp] theorem resetBlock_errCode (s : State) : (resetBlock s).errCode = 0 := rfl
@[simp] theorem resetBlock_errClass (s : State) : (resetBlock s).errClass = 0 := rfl
@[simp] theorem resetBlock_errChar (s : State) : (resetBlock s).errChar = 0 := rfl
@[simp] theorem resetBlock_engine (s : State) : (resetBlock s).engine = .idle := rfl
@[simp] theorem resetBlock_idx (s : State) : (resetBlock s).idx = 0 := rfl
@[simp] theorem resetBlock_pos (s : State) : (resetBlock s).pos = 0 := rfl
@[simp] theorem resetBlock_ltrunc (s : State) : (resetBlock s).ltrunc = 0 := rfl
@[simp] theorem resetBlock_rcnt (s : State) : (resetBlock s).rcnt = 0 := rfl
@[simp] theorem resetBlock_rval (s : State) : (resetBlock s).rval = 0 := rfl
@[simp] theorem resetBlock_tally (s : State) : (resetBlock s).tally = [] := rfl
@[simp] theorem resetBlock_draws (s : State) : (resetBlock s).draws = s.draws := rfl
@[simp] theorem resetBlock_host (s : State) : (resetBlock s).host = s.host := rfl

/-! `draw` -/

@[simp] theorem draw_cfg (s : State) : (draw s).cfg = s.cfg := rfl
@[simp] theorem draw_ibuf (s : State) : (draw s).ibuf = s.ibuf := rfl
@[simp] theorem draw_bbuf (s : State) : (draw s).bbuf = s.bbuf := rfl
@[simp] theorem draw_vbuf (s : State) : (draw s).vbuf = s.vbuf := rfl
@[simp] theorem draw_obuf (s : State) : (draw s).obuf = s.obuf := rfl
@[simp] theorem draw_istage (s : State) : (draw s).istage = s.istage := rfl
@[simp] theorem draw_bstage (s : State) : (draw s).bstage = s.bstage := rfl
@[simp] theorem draw_done (s : State) : (draw s).done = s.done := rfl
@[simp] theorem draw_err (s : State) : (draw s).err = s.err := rfl
@[simp] theorem draw_errCode (s : State) : (draw s).errCode = s.errCode := rfl
@[simp] theorem draw_errClass (s : State) : (draw s).errClass = s.errClass := rfl
@[simp] theorem draw_errChar (s : State) : (draw s).errChar = s.errChar := rfl
@[simp] theorem draw_engine (s : State) : (draw s).engine = s.engine := rfl
@[simp] theorem draw_idx (s : State) : (draw s).idx = s.idx := rfl
@[simp] theorem draw_pos (s : State) : (draw s).pos = s.pos := rfl
@[simp] theorem draw_ltrunc (s : State) : (draw s).ltrunc = s.ltrunc := rfl
@[simp] theorem draw_rcnt (s : State) : (draw s).rcnt = s.rcnt := rfl
@[simp] theorem draw_rval (s : State) : (draw s).rval = s.rval := rfl
@[simp] theorem draw_tally (s : State) : (draw s).tally = s.tally := rfl
@[simp] theorem draw_draws (s : State) : (draw s).draws = s.draws + 1 := rfl
@[simp] theorem draw_host (s : State) : (draw s).host = s.host := rfl

/-! `beginScan` -/

@[simp] theorem beginScan_cfg (c : Command) (s : State) : (beginScan c s).cfg = s.cfg := rfl
@[simp] theorem beginScan_ibuf (c : Command) (s : State) : (beginScan c s).ibuf = s.ibuf := rfl
@[simp] theorem beginScan_bbuf (c : Command) (s : State) : (beginScan c s).bbuf = s.bbuf := rfl
@[simp] theorem beginScan_vbuf (c : Command) (s : State) : (beginScan c s).vbuf = s.vbuf := rfl
@[simp] theorem beginScan_obuf (c : Command) (s : State) : (beginScan c s).obuf = s.obuf := rfl
@[simp] theorem beginScan_istage (c : Command) (s : State) : (beginScan c s).istage = s.istage := rfl
@[simp] theorem beginScan_bstage (c : Command) (s : State) : (beginScan c s).bstage = s.bstage := rfl
@[simp] theorem beginScan_done (c : Command) (s : State) : (beginScan c s).done = s.done := rfl
@[simp] theorem beginScan_err (c : Command) (s : State) : (beginScan c s).err = s.err := rfl
@[simp] theorem beginScan_errCode (c : Command) (s : State) : (beginScan c s).errCode = s.errCode := rfl
@[simp] theorem beginScan_errClass (c : Command) (s : State) : (beginScan c s).errClass = s.errClass := rfl
@[simp] theorem beginScan_errChar (c : Command) (s : State) : (beginScan c s).errChar = s.errChar := rfl
@[simp] theorem beginScan_engine (c : Command) (s : State) : (beginScan c s).engine = .fields c .S := rfl
@[simp] theorem beginScan_idx (c : Command) (s : State) : (beginScan c s).idx = s.idx := rfl
@[simp] theorem beginScan_pos (c : Command) (s : State) : (beginScan c s).pos = 0 := rfl
@[simp] theorem beginScan_ltrunc (c : Command) (s : State) : (beginScan c s).ltrunc = BitVec.ofNat 32 (s.bbuf.length - s.bbuf.length % 8) := rfl
@[simp] theorem beginScan_rcnt (c : Command) (s : State) : (beginScan c s).rcnt = s.rcnt := rfl
@[simp] theorem beginScan_rval (c : Command) (s : State) : (beginScan c s).rval = s.rval := rfl
@[simp] theorem beginScan_tally (c : Command) (s : State) : (beginScan c s).tally = s.tally := rfl
@[simp] theorem beginScan_draws (c : Command) (s : State) : (beginScan c s).draws = s.draws := rfl
@[simp] theorem beginScan_host (c : Command) (s : State) : (beginScan c s).host = s.host := rfl

end Sys2Proof.Machine
end

