-- ==== Sys2Proof/Laws/Ops.lean ====
section
/-! SUPPORT. For each shared operation, what it can do, once. -/

namespace Sys2Proof.Machine

@[simp] theorem andThen_ok (s : State) (k : State → Except CodecFault State) : andThen (.ok s) k = k s := rfl

@[simp] theorem andThen_error (f : CodecFault) (k : State → Except CodecFault State) : andThen (.error f) k = .error f := rfl

/-- Two stages end well when both do. -/
theorem andThen_eq_ok {r : Except CodecFault State} {k : State → Except CodecFault State} {t : State}
    (h : andThen r k = .ok t) : ∃ s, r = .ok s ∧ k s = .ok t := by
  cases r with
  | ok s => exact ⟨s, rfl, h⟩
  | error f => cases h

/-- Two stages fail where the first does, or where the second does after it. -/
theorem andThen_eq_error {r : Except CodecFault State} {k : State → Except CodecFault State} {f : CodecFault}
    (h : andThen r k = .error f) : r = .error f ∨ ∃ s, r = .ok s ∧ k s = .error f := by
  cases r with
  | ok s => exact .inr ⟨s, rfl, h⟩
  | error g => exact .inl h

theorem appendBits_fits {b : List Bool} {s : State} (h : s.bbuf.length + b.length ≤ s.cfg.bbufCap.toNat) :
    appendBits b s = .ok { s with bbuf := s.bbuf ++ b } := if_pos h

theorem appendBits_full {b : List Bool} {s : State} (h : s.cfg.bbufCap.toNat < s.bbuf.length + b.length) :
    appendBits b s = .error .capacityExceeded := if_neg (Nat.not_le.mpr h)

theorem appendRun_fits {n : Nat} {v : Val} {s : State} (h : n = 0 ∨ s.vbuf.length + n ≤ s.cfg.vbufCap.toNat) :
    appendRun n v s = .ok { s with vbuf := s.vbuf ++ List.replicate n v } := if_pos h

theorem appendRun_full {n : Nat} {v : Val} {s : State} (h : ¬ (n = 0 ∨ s.vbuf.length + n ≤ s.cfg.vbufCap.toNat)) :
    appendRun n v s = .error .capacityExceeded := if_neg h

theorem putBits_fits {b : List Bool} {s : State} (h : b.length ≤ s.cfg.bbufCap.toNat) :
    putBits b s = .ok { s with bbuf := b } := if_pos h

theorem putBits_full {b : List Bool} {s : State} (h : s.cfg.bbufCap.toNat < b.length) :
    putBits b s = .error .capacityExceeded := if_neg (Nat.not_le.mpr h)

theorem putText_fits {b : List Symbol} {s : State} (h : b.length ≤ s.cfg.obufCap.toNat) :
    putText b s = .ok { s with obuf := b } := if_pos h

theorem putText_full {b : List Symbol} {s : State} (h : s.cfg.obufCap.toNat < b.length) :
    putText b s = .error .capacityExceeded := if_neg (Nat.not_le.mpr h)

/-- The repeated append of R103 is `appendRun`: n appends of one value succeed together. -/
theorem appendRun_succ {n : Nat} {v : Val} {s : State} (h : s.vbuf.length ≤ s.cfg.vbufCap.toNat) :
    appendRun (n + 1) v s = andThen (appendRun 1 v s) (appendRun n v) := by
  by_cases h1 : s.vbuf.length + 1 ≤ s.cfg.vbufCap.toNat
  · rw [appendRun_fits (.inr h1), andThen_ok]
    by_cases h2 : s.vbuf.length + (n + 1) ≤ s.cfg.vbufCap.toNat
    · rw [appendRun_fits (.inr h2), appendRun_fits (by right; simp; omega)]
      simp [List.replicate_succ]
    · rw [appendRun_full (by omega), appendRun_full (by simp; omega)]
  · rw [appendRun_full (n := n + 1) (by omega), appendRun_full (n := 1) (by omega), andThen_error]

theorem needBits_enough {n : Nat} {k : State → Except CodecFault State} {s : State}
    (h : s.pos.toNat + n ≤ s.ltrunc.toNat) : needBits n k s = k s := by
  rw [needBits, if_neg]
  rw [remaining]
  omega

theorem needBits_short {n : Nat} {k : State → Except CodecFault State} {s : State}
    (hn : 0 < n) (h : s.ltrunc.toNat < s.pos.toNat + n) : needBits n k s = .error .unexpectedEndOfInput := by
  rw [needBits, if_pos]
  rw [remaining]
  omega

theorem settle_ok (c : Command) (s t : State) : settle c s (.ok t) = .next t := rfl

theorem settle_error (c : Command) (s : State) (f : CodecFault) : settle c s (.error f) = .next (takeFault c f s) := rfl

theorem frame_ok {c : Command} {run : State → Except CodecFault State} {s t : State}
    (h : run (clearOutputs c s) = .ok t) : frame c run s = complete t := by
  rw [frame, h]

theorem frame_error {c : Command} {run : State → Except CodecFault State} {s : State} {f : CodecFault}
    (h : run (clearOutputs c s) = .error f) : frame c run s = takeFault c f s := by
  rw [frame, h]

/-- A framed command completes or takes a fault, and nothing else. -/
theorem frame_cases (c : Command) (run : State → Except CodecFault State) (s : State) :
    (∃ t, run (clearOutputs c s) = .ok t ∧ frame c run s = complete t) ∨
    (∃ f, run (clearOutputs c s) = .error f ∧ frame c run s = takeFault c f s) := by
  cases h : run (clearOutputs c s) with
  | ok t => exact .inl ⟨t, rfl, frame_ok h⟩
  | error f => exact .inr ⟨f, rfl, frame_error h⟩

theorem whenIdle_idle {s : State} {f : State → State} (h : s.engine = .idle) : whenIdle s f = .next (f s) := if_pos h

theorem whenIdle_busy {s : State} {f : State → State} (h : s.engine ≠ .idle) : whenIdle s f = .next s := if_neg h

theorem atField_fields {s : State} {c : Command} {p : Position}
    {k : Command → Position → Host.Outcome State Fault Refusal} (h : s.engine = .fields c p) : atField s k = k c p := by
  rw [atField, h]

theorem atPosition_fields {s : State} {c : Command} {p : Position}
    {k : Command → Host.Outcome State Fault Refusal} (h : s.engine = .fields c p) : atPosition p s k = k c := by
  rw [atPosition, atField_fields h, if_pos rfl]

theorem atSymbol_symbols {s : State} {c : Command}
    {k : Command → Host.Outcome State Fault Refusal} (h : s.engine = .symbols c) : atSymbol s k = k c := by
  rw [atSymbol, h]

/-- Two faults of one command from one state are the same fault. -/
theorem takeFault_inj {c : Command} {f g : CodecFault} {s : State} (h : takeFault c f s = takeFault c g s) : f = g := by
  have hc : faultCode f = faultCode g := congrArg State.errCode h
  have hx : faultChar f = faultChar g := congrArg State.errChar h
  cases f <;> cases g <;> simp [faultCode] at hc <;> simp [faultChar] at hx <;> simp [hx]

/-- Code 0 is no fault's (R200). -/
theorem faultCode_ne_zero (f : CodecFault) : faultCode f ≠ 0 := by cases f <;> simp [faultCode]

end Sys2Proof.Machine
end

