-- ==== Sys2Proof/Laws/Memory.lean ====
section
/-! SUPPORT. Every operation over the buffers keeps their canonical form, `Memory.wf`; the reset state has it (R37, R39). -/

namespace Sys2Proof.Machine

theorem Memory.wf_iff (s : State) : Memory.wf s = true ↔
    s.ibuf.length ≤ s.cfg.ibufCap.toNat ∧ s.bbuf.length ≤ s.cfg.bbufCap.toNat ∧
    s.vbuf.length ≤ s.cfg.vbufCap.toNat ∧ s.obuf.length ≤ s.cfg.obufCap.toNat ∧
    stageWf s.ibuf.length s.cfg.ibufCap.toNat s.istage = true ∧ stageWf s.bbuf.length s.cfg.bbufCap.toNat s.bstage = true := by
  simp [Memory.wf, and_assoc]

/-! Staged entries. -/

@[simp] theorem stageWf_nil {α : Type} (lo hi : Nat) : stageWf lo hi ([] : List (Nat × α)) = true := rfl

theorem stageWf_cons {α : Type} (lo hi i : Nat) (x : α) (rest : List (Nat × α)) :
    stageWf lo hi ((i, x) :: rest) = true ↔ lo ≤ i ∧ i < hi ∧ stageWf (i + 1) hi rest = true := by
  simp [stageWf, and_assoc]

/-- A lower bound may be lowered. -/
theorem stageWf_mono {α : Type} {lo lo' hi : Nat} {l : List (Nat × α)} (h : lo' ≤ lo) (hw : stageWf lo hi l = true) :
    stageWf lo' hi l = true := by
  cases l with
  | nil => rfl
  | cons e rest =>
    obtain ⟨i, x⟩ := e
    rw [stageWf_cons] at hw ⊢
    exact ⟨by omega, hw.2⟩

/-- Every staged index lies at or beyond the lower bound. -/
theorem stageWf_bound {α : Type} {lo hi : Nat} {l : List (Nat × α)} (hw : stageWf lo hi l = true) :
    ∀ e ∈ l, lo ≤ e.1 ∧ e.1 < hi := by
  induction l generalizing lo with
  | nil => simp
  | cons e rest ih =>
    obtain ⟨i, x⟩ := e
    rw [stageWf_cons] at hw
    intro e he
    rcases List.mem_cons.mp he with rfl | he
    · exact ⟨hw.1, hw.2.1⟩
    · have := ih hw.2.2 e he
      exact ⟨by omega, this.2⟩

theorem stageWf_stagePut {α : Type} {lo hi i : Nat} (x : α) {l : List (Nat × α)} (h : lo ≤ i) (hi' : i < hi)
    (hw : stageWf lo hi l = true) : stageWf lo hi (stagePut i x l) = true := by
  induction l generalizing lo with
  | nil => rw [stagePut, stageWf_cons]; exact ⟨h, hi', rfl⟩
  | cons e rest ih =>
    obtain ⟨j, y⟩ := e
    have hw' := (stageWf_cons _ _ _ _ _).mp hw
    rw [stagePut]
    split
    · rw [stageWf_cons, stageWf_cons]
      exact ⟨h, hi', by omega, hw'.2.1, hw'.2.2⟩
    · split
      · rename_i heq
        subst heq
        rw [stageWf_cons]
        exact ⟨h, hi', hw'.2.2⟩
      · rw [stageWf_cons]
        exact ⟨hw'.1, hw'.2.1, ih (by omega) hw'.2.2⟩

theorem stageWf_filter {α : Type} {lo hi n : Nat} {l : List (Nat × α)} (hw : stageWf lo hi l = true) :
    stageWf n hi (l.filter (fun e => n ≤ e.1)) = true := by
  induction l generalizing lo with
  | nil => rfl
  | cons e rest ih =>
    obtain ⟨i, x⟩ := e
    have hw' := (stageWf_cons _ _ _ _ _).mp hw
    by_cases hn : n ≤ i
    · have hall : rest.filter (fun e => n ≤ e.1) = rest :=
        List.filter_eq_self.mpr fun e he => by
          have := stageWf_bound hw'.2.2 e he
          simpa using by omega
      rw [List.filter_cons_of_pos (by simpa using hn), hall, stageWf_cons]
      exact ⟨hn, hw'.2⟩
    · rw [List.filter_cons_of_neg (by simpa using hn)]
      exact ih hw'.2.2

/-- Entries staged by a host that shortens a buffer come before those staged already. -/
theorem stageWf_numbered_append {α : Type} {lo hi : Nat} (xs : List α) {l : List (Nat × α)} (h : lo + xs.length ≤ hi)
    (hw : stageWf (lo + xs.length) hi l = true) : stageWf lo hi (numbered lo xs ++ l) = true := by
  induction xs generalizing lo with
  | nil => simpa [numbered] using hw
  | cons x xs ih =>
    simp only [List.length_cons] at h hw
    rw [numbered, List.cons_append, stageWf_cons]
    refine ⟨le_rfl, by omega, ih (by omega) ?_⟩
    rwa [Nat.add_assoc, Nat.add_comm 1]

/-- What a host write of a length leaves: a buffer of that length, staged entries beyond it. -/
theorem setLength_spec {α : Type} (free : Nat → α) {n hi : Nat} {buf : List α} {stage : List (Nat × α)}
    (hb : buf.length ≤ hi) (hw : stageWf buf.length hi stage = true) :
    (setLength free n buf stage).1.length = n ∧ stageWf n hi (setLength free n buf stage).2 = true := by
  rw [setLength]
  split
  · rename_i h
    exact ⟨h.1.symm, rfl⟩
  · split
    · rename_i h
      have hl : n + (buf.drop n).length = buf.length := by simp; omega
      exact ⟨by simp [h], stageWf_numbered_append _ (by omega) (by rwa [hl])⟩
    · exact ⟨by simp; omega, stageWf_filter hw⟩

/-- Entries below both lengths keep their values. -/
theorem setLength_take {α : Type} (free : Nat → α) (n : Nat) (buf : List α) (stage : List (Nat × α)) :
    (setLength free n buf stage).1.take buf.length = buf.take n := by
  rw [setLength]
  split
  · rename_i h
    simp [h.1]
  · split
    · simp [List.take_take]; omega
    · rename_i h
      rw [List.take_left' rfl, List.take_of_length_le (by omega)]

/-- Entry `k` of a buffer as a length that covers it sees it: below the length it has, else what is staged there. -/
def entryAt {α : Type} (buf : List α) (stage : List (Nat × α)) (k : Nat) : Option α :=
  if k < buf.length then buf[k]? else staged k stage

/-- Writing a length, where every entry it covers has been written, gives exactly those entries (R233). -/
theorem setLength_written {α : Type} (free : Nat → α) {buf text : List α} {stage : List (Nat × α)}
    (h : ∀ k, k < text.length → entryAt buf stage k = text[k]?) : (setLength free text.length buf stage).1 = text := by
  rw [setLength]
  split
  · rename_i h0
    exact (List.eq_nil_of_length_eq_zero h0.1).symm
  · apply List.ext_getElem?
    intro k
    split
    · by_cases hk : k < text.length
      · have := h k hk
        rw [entryAt, if_pos (by omega)] at this
        simp [hk, this]
      · rw [List.getElem?_eq_none (by simp; omega), List.getElem?_eq_none (by omega)]
    · by_cases hk : k < text.length
      · have := h k hk
        rw [entryAt] at this
        split at this
        · rename_i hb
          rw [List.getElem?_append_left hb, this]
        · rw [List.getElem?_append_right (by omega)]
          rw [List.getElem?_eq_getElem hk] at this
          simp [show k - buf.length < text.length - buf.length by omega,
            show buf.length + (k - buf.length) = k by omega, this]
      · rw [List.getElem?_eq_none (by simp; omega), List.getElem?_eq_none (by omega)]

/-- The last host write to an index is the one staged there. -/
theorem staged_stagePut {α : Type} (i j : Nat) (x : α) (l : List (Nat × α)) :
    staged j (stagePut i x l) = if j = i then some x else staged j l := by
  induction l with
  | nil => simp [stagePut, staged]
  | cons e rest ih =>
    obtain ⟨k, y⟩ := e
    rw [stagePut]
    split
    · simp only [staged]
    · split
      · rename_i h
        subst h
        simp only [staged]
        split <;> rfl
      · rename_i h
        simp only [staged, ih]
        by_cases hj : j = k
        · simp [hj, Ne.symm h]
        · simp [hj]

/-! The operations. -/

theorem clearOutputs_wf {s : State} (c : Command) (h : Memory.wf s = true) : Memory.wf (clearOutputs c s) = true := by
  rw [Memory.wf_iff] at h ⊢
  cases c <;> simp [clearOutputs, writes] <;> simp [h]

theorem park_wf {s : State} (h : Memory.wf s = true) : Memory.wf (park s) = true := h

theorem complete_wf {s : State} (h : Memory.wf s = true) : Memory.wf (complete s) = true := h

theorem takeFault_wf {s : State} (c : Command) (f : CodecFault) (h : Memory.wf s = true) :
    Memory.wf (takeFault c f s) = true := clearOutputs_wf c h

theorem resetBlock_wf (s : State) : Memory.wf (resetBlock s) = true := by
  simp [Memory.wf_iff, resetBlock, State.reset]

theorem reset_wf : Memory.wf State.reset = true := by decide

/-- An append to BBUF; no entry of BBUF is staged while a command writes it. -/
theorem appendBits_wf {b : List Bool} {s t : State} (hs : s.bstage = []) (h : Memory.wf s = true)
    (ht : appendBits b s = .ok t) : Memory.wf t = true := by
  rw [appendBits] at ht
  split at ht
  · rename_i hf
    cases ht
    rw [Memory.wf_iff] at h ⊢
    simpa [h, hs] using hf
  · cases ht

theorem appendRun_wf {n : Nat} {v : Val} {s t : State} (h : Memory.wf s = true) (ht : appendRun n v s = .ok t) :
    Memory.wf t = true := by
  rw [appendRun] at ht
  split at ht
  · rename_i hf
    cases ht
    rw [Memory.wf_iff] at h ⊢
    refine ⟨h.1, h.2.1, ?_, h.2.2.2⟩
    simp only [List.length_append, List.length_replicate]
    omega
  · cases ht

theorem putBits_wf {b : List Bool} {s t : State} (hs : s.bstage = []) (h : Memory.wf s = true)
    (ht : putBits b s = .ok t) : Memory.wf t = true := by
  rw [putBits] at ht
  split at ht
  · rename_i hf
    cases ht
    rw [Memory.wf_iff] at h ⊢
    simpa [h, hs] using hf
  · cases ht

theorem putText_wf {b : List Symbol} {s t : State} (h : Memory.wf s = true) (ht : putText b s = .ok t) :
    Memory.wf t = true := by
  rw [putText] at ht
  split at ht
  · rename_i hf
    cases ht
    rw [Memory.wf_iff] at h ⊢
    exact ⟨h.1, h.2.1, h.2.2.1, hf, h.2.2.2.2⟩
  · cases ht

theorem writeIlen_wf {s : State} (v : Len) (h : Memory.wf s = true) : Memory.wf (writeIlen v s) = true := by
  rw [writeIlen]
  split
  · rename_i hv
    rw [BitVec.le_def] at hv
    rw [Memory.wf_iff] at h ⊢
    have hl := setLength_spec (Config.unwrittenSymbol s.draws) (n := v.toNat) h.1 h.2.2.2.2.1
    exact ⟨by simp only; omega, h.2.1, h.2.2.1, h.2.2.2.1, by simp only; rw [hl.1]; exact hl.2, h.2.2.2.2.2⟩
  · exact h

theorem writeBlen_wf {s : State} (v : Len) (h : Memory.wf s = true) : Memory.wf (writeBlen v s) = true := by
  rw [writeBlen]
  split
  · rename_i hv
    rw [BitVec.le_def] at hv
    rw [Memory.wf_iff] at h ⊢
    have hl := setLength_spec (Config.unwrittenBit s.draws) (n := v.toNat) h.2.1 h.2.2.2.2.2
    exact ⟨h.1, by simp only; omega, h.2.2.1, h.2.2.2.1, h.2.2.2.2.1, by simp only; rw [hl.1]; exact hl.2⟩
  · exact h

theorem writeReg_wf {s : State} (r : Reg) (v : BitVec 32) (h : Memory.wf s = true) : Memory.wf (writeReg r v s) = true := by
  cases r
  case ilen => exact writeIlen_wf v h
  case blen => exact writeBlen_wf v h
  all_goals exact h

theorem writeIbuf_wf {s t : State} {i : Len} {c : Symbol} (h : Memory.wf s = true) (ht : writeIbuf i c s = .next t) :
    Memory.wf t = true := by
  rw [writeIbuf] at ht
  split at ht
  · cases ht
  · rename_i hc
    rw [BitVec.le_def] at hc
    rw [Memory.wf_iff] at h
    split at ht
    · cases ht
      rw [Memory.wf_iff]
      simpa using h
    · cases ht
      rw [Memory.wf_iff]
      exact ⟨h.1, h.2.1, h.2.2.1, h.2.2.2.1, stageWf_stagePut _ (by simp only; omega) (by simp only; omega) h.2.2.2.2.1, h.2.2.2.2.2⟩

theorem writeBbuf_wf {s t : State} {i : Len} {b : Bool} (h : Memory.wf s = true) (ht : writeBbuf i b s = .next t) :
    Memory.wf t = true := by
  rw [writeBbuf] at ht
  split at ht
  · cases ht
  · rename_i hc
    rw [BitVec.le_def] at hc
    rw [Memory.wf_iff] at h
    split at ht
    · cases ht
      rw [Memory.wf_iff]
      simpa using h
    · cases ht
      rw [Memory.wf_iff]
      exact ⟨h.1, h.2.1, h.2.2.1, h.2.2.2.1, h.2.2.2.2.1, stageWf_stagePut _ (by simp only; omega) (by simp only; omega) h.2.2.2.2.2⟩

end Sys2Proof.Machine
end

