-- ==== Sys2Proof/Laws/PerInstr.lean ====
section
/-! SUPPORT. Per instruction: the encoding of a well-formed instruction is a word of its row of spec/opcode_table.json. -/

namespace Sys2Proof.Laws

/-- The fixed bits of a row: the row's width, the lowest fixed bit, and what the bits from there up read (the "width" and
"fixed" entries of spec/opcode_table.json). -/
structure FixedBits where
  width : Nat
  lo : Nat
  value : Nat
deriving DecidableEq, Repr

/-- The row of an instruction. -/
def fixedBits (i : Instr) : FixedBits :=
  match i with
  | .v8 _ => ⟨8, 7, 0⟩
  | .v16 _ => ⟨16, 14, 2⟩
  | .v16x _ => ⟨16, 14, 3⟩
  | .c8 _ => ⟨8, 5, 6⟩
  | .c16 _ => ⟨16, 13, 7⟩
  | .symLo _ => ⟨21, 5, 1⟩
  | .symHi _ => ⟨21, 5, 2⟩
  | .nop => ⟨3, 0, 0⟩
  | .pack => ⟨3, 0, 1⟩
  | .unpack => ⟨3, 0, 2⟩
  | .tenc => ⟨3, 0, 3⟩
  | .tdec => ⟨3, 0, 4⟩
  | .densify => ⟨3, 0, 5⟩
  | .revert => ⟨3, 0, 6⟩
  | .clear => ⟨3, 0, 7⟩

/-- The number of a code. -/
def codeNumber (w : Code) : Nat :=
  match w with
  | .field b => num b
  | .symbol c => c.toNat
  | .command op => op.toNat

/-- A well-formed instruction's code has the fixed bits of its row and fits the row's width. -/
def FitsTable.Statement (i : Instr) : Prop :=
  i.wellFormed = true →
    (fixedBits i).width = i.width ∧ codeNumber (encode i) / 2 ^ (fixedBits i).lo = (fixedBits i).value ∧
    codeNumber (encode i) < 2 ^ (fixedBits i).width

theorem codeNumber_v8 (v : BitVec 7) : codeNumber (encode (.v8 v)) = v.toNat := by
  simp [codeNumber, encode, bitsV8]; omega

theorem codeNumber_bitsV16 (v : BitVec 15) : num (bitsV16 v) = 0x8000 + v.toNat := by
  rw [bitsV16, num_bin, toNat_xor_maskV16]

theorem codeNumber_bitsC8 (c : BitVec 6) : num (bitsC8 c) = 0xC0 + c.toNat := by
  rw [bitsC8, num_bin, toNat_xor_maskC8]

theorem codeNumber_bitsC16 (c : BitVec 13) : num (bitsC16 c) = 0xE000 + c.toNat := by
  rw [bitsC16, num_bin, toNat_xor_maskC16]

theorem FitsTable.v8 (v : BitVec 7) : FitsTable.Statement (.v8 v) := by
  intro _
  have hv := v.isLt
  rw [codeNumber_v8]
  norm_num [fixedBits, Instr.width]
  omega

theorem FitsTable.v16 (v : BitVec 15) : FitsTable.Statement (.v16 v) := by
  intro h
  have hv : v.toNat < 0x4000 := by simpa [Instr.wellFormed, BitVec.lt_def] using h
  norm_num [codeNumber, encode, codeNumber_bitsV16, fixedBits, Instr.width]
  omega

theorem FitsTable.v16x (v : BitVec 15) : FitsTable.Statement (.v16x v) := by
  intro h
  have hv : 0x4000 ≤ v.toNat := by simpa [Instr.wellFormed, BitVec.le_def] using h
  norm_num [codeNumber, encode, codeNumber_bitsV16, fixedBits, Instr.width]
  omega

theorem FitsTable.c8 (c : BitVec 6) : FitsTable.Statement (.c8 c) := by
  intro h
  have hc : c.toNat < 32 := by simpa [Instr.wellFormed, BitVec.lt_def] using h
  norm_num [codeNumber, encode, codeNumber_bitsC8, fixedBits, Instr.width]
  omega

theorem FitsTable.c16 (c : BitVec 13) : FitsTable.Statement (.c16 c) := by
  intro _
  norm_num [codeNumber, encode, codeNumber_bitsC16, fixedBits, Instr.width]
  omega

theorem FitsTable.symLo (g : BitVec 6) : FitsTable.Statement (.symLo g) := by
  intro h
  have hg : g.toNat < 32 := by simpa [Instr.wellFormed, BitVec.lt_def] using h
  norm_num [codeNumber, encode, toNat_symbolOf, fixedBits, Instr.width]
  omega

theorem FitsTable.symHi (g : BitVec 6) : FitsTable.Statement (.symHi g) := by
  intro h
  have hg : 32 ≤ g.toNat := by simpa [Instr.wellFormed, BitVec.le_def] using h
  norm_num [codeNumber, encode, toNat_symbolOf, fixedBits, Instr.width]
  omega

theorem FitsTable.nop : FitsTable.Statement .nop := fun _ => by decide

theorem FitsTable.pack : FitsTable.Statement .pack := fun _ => by decide

theorem FitsTable.unpack : FitsTable.Statement .unpack := fun _ => by decide

theorem FitsTable.tenc : FitsTable.Statement .tenc := fun _ => by decide

theorem FitsTable.tdec : FitsTable.Statement .tdec := fun _ => by decide

theorem FitsTable.densify : FitsTable.Statement .densify := fun _ => by decide

theorem FitsTable.revert : FitsTable.Statement .revert := fun _ => by decide

theorem FitsTable.clear : FitsTable.Statement .clear := fun _ => by decide

end Sys2Proof.Laws
end

