-- ==== Sys2Proof/Laws/Scan.lean ====
section
/-! SUPPORT. The field scan: what one field does to the state, and what the scan sees of BBUF (R22, R76, R103 to R108). -/

namespace Sys2Proof

/-- A well-formed value field is read from its own bits, in every position that recognises it. -/
theorem decodeField_valueBits {p : Position} {i : Instr} (rest : List Bool) (hv : Machine.isValueField i = true)
    (hw : i.wellFormed = true) (hr : i.recognisedAt p = true) :
    decodeField p (Machine.fieldBits i ++ rest) = .ok i := by
  cases i <;> simp [Machine.isValueField] at hv
  · exact decodeField_bitsV8 _ _ _
  · simp only [Instr.wellFormed, decide_eq_true_eq] at hw
    exact (decodeField_bitsV16 _ _ _ (.inr hw)).trans (by rw [if_pos hw])
  · simp only [Instr.wellFormed, decide_eq_true_eq] at hw
    simp only [Instr.recognisedAt, decide_eq_true_eq] at hr
    exact (decodeField_bitsV16 _ _ _ (.inl hr)).trans (by rw [if_neg (by simpa using hw)])

/-- A well-formed count field is read from its own bits at a run start. -/
theorem decodeField_countBits {i : Instr} (rest : List Bool) (hc : Machine.isCountField i = true)
    (hw : i.wellFormed = true) : decodeField .S (Machine.fieldBits i ++ rest) = .ok i := by
  cases i <;> simp [Machine.isCountField] at hc
  · exact decodeField_bitsC8 _ _ (by simpa [Instr.wellFormed] using hw)
  · exact decodeField_bitsC16 _ _

namespace Machine

theorem length_fieldBits {i : Instr} (h : isValueField i = true ∨ isCountField i = true) :
    (fieldBits i).length = i.width := by
  cases i <;> simp [isValueField, isCountField] at h <;>
    simp [fieldBits, encode, Instr.width, bitsV8, bitsV16, bitsC8, bitsC16]

/-- Fields are 8 or 16 bits wide (R70). -/
theorem field_width {i : Instr} (h : isValueField i = true ∨ isCountField i = true) : i.width = 8 ∨ i.width = 16 := by
  cases i <;> simp [isValueField, isCountField] at h <;> simp [Instr.width]

/-- A value field that is not V16X is recognised everywhere; V16X in position V only. -/
theorem recognisedAt_V {i : Instr} (h : isValueField i = true) : i.recognisedAt .V = true := by
  cases i <;> simp [isValueField] at h <;> simp [Instr.recognisedAt]

@[simp] theorem runCount_S (s : State) : runCount .S s = 1 := rfl

@[simp] theorem runCount_V (s : State) : runCount .V s = s.rcnt := rfl

/-- The state after a value field whose appends fit. -/
def afterValue (c : Command) (p : Position) (i : Instr) (s : State) : State :=
  { s with
    rcnt := runCount p s
    rval := BitVec.ofNat 16 (fieldNumber i)
    pos := s.pos + BitVec.ofNat 32 i.width
    engine := .fields c .S
    vbuf := s.vbuf ++ List.replicate (runCount p s).toNat (BitVec.ofNat 16 (fieldNumber i)) }

/-- The state after a count field. -/
def afterCount (c : Command) (i : Instr) (s : State) : State :=
  { s with rcnt := BitVec.ofNat 13 (fieldNumber i), pos := s.pos + BitVec.ofNat 32 i.width, engine := .fields c .V }

/-- A value field with its bits present: its appends fit, or CapacityExceeded. -/
theorem runField_value {s : State} {c : Command} {p : Position} {i : Instr} (hv : isValueField i = true)
    (hp : i.recognisedAt p = true) (hl : s.pos.toNat + i.width ≤ s.ltrunc.toNat) :
    runField c p i s =
      if (runCount p s).toNat = 0 ∨ s.vbuf.length + (runCount p s).toNat ≤ s.cfg.vbufCap.toNat then .ok (afterValue c p i s)
      else .error .capacityExceeded := by
  cases i <;> simp [isValueField] at hv
  · rename_i v
    have e : v.setWidth 16 = BitVec.ofNat 16 v.toNat := by ext; simp
    simp only [runField, fieldV8, valueField, appendRun, e]
    rfl
  · rename_i v
    have e : v.setWidth 16 = BitVec.ofNat 16 v.toNat := by ext; simp
    simp only [runField, fieldV16]
    rw [needBits_enough (by simpa [Instr.width] using hl)]
    simp only [valueField, appendRun, e]
    rfl
  · rename_i v
    have e : v.setWidth 16 = BitVec.ofNat 16 v.toNat := by ext; simp
    simp only [Instr.recognisedAt, decide_eq_true_eq] at hp
    subst hp
    simp only [runField, fieldV16x]
    rw [needBits_enough (by simpa [Instr.width] using hl)]
    simp only [valueField, appendRun, e]
    rfl

/-- A count field with its bits present. -/
theorem runField_count {s : State} {c : Command} {p : Position} {i : Instr} (hc : isCountField i = true)
    (hl : s.pos.toNat + i.width ≤ s.ltrunc.toNat) : runField c p i s = .ok (afterCount c i s) := by
  cases i <;> simp [isCountField] at hc
  · rename_i n
    have e : n.setWidth 13 = BitVec.ofNat 13 n.toNat := by ext; simp
    simp only [runField, fieldC8, countField, e]
    rfl
  · simp only [runField, fieldC16]
    rw [needBits_enough (by simpa [Instr.width] using hl)]
    simp [countField, afterCount, fieldNumber, Instr.width]

theorem nextField_ok {s : State} {c : Command} {p : Position} {i : Instr} (h : s.engine = .fields c p)
    (hf : fetchField p s = .ok i) : nextField s = runField c p i s := by
  rw [nextField, h]; simp only [hf]

theorem nextField_error {s : State} {c : Command} {p : Position} {e : DecodeError} (h : s.engine = .fields c p)
    (hf : fetchField p s = .error e) : nextField s = .error (faultOf e) := by
  rw [nextField, h]; simp only [hf]

theorem length_visibleBits {s : State} (h : s.ltrunc.toNat ≤ s.bbuf.length) : (visibleBits s).length = remaining s := by
  simp [visibleBits, remaining, h]

/-- Past a field the scan sees what came after it. -/
theorem visibleBits_advance {s t : State} {f rest : List Bool} (hb : t.bbuf = s.bbuf) (hl : t.ltrunc = s.ltrunc)
    (hp : t.pos.toNat = s.pos.toNat + f.length) (hv : visibleBits s = f ++ rest) : visibleBits t = rest := by
  have h : visibleBits t = (visibleBits s).drop f.length := by simp [visibleBits, hb, hl, hp, List.drop_drop]
  rw [h, hv, List.drop_left]

/-- POS does not wrap below LTRUNC. -/
theorem toNat_pos_add {s : State} {w : Nat} (h : s.pos.toNat + w ≤ s.ltrunc.toNat) :
    (s.pos + BitVec.ofNat 32 w).toNat = s.pos.toNat + w := by
  have := s.ltrunc.isLt
  simp only [BitVec.toNat_add, BitVec.toNat_ofNat]
  omega

end Machine

end Sys2Proof
end

