-- ==== Sys2Proof/Laws/Step.lean ====
section
/-! SUPPORT. What the next step is about, by where the engine is. -/

namespace Sys2Proof.Machine

/-- Between commands the host's next action, taken off the list. -/
theorem fetch_host {s : State} {a : HostAction} {rest : List HostAction} (he : s.engine = .idle) (hh : s.host = a :: rest) :
    fetch s = hostAct a { s with host := rest } := by
  unfold fetch
  split
  · split
    · rename_i h; rw [hh] at h; cases h
    · rename_i h; rw [hh] at h; cases h; rfl
  · rename_i h; rw [he] at h; cases h
  · rename_i h; rw [he] at h; cases h

/-- Between commands with no action pending nothing happens. -/
theorem step_quiet {s : State} (he : s.engine = .idle) (hh : s.host = []) : step s = .next s := by
  rw [step, fetch, he]; simp only [hh]

/-- TDEC's loop over: the command goes on or completes. -/
theorem fetch_symbols_end {s : State} {c : Command} (he : s.engine = .symbols c) (hx : s.ibuf.length ≤ s.idx.toNat) :
    fetch s = .other (.next (finishSymbols c s)) := by
  rw [fetch, he]; simp only [List.getElem?_eq_none hx]

/-- The scan at a run start with nothing left: the command goes on or completes (R144). -/
theorem fetch_fields_end {s : State} {c : Command} (he : s.engine = .fields c .S) (hp : s.ltrunc ≤ s.pos) :
    fetch s = .other (.next (finishFields c s)) := by
  rw [fetch, he]; simp [hp]

/-- A symbol outside the alphabet (R86, R162). -/
theorem fetch_symbol_error {s : State} {c : Command} {x : Symbol} {e : DecodeError} (he : s.engine = .symbols c)
    (hx : s.ibuf[s.idx.toNat]? = some x) (hd : decodeSymbol x = .error e) :
    fetch s = .other (.next (takeFault c (faultOf e) s)) := by
  rw [fetch, he]; simp only [hx, hd]

/-- A field that does not fit (R84). -/
theorem fetch_field_error {s : State} {c : Command} {p : Position} {e : DecodeError} (he : s.engine = .fields c p)
    (hp : p = .S → s.pos < s.ltrunc) (hd : fetchField p s = .error e) :
    fetch s = .other (.next (takeFault c (faultOf e) s)) := by
  have hn : ¬ (p = .S ∧ s.ltrunc ≤ s.pos) := fun h => absurd (hp h.1) (BitVec.not_lt.mpr h.2)
  rw [fetch, he]; simp only [hn, if_false, hd]

theorem step_other {s : State} {o : Host.Outcome State Fault Refusal} (h : fetch s = .other o) : step s = o := by
  rw [step, h]

end Sys2Proof.Machine
end

