-- ==== Sys2Proof/Tests/Slice0.lean ====
section
/-! SUPPORT. Tests of the model. Expected values come from spec/95_test_vectors.md (ids EX, FC, FD, PK, PF, UP, TC, RV, ST) and
from the encodings of spec/30_encoding.md written out by hand; the witnesses at the end show, for every statement with
hypotheses, a state and operands that meet them. -/

namespace Sys2Proof.Tests

open Sys2Proof Sys2Proof.Machine

/-! ## Helpers -/

/-- The bits of a text of `0`s and `1`s. -/
def bits (t : List Nat) : List Bool := t.map (fun x => decide (x = 1))

/-- Code points. -/
def points (t : List Nat) : List Symbol := t.map (fun x => BitVec.ofNat 21 x)

def withText (t : List Nat) : State := { State.reset with ibuf := points t }

def withBits (t : List Nat) : State := { State.reset with bbuf := bits t }

/-- Right after reset, with these host actions pending. -/
def withHost (l : List HostAction) : State := { State.reset with host := l }

/-- Inside UNPACK's scan over these bits, at POS 0 with LTRUNC their number, in position `p`. -/
def inScan (p : Position) (t : List Nat) : State :=
  { State.reset with bbuf := bits t, engine := .fields .unpack p, ltrunc := BitVec.ofNat 32 t.length }

/-- Inside TDEC's loop over these symbols. -/
def inLoop (t : List Nat) : State := { State.reset with ibuf := points t, engine := .symbols .tdec }

/-- One field of the next state, or the value given. -/
def after {α : Type} (o : Host.Outcome State Fault Refusal) (f : State → α) (other : α) : α :=
  match o with
  | .next s => f s
  | .fault _ => other
  | .refused _ => other

def bbufAfter (o : Host.Outcome State Fault Refusal) : Option (List Bool) := after o (fun s => some s.bbuf) none
def vbufAfter (o : Host.Outcome State Fault Refusal) : Option (List Nat) :=
  after o (fun s => some (s.vbuf.map BitVec.toNat)) none
def obufAfter (o : Host.Outcome State Fault Refusal) : Option (List Nat) :=
  after o (fun s => some (s.obuf.map BitVec.toNat)) none
/-- What a Bool says of the next state, it says of a next state. -/
theorem of_after {o : Host.Outcome State Fault Refusal} {f : State → Bool} (h : after o f false = true) :
    ∃ t, o = .next t ∧ f t = true := by
  cases o with
  | next t => exact ⟨t, rfl, h⟩
  | fault r => cases h
  | refused r => cases h

/-- CODE, CLASS and ERRCHAR. -/
def errorAfter (o : Host.Outcome State Fault Refusal) : Option (Nat × Nat × Nat) :=
  after o (fun s => some (s.errCode.toNat, s.errClass.toNat, s.errChar.toNat)) none

/-! ## Well-formedness: one ill-formed term for each check -/

theorem test_v16_needs_first_payload_bit_0 : (Instr.v16 0x4000).wellFormed = false := by decide
theorem test_v16x_needs_first_payload_bit_1 : (Instr.v16x 0x3FFF).wellFormed = false := by decide
theorem test_c8_needs_first_payload_bit_0 : (Instr.c8 32).wellFormed = false := by decide
theorem test_symLo_needs_group_below_32 : (Instr.symLo 32).wellFormed = false := by decide
theorem test_symHi_needs_group_from_32 : (Instr.symHi 31).wellFormed = false := by decide

/-! ## Decoding: every constructor from a word written out from its encoding -/

/-- `0vvvvvvv` with v = 42 (R71, FD-2). -/
theorem test_decode_v8 : decodeField .S (bits [0, 0, 1, 0, 1, 0, 1, 0]) = .ok (.v8 42) := by decide
/-- `10vvvvvvvvvvvvvv` with v = 300 (R72, FD-7). -/
theorem test_decode_v16 :
    decodeField .S (bits [1, 0, 0, 0, 0, 0, 0, 1, 0, 0, 1, 0, 1, 1, 0, 0]) = .ok (.v16 300) := by decide
/-- `11vvvvvvvvvvvvvv` in position V with value 16384 (R73, FD-10). -/
theorem test_decode_v16x :
    decodeField .V (bits [1, 1, 0, 0, 0, 0, 0, 0, 0, 0, 0, 0, 0, 0, 0, 0]) = .ok (.v16x 16384) := by decide
/-- `110ccccc` with c = 31 (R74, FD-16). -/
theorem test_decode_c8 : decodeField .S (bits [1, 1, 0, 1, 1, 1, 1, 1]) = .ok (.c8 31) := by decide
/-- `111ccccccccccccc` with c = 1000 (R75, FD-20). -/
theorem test_decode_c16 :
    decodeField .S (bits [1, 1, 1, 0, 0, 0, 1, 1, 1, 1, 1, 0, 1, 0, 0, 0]) = .ok (.c16 1000) := by decide
/-- The same sixteen ones are C16 at a run start and V16X after a count (FD-21, FD-12). -/
theorem test_decode_ones :
    decodeField .S (List.replicate 16 true) = .ok (.c16 8191) ∧ decodeField .V (List.replicate 16 true) = .ok (.v16x 32767) := by
  decide
/-- Code point 42 is group 10, in the lower half (R85, R163). -/
theorem test_decode_symLo : decodeSymbol 42 = .ok (.symLo 10) := by decide
/-- Code point 80 is group 48, in the upper half (R85, R163). -/
theorem test_decode_symHi : decodeSymbol 80 = .ok (.symHi 48) := by decide
/-- 31, 96, 0 and 2097151 are outside the alphabet (TC-15, TC-16, TC-17, TC-22). -/
theorem test_decode_illegal :
    decodeSymbol 31 = .error (.illegalSymbol 31) ∧ decodeSymbol 96 = .error (.illegalSymbol 96) ∧
    decodeSymbol 0 = .error (.illegalSymbol 0) ∧ decodeSymbol 2097151 = .error (.illegalSymbol 2097151) := by decide
theorem test_decode_nop : decodeCommand 0b000 = .nop := by decide
theorem test_decode_pack : decodeCommand 0b001 = .pack := by decide
theorem test_decode_unpack : decodeCommand 0b010 = .unpack := by decide
theorem test_decode_tenc : decodeCommand 0b011 = .tenc := by decide
theorem test_decode_tdec : decodeCommand 0b100 = .tdec := by decide
theorem test_decode_densify : decodeCommand 0b101 = .densify := by decide
theorem test_decode_revert : decodeCommand 0b110 = .revert := by decide
theorem test_decode_clear : decodeCommand 0b111 = .clear := by decide
/-- The bits of a CMD write above [2:0] are ignored (R89). -/
theorem test_decode_high_bits_ignored : decodeCommand 0xFFFFFFF9 = .pack := by decide

/-! ## Words of the opcode table -/

theorem test_table_words :
    decodeTableWord 8 0x2A = some (.v8 42) ∧ decodeTableWord 16 0x812C = some (.v16 300) ∧
    decodeTableWord 16 0xC000 = some (.v16x 16384) ∧ decodeTableWord 8 0xC3 = some (.c8 3) ∧
    decodeTableWord 16 0xE020 = some (.c16 32) ∧ decodeTableWord 24 0x20 = some (.symLo 0) ∧
    decodeTableWord 24 0x40 = some (.symHi 32) ∧ decodeTableWord 8 5 = some .densify := by decide
theorem test_table_refuses :
    decodeTableWord 8 0x80 = none ∧ decodeTableWord 24 0x60 = none ∧ decodeTableWord 24 0x200020 = none := by decide
theorem test_fetch_word_v8 : vbufAfter (step (State.reset.withFetchWord 8 0x2A)) = some [42] := by decide
theorem test_fetch_word_c16 : after (step (State.reset.withFetchWord 16 0xE020)) (fun s => s.rcnt) 0 = 32 := by decide
theorem test_fetch_word_symbol : bbufAfter (step (State.reset.withFetchWord 24 0x40)) = some (bits [1, 0, 0, 0, 0, 0]) := by
  decide
theorem test_fetch_word_command : after (step (State.reset.withFetchWord 8 2)) (fun s => s.done) false = true := by decide

/-! ## Fields and symbols, one step each -/

/-- UP-20's value field after its count, a byte at a time: C8(3) then V16X(32512). -/
theorem test_v8_appends_count_times :
    vbufAfter (exec (.v8 7) { inScan .V [0, 0, 0, 0, 0, 1, 1, 1] with rcnt := 3 }) = some [7, 7, 7] := by decide
theorem test_v8_at_run_start_appends_once :
    vbufAfter (exec (.v8 7) { inScan .S [0, 0, 0, 0, 0, 1, 1, 1] with rcnt := 3 }) = some [7] := by decide
theorem test_v16_moves_pos_by_16 :
    after (step (inScan .S [1, 0, 0, 0, 0, 0, 0, 1, 0, 0, 1, 0, 1, 1, 0, 0])) (fun s => (s.pos.toNat, s.rval.toNat)) (0, 0) =
      (16, 300) := by decide
/-- UP-11. -/
theorem test_v16_short : errorAfter (step (inScan .S [1, 0, 0, 0, 0, 0, 0, 0])) = some (3, 2, 0) := by decide
theorem test_v16x_after_count :
    vbufAfter (step { inScan .V [1, 1, 1, 1, 1, 1, 1, 1, 0, 0, 0, 0, 0, 0, 0, 0] with rcnt := 2 }) = some [32512, 32512] := by
  decide
theorem test_v16x_at_run_start_refused : exec (.v16x 32512) (inScan .S []) = .refused .outOfPosition := rfl
theorem test_c8_turns_to_position_v :
    after (step (inScan .S [1, 1, 0, 0, 0, 0, 1, 1])) (fun s => (s.rcnt.toNat, s.engine)) (0, .idle) =
      (3, .fields .unpack .V) := by decide
theorem test_c16_moves_pos_by_16 :
    after (step (inScan .S [1, 1, 1, 0, 0, 0, 0, 0, 0, 0, 1, 0, 0, 0, 0, 0])) (fun s => (s.rcnt.toNat, s.pos.toNat)) (0, 0) =
      (32, 16) := by decide
/-- UP-26. -/
theorem test_c16_short : errorAfter (step (inScan .S [1, 1, 1, 0, 0, 0, 0, 0])) = some (3, 2, 0) := by decide
/-- TC-8. -/
theorem test_symLo_appends_six_zeros : bbufAfter (step (inLoop [32])) = some (bits [0, 0, 0, 0, 0, 0]) := by decide
/-- TC-9. -/
theorem test_symHi_appends_six_ones : bbufAfter (step (inLoop [95])) = some (bits [1, 1, 1, 1, 1, 1]) := by decide
/-- TC-16. -/
theorem test_illegal_symbol_is_recorded : errorAfter (step (inLoop [96])) = some (1, 1, 96) := by decide

/-! ## Commands -/

/-- ST-1. -/
theorem test_nop : exec .nop State.reset = .next State.reset := rfl
/-- PK-8: `7,7,7`. -/
theorem test_pack_run :
    bbufAfter (exec .pack (withText [55, 44, 55, 44, 55])) =
      some (bits [1, 1, 0, 0, 0, 0, 1, 1, 0, 0, 0, 0, 0, 1, 1, 1, 0, 0]) := by decide
/-- PF-2: a trailing comma. -/
theorem test_pack_trailing_comma : errorAfter (exec .pack (withText [55, 44])) = some (5, 3, 0) := by decide
/-- UP-15. -/
theorem test_unpack_run :
    vbufAfter (exec .unpack (withBits [1, 1, 0, 0, 0, 0, 1, 1, 0, 0, 0, 0, 0, 1, 1, 1, 0, 0])) = some [7, 7, 7] := by decide
/-- UP-12. -/
theorem test_unpack_short :
    errorAfter (exec .unpack (withBits [0, 1, 1, 1, 1, 1, 1, 1, 1, 0, 0, 0, 0, 0, 0, 0, 0])) = some (3, 2, 0) := by decide
/-- TC-4. -/
theorem test_tenc : obufAfter (exec .tenc (withBits [0, 0, 1, 0, 1, 0, 1, 0, 0, 0, 0, 0])) = some [42, 64] := by decide
/-- TC-11. -/
theorem test_tenc_unaligned : errorAfter (exec .tenc (withBits [0, 0, 0, 0, 0])) = some (6, 3, 0) := by decide
/-- TC-6. -/
theorem test_tdec :
    bbufAfter (exec .tdec (withText [80, 80, 60])) =
      some (bits [1, 1, 0, 0, 0, 0, 1, 1, 0, 0, 0, 0, 0, 1, 1, 1, 0, 0]) := by decide
/-- TC-23: the first offender. -/
theorem test_tdec_first_offender : errorAfter (exec .tdec (withText [80, 97, 31])) = some (1, 1, 97) := by decide
/-- PK-13: `007`. -/
theorem test_densify : obufAfter (exec .densify (withText [48, 48, 55])) = some [33, 80] := by decide
/-- PF-8: `301`. -/
theorem test_densify_too_big : errorAfter (exec .densify (withText [51, 48, 49])) = some (5, 3, 0) := by decide
/-- RV-8: `7,7,7,0`. -/
theorem test_revert : obufAfter (exec .revert (withText [80, 80, 60, 32])) = some [55, 44, 55, 44, 55, 44, 48] := by decide
/-- RV-6. -/
theorem test_revert_short : errorAfter (exec .revert (withText [80, 80])) = some (3, 2, 0) := by decide
/-- ST-3. -/
theorem test_clear :
    exec .clear { withText [48] with done := true, err := true, errCode := 5, errClass := 3 } = .next State.reset := rfl

/-! ## The host -/

theorem test_host_writes_then_length :
    after (Sys2Proof.core.run 3 { State.reset with host := [.writeIbuf 0 55, .writeIbuf 1 44, .writeReg .ilen 2] })
      (fun s => s.ibuf) [] = points [55, 44] := by decide
/-- A longer string over a shorter one. -/
theorem test_host_loads_bits :
    after (Sys2Proof.core.run 3 { withBits [0] with host := [.writeBbuf 0 true, .writeBbuf 1 true, .writeReg .blen 2] })
      (fun s => s.bbuf) [] = bits [1, 1] := by decide
theorem test_host_length_above_capacity :
    step { State.reset with host := [.writeReg .ilen 4097] } = .next State.reset := rfl
theorem test_host_read_beyond : step { State.reset with host := [.readBuf .obuf 0] } = .refused .readBeyondLength := rfl
theorem test_host_write_outside : step { State.reset with host := [.writeIbuf 4096 0] } = .fault .noSuchEntry := rfl

/-! ## Witnesses: for each statement of Certificates/Slice0/Obligations.lean with hypotheses, a state and operands that meet
them; for a statement with several clauses one for each, at a boundary -/

/-- A scan with nothing left in VBUF. -/
def noRoom (p : Position) (t : List Nat) : State := { inScan p t with cfg := { Config.standard with vbufCap := 0 } }

/-- Sixteen bits of a field of each shape. -/
def sixteen (a b c : Nat) : List Nat := [a, b, c, 0, 0, 0, 0, 0, 0, 0, 0, 0, 0, 0, 0, 0]

/-- Fields at POS 0, whole and cut short, at a run start and after a count of 0. -/
def v8Here : State := inScan .S [0, 1, 1, 1, 1, 1, 1, 1]
def v16Here : State := inScan .S (sixteen 1 0 1)
def v16Cut : State := inScan .S [1, 0, 0, 0, 0, 0, 0, 0]
def v16xHere : State := inScan .V (sixteen 1 1 1)
def v16xCut : State := inScan .V [1, 1, 0, 0, 0, 0, 0, 0]
def c8Here : State := inScan .S [1, 1, 0, 1, 1, 1, 1, 1]
def c16Here : State := inScan .S (sixteen 1 1 1)
def c16Cut : State := inScan .S [1, 1, 1, 0, 0, 0, 0, 0]
/-- FC-16, ENC_RUN(2, 5), at POS 0, with room and without. -/
def runHere : State := inScan .S [1, 1, 0, 0, 0, 0, 1, 0, 0, 0, 0, 0, 0, 1, 0, 1]
def runNoRoom : State := noRoom .S [1, 1, 0, 0, 0, 0, 1, 0, 0, 0, 0, 0, 0, 1, 0, 1]

theorem witness_DecodeOfEncodeIsTheInstruction :
    (Instr.v16x 0x4000).wellFormed = true ∧ (Instr.v16x 0x4000).recognisedAt .V = true ∧
    (Instr.c8 31).wellFormed = true ∧ (Instr.c8 31).recognisedAt .S = true := by decide

theorem witness_DecodedFieldEncodesToTheBitsRead :
    decodeField .S (bits (sixteen 1 1 1)) = .ok (.c16 0) ∧ decodeField .V (bits (sixteen 1 1 1)) = .ok (.v16x 0x6000) := by
  decide

theorem witness_SymbolDecodesExactlyInsideTheAlphabet :
    inAlphabet 32 ∧ inAlphabet 63 ∧ inAlphabet 64 ∧ inAlphabet 95 ∧ ¬ inAlphabet 31 ∧ ¬ inAlphabet 96 := by
  simp [inAlphabet]

theorem witness_FieldFailsExactlyAtTheEndOfInput :
    decodeField .V [] = .error .endOfInput ∧ decodeField .S (bits [1, 1, 1, 0, 0, 0, 0, 0]) = .error .endOfInput ∧
    decodeField .S (bits [1, 0, 0, 0, 0, 0, 0, 0]) = .error .endOfInput ∧
    (inScan .S [1, 1, 1, 0, 0, 0, 0, 0]).pos < (inScan .S [1, 1, 1, 0, 0, 0, 0, 0]).ltrunc ∧
    fetchField .S (inScan .S [1, 1, 1, 0, 0, 0, 0, 0]) = .error .endOfInput := by decide

theorem witness_CommandOpcodesUseTheLowThreeBits :
    (0xFFFFFFF8#32).toNat % 8 = 0 ∧ (1#32).toNat % 8 = 1 ∧ (2#32).toNat % 8 = 2 ∧ (3#32).toNat % 8 = 3 ∧
    (4#32).toNat % 8 = 4 ∧ (5#32).toNat % 8 = 5 ∧ (6#32).toNat % 8 = 6 ∧ (0xFFFFFFFF#32).toNat % 8 = 7 := by decide

theorem witness_V8ExecutesInsideAScan :
    v8Here.engine = .fields .unpack .S ∧ (1 : Count) = (if Position.S = .S then 1 else v8Here.rcnt) ∧
    ((1 : Count) = 0 ∨ v8Here.vbuf.length + (1 : Count).toNat ≤ v8Here.cfg.vbufCap.toNat) ∧
    (noRoom .V []).engine = .fields .unpack .V ∧ (0 : Count) = (if Position.V = .S then 1 else (noRoom .V []).rcnt) ∧
    (noRoom .S []).engine = .fields .unpack .S ∧
    ¬ ((1 : Count) = 0 ∨ (noRoom .S []).vbuf.length + (1 : Count).toNat ≤ (noRoom .S []).cfg.vbufCap.toNat) := by decide

theorem witness_V16ExecutesInsideAScan :
    v16Here.engine = .fields .unpack .S ∧ v16Here.pos.toNat + 16 ≤ v16Here.ltrunc.toNat ∧
    ((1 : Count) = 0 ∨ v16Here.vbuf.length + (1 : Count).toNat ≤ v16Here.cfg.vbufCap.toNat) ∧
    (noRoom .S (sixteen 1 0 0)).engine = .fields .unpack .S ∧
    (noRoom .S (sixteen 1 0 0)).pos.toNat + 16 ≤ (noRoom .S (sixteen 1 0 0)).ltrunc.toNat ∧
    ¬ ((1 : Count) = 0 ∨ (noRoom .S (sixteen 1 0 0)).vbuf.length + (1 : Count).toNat ≤
      (noRoom .S (sixteen 1 0 0)).cfg.vbufCap.toNat) ∧
    v16Cut.engine = .fields .unpack .S ∧ v16Cut.ltrunc.toNat < v16Cut.pos.toNat + 16 := by decide

theorem witness_V16xExecutesAfterACount :
    v16xHere.engine = .fields .unpack .V ∧ v16xHere.pos.toNat + 16 ≤ v16xHere.ltrunc.toNat ∧ v16xHere.rcnt = 0 ∧
    ({ noRoom .V (sixteen 1 1 0) with rcnt := 1 } : State).engine = .fields .unpack .V ∧
    (noRoom .V (sixteen 1 1 0)).pos.toNat + 16 ≤ (noRoom .V (sixteen 1 1 0)).ltrunc.toNat ∧
    ¬ ((1 : Count) = 0 ∨ (noRoom .V (sixteen 1 1 0)).vbuf.length + (1 : Count).toNat ≤
      (noRoom .V (sixteen 1 1 0)).cfg.vbufCap.toNat) ∧
    v16xCut.engine = .fields .unpack .V ∧ v16xCut.ltrunc.toNat < v16xCut.pos.toNat + 16 := by decide

theorem witness_CountFieldsExecuteAtARunStart :
    c16Here.engine = .fields .unpack .S ∧ c16Here.pos.toNat + 16 ≤ c16Here.ltrunc.toNat ∧
    c16Cut.engine = .fields .unpack .S ∧ c16Cut.ltrunc.toNat < c16Cut.pos.toNat + 16 := by decide

theorem witness_SymbolRowsExecuteInsideTheLoop :
    (inLoop [32]).engine = .symbols .tdec ∧ (inLoop [32]).bbuf.length + 6 ≤ (inLoop [32]).cfg.bbufCap.toNat ∧
    ({ inLoop [32] with cfg := { Config.standard with bbufCap := 5 } } : State).cfg.bbufCap.toNat < 0 + 6 := by decide

theorem witness_FieldOutOfItsPositionIsRefused :
    isValueField (.v16x 0x4000) = true ∧ (inScan .S []).engine = .fields .unpack .S ∧
    (Instr.v16x 0x4000).recognisedAt .S = false ∧ State.reset.engine = .idle := by decide

theorem witness_FieldsAndSymbolsOnlyAppend :
    (∃ t, exec (.c8 3) (inScan .S []) = .next t ∧ t.engine ≠ .idle) ∧ (∃ t, exec (.v8 3) (inScan .S []) = .next t ∧ t.engine ≠ .idle) ∧
    (∃ t, exec (.symLo 3) (inLoop []) = .next t ∧ t.engine ≠ .idle) :=
  ⟨⟨_, rfl, by decide⟩, ⟨_, rfl, by decide⟩, ⟨_, rfl, by decide⟩⟩

theorem witness_ScanReadsV8 :
    v8Here.engine = .fields .unpack .S ∧ v8Here.pos.toNat + 8 ≤ v8Here.ltrunc.toNat ∧
    v8Here.ltrunc.toNat ≤ v8Here.bbuf.length ∧ memRead v8Here.bbuf v8Here.pos.toNat 1 = 0#1 ∧
    ((1 : Count) = 0 ∨ v8Here.vbuf.length + (1 : Count).toNat ≤ v8Here.cfg.vbufCap.toNat) := by decide

theorem witness_ScanReadsV16 :
    v16Here.engine = .fields .unpack .S ∧ v16Here.pos.toNat + 2 ≤ v16Here.ltrunc.toNat ∧
    v16Here.ltrunc.toNat ≤ v16Here.bbuf.length ∧ memRead v16Here.bbuf v16Here.pos.toNat 2 = 2#2 ∧
    v16Here.pos.toNat + 16 ≤ v16Here.ltrunc.toNat ∧
    ((1 : Count) = 0 ∨ v16Here.vbuf.length + (1 : Count).toNat ≤ v16Here.cfg.vbufCap.toNat) ∧
    v16Cut.engine = .fields .unpack .S ∧ v16Cut.pos.toNat + 2 ≤ v16Cut.ltrunc.toNat ∧
    v16Cut.ltrunc.toNat ≤ v16Cut.bbuf.length ∧ memRead v16Cut.bbuf v16Cut.pos.toNat 2 = 2#2 ∧
    v16Cut.ltrunc.toNat < v16Cut.pos.toNat + 16 := by decide

theorem witness_ScanReadsV16xAfterACount :
    v16xHere.engine = .fields .unpack .V ∧ v16xHere.pos.toNat + 2 ≤ v16xHere.ltrunc.toNat ∧
    v16xHere.ltrunc.toNat ≤ v16xHere.bbuf.length ∧ memRead v16xHere.bbuf v16xHere.pos.toNat 2 = 3#2 ∧
    v16xHere.pos.toNat + 16 ≤ v16xHere.ltrunc.toNat ∧ v16xHere.rcnt = 0 ∧
    v16xCut.engine = .fields .unpack .V ∧ v16xCut.pos.toNat + 2 ≤ v16xCut.ltrunc.toNat ∧
    v16xCut.ltrunc.toNat ≤ v16xCut.bbuf.length ∧ memRead v16xCut.bbuf v16xCut.pos.toNat 2 = 3#2 ∧
    v16xCut.ltrunc.toNat < v16xCut.pos.toNat + 16 := by decide

theorem witness_ScanReadsC8 :
    c8Here.engine = .fields .unpack .S ∧ c8Here.pos.toNat + 8 ≤ c8Here.ltrunc.toNat ∧
    c8Here.ltrunc.toNat ≤ c8Here.bbuf.length ∧ memRead c8Here.bbuf c8Here.pos.toNat 2 = 3#2 ∧
    memRead c8Here.bbuf (c8Here.pos.toNat + 2) 1 = 0#1 := by decide

theorem witness_ScanReadsC16 :
    c16Here.engine = .fields .unpack .S ∧ c16Here.pos.toNat + 3 ≤ c16Here.ltrunc.toNat ∧
    c16Here.ltrunc.toNat ≤ c16Here.bbuf.length ∧ memRead c16Here.bbuf c16Here.pos.toNat 2 = 3#2 ∧
    memRead c16Here.bbuf (c16Here.pos.toNat + 2) 1 = 1#1 ∧ c16Here.pos.toNat + 16 ≤ c16Here.ltrunc.toNat ∧
    c16Cut.engine = .fields .unpack .S ∧ c16Cut.pos.toNat + 3 ≤ c16Cut.ltrunc.toNat ∧
    c16Cut.ltrunc.toNat ≤ c16Cut.bbuf.length ∧ memRead c16Cut.bbuf c16Cut.pos.toNat 2 = 3#2 ∧
    memRead c16Cut.bbuf (c16Cut.pos.toNat + 2) 1 = 1#1 ∧ c16Cut.ltrunc.toNat < c16Cut.pos.toNat + 16 := by decide

theorem witness_DecRunOfEncRun :
    runHere.engine = .fields .unpack .S ∧ runHere.pos.toNat % 8 = 0 ∧ (1 : Count) ≤ 2 ∧ (1 : Val) ≤ 5 ∧ (5 : Val) ≤ 300 ∧
    runHere.ltrunc.toNat ≤ runHere.bbuf.length ∧ runHere.pos.toNat + (encRun 2 5).length ≤ runHere.ltrunc.toNat ∧
    (runHere.bbuf.drop runHere.pos.toNat).take (encRun 2 5).length = encRun 2 5 ∧
    runHere.vbuf.length + (2 : Count).toNat ≤ runHere.cfg.vbufCap.toNat ∧
    runNoRoom.engine = .fields .unpack .S ∧ (runNoRoom.bbuf.drop runNoRoom.pos.toNat).take (encRun 2 5).length = encRun 2 5 ∧
    runNoRoom.cfg.vbufCap.toNat < runNoRoom.vbuf.length + (2 : Count).toNat := by decide

theorem witness_UnpackOfAShortStringIsEmpty :
    (withBits [1, 1, 1, 1, 1, 1, 1]).engine = .idle ∧ (withBits [1, 1, 1, 1, 1, 1, 1]).bbuf.length < 8 := by decide

/-- UP-20 and four bits more: a count and a V16X value. -/
def streamHere : State :=
  withBits [1, 1, 0, 0, 0, 0, 1, 1, 1, 1, 1, 1, 1, 1, 1, 1, 0, 0, 0, 0, 0, 0, 0, 0, 1, 0, 1, 0]

theorem witness_UnpackDecodesEveryStreamOfTheGrammar :
    streamHere.engine = .idle ∧ streamHere.bbuf.length ≤ streamHere.cfg.bbufCap.toNat ∧
    (∀ r ∈ [Run.mk (some (.c8 3)) (.v16x 32512)], r.legal = true) ∧ (bits [1, 0, 1, 0]).length < 8 ∧
    streamHere.bbuf = streamBits [Run.mk (some (.c8 3)) (.v16x 32512)] ++ bits [1, 0, 1, 0] ∧
    (streamValues [Run.mk (some (.c8 3)) (.v16x 32512)]).length ≤ streamHere.cfg.vbufCap.toNat ∧
    ({ streamHere with cfg := { Config.standard with vbufCap := 2 } } : State).cfg.vbufCap.toNat <
      (streamValues [Run.mk (some (.c8 3)) (.v16x 32512)]).length := by decide

/-- The values 7 and 5, then C8(3) with no value, then two bits. -/
def cutHere : State := withBits [0, 0, 0, 0, 0, 1, 1, 1, 0, 0, 0, 0, 0, 1, 0, 1, 1, 1, 0, 0, 0, 0, 1, 1, 1, 0]

/-- The runs 7 and 5. -/
def twoRuns : List Run := [Run.mk none (.v8 7), Run.mk none (.v8 5)]

/-- The two runs with the next one cut, and without; with room for both values, and for one. -/
theorem witness_UnpackOutcomeOfEveryBitString :
    cutHere.engine = .idle ∧ cutHere.bbuf.length ≤ cutHere.cfg.bbufCap.toNat ∧ (∀ r ∈ twoRuns, r.legal = true) ∧
    cutHere.bbuf = streamBits twoRuns ++ bits [1, 1, 0, 0, 0, 0, 1, 1] ++ bits [1, 0] ∧
    endsInsideARun (bits [1, 1, 0, 0, 0, 0, 1, 1]) ∧
    (withBits [0, 0, 0, 0, 0, 1, 1, 1, 0, 0, 0, 0, 0, 1, 0, 1]).bbuf = streamBits twoRuns ++ [] ++ [] ∧
    (streamValues twoRuns).length ≤ (2 : Len).toNat ∧ (1 : Len).toNat < (streamValues twoRuns).length ∧
    (2 : Len) ≤ cutHere.cfg.vbufCap ∧ ({ cutHere with cfg := { Config.standard with vbufCap := 1 } } : State).cfg.vbufCap = 1 :=
  ⟨by decide, by decide, by decide, by decide,
    ⟨by decide, Run.mk (some (.c8 3)) (.v8 0), by decide, by decide, by decide⟩,
    by decide, by decide, by decide, by decide, by decide⟩

theorem witness_UnpackIsItsFieldsOneByOne :
    (withBits (sixteen 1 0 1)).engine = .idle ∧
    (withBits (sixteen 1 0 1)).bbuf.length ≤ (withBits (sixteen 1 0 1)).cfg.bbufCap.toNat := by decide

theorem witness_TencWritesOneSymbolPerGroup :
    (withBits [1, 1, 1, 1, 1, 1]).engine = .idle ∧ (withBits [1, 1, 1, 1, 1, 1]).bbuf.length % 6 = 0 ∧
    (withBits [1, 1, 1, 1, 1, 1]).bbuf.length / 6 ≤ (withBits [1, 1, 1, 1, 1, 1]).cfg.obufCap.toNat ∧
    ({ withBits [1, 1, 1, 1, 1, 1] with cfg := { Config.standard with obufCap := 0 } } : State).cfg.obufCap.toNat < 6 / 6 ∧
    (withBits [0]).bbuf.length % 6 ≠ 0 := by decide

theorem witness_TdecWritesSixBitsPerSymbol :
    6 * (withText [32, 95]).ibuf.length ≤ (withText [32, 95]).cfg.bbufCap.toNat ∧
    (∀ c ∈ (withText [32, 95]).ibuf, inAlphabet c) ∧ (∀ x ∈ points [95], inAlphabet x) ∧
    (withText [95, 96, 31]).ibuf = points [95] ++ 96 :: points [31] ∧ ¬ inAlphabet 96 ∧
    ({ withText [32] with cfg := { Config.standard with bbufCap := 5 } } : State).cfg.bbufCap.toNat < 6 * 1 :=
  ⟨by decide, by simp [withText, points, inAlphabet], by simp [points, inAlphabet], by decide, by simp [inAlphabet], by decide⟩

theorem witness_TranscoderIsABijection :
    (withBits [1, 1, 1, 1, 1, 1]).bbuf.length % 6 = 0 ∧
    (withBits [1, 1, 1, 1, 1, 1]).bbuf.length / 6 ≤ (withBits [1, 1, 1, 1, 1, 1]).cfg.obufCap.toNat ∧
    (withBits [1, 1, 1, 1, 1, 1]).bbuf.length ≤ (withBits [1, 1, 1, 1, 1, 1]).cfg.bbufCap.toNat ∧
    (∀ c ∈ (withText [32, 95]).ibuf, inAlphabet c) ∧
    6 * (withText [32, 95]).ibuf.length ≤ (withText [32, 95]).cfg.bbufCap.toNat ∧
    (withText [32, 95]).ibuf.length ≤ (withText [32, 95]).cfg.obufCap.toNat :=
  ⟨by decide, by decide, by decide, by simp [withText, points, inAlphabet], by decide, by decide⟩

/-- The text `1 2` keeps its inner space. -/
theorem witness_TrimRemovesTheOuterWhitespace :
    ∃ x ∈ trim Config.standard.wsSet (points [49, 32, 50]), x ∈ Config.standard.wsSet := ⟨32, by decide, by decide⟩

theorem witness_TallyCountsEveryDistinctKey :
    [points [55], points [48, 55], points [55]].length ≤ ({ Config.standard with maxEntries := 3 } : Config).maxEntries.toNat := by
  decide

theorem witness_EncodersUseTheShortestFields :
    1 ≤ (1 : Val).toNat ∧ (300 : Val).toNat ≤ 300 ∧ 2 ≤ (2 : Count).toNat ∧ 2 ≤ (8191 : Count).toNat ∧
    1 ≤ (1 : Count).toNat := by decide

theorem witness_PadMakesAMultipleOfSix : (bits [0, 0, 1, 0, 1, 0, 1, 0]).length % 8 = 0 := by decide

theorem witness_GroupOrderAdmitsExactlyThePermutations :
    ([(points [55], 1), (points [56], 2)] : Tally).Perm [(points [56], 2), (points [55], 1)] := by decide

/-- A text with every shape of run, its keys, and room for it. -/
theorem witness_PackEmitsOneRunPerDistinctKey :
    (withText [55, 44, 51, 48, 48, 44, 55]).engine = .idle ∧
    textKeys Config.standard (withText [55, 44, 51, 48, 48, 44, 55]).ibuf = [points [55], points [51, 48, 48], points [55]] ∧
    ([points [55], points [51, 48, 48], points [55]] : List Key).length ≤ Config.standard.maxEntries.toNat ∧
    (∀ k ∈ [points [55], points [51, 48, 48], points [55]], (parseKey k).isSome = true) ∧
    (pad6 (fragments [points [55], points [51, 48, 48], points [55]]
      [points [51, 48, 48], points [55]])).length ≤ Config.standard.bbufCap.toNat := by decide

theorem witness_PackReportsTheFirstFailingCheck :
    (withText [44, 44]).ibuf ≠ [] ∧
    ({ Config.standard with maxEntries := 2 } : Config).maxEntries.toNat < (split (withText [44, 44]).ibuf).length ∧
    (split (withText [44, 44]).ibuf).length ≤ ({ Config.standard with maxEntries := 3 } : Config).maxEntries.toNat ∧
    (∃ k ∈ textKeys Config.standard (withText [44, 44]).ibuf, parseKey k = none) ∧
    textKeys Config.standard (withText [55]).ibuf = [points [55]] ∧ (parseKey (points [55])).isSome = true ∧
    ({ Config.standard with bbufCap := 11 } : Config).bbufCap.toNat < (pad6 (fragments [points [55]] [points [55]])).length := by
  decide

theorem witness_PackOutputIsAlignedAndBounded :
    ∃ t, exec .pack (withText [55]) = .next t ∧ (!t.err) = true := of_after (by decide)

theorem witness_UnpackOfPackGivesTheNumbersBack :
    (withText [55]).cfg.maxEntries.toNat ≤ (withText [55]).cfg.vbufCap.toNat ∧
    ∃ t, exec .pack (withText [55]) = .next t ∧ (!t.err) = true := ⟨by decide, of_after (by decide)⟩

theorem witness_DensifyCompletesOnAValidText :
    textKeys Config.standard (withText [55]).ibuf = [points [55]] ∧ (parseKey (points [55])).isSome = true ∧
    1 ≤ Config.standard.maxEntries.toNat ∧ 16 * 1 + 4 ≤ Config.standard.bbufCap.toNat ∧
    16 * 1 + 4 ≤ 6 * Config.standard.obufCap.toNat := by decide

/-- One state for each clause: both succeed; the text does not fit OBUF; PACK faults. -/
theorem witness_DensifyIsPackThenTenc :
    (∃ t, exec .pack (withText [55]) = .next t ∧ (!t.err && after (exec .tenc t) (fun u => !u.err) false) = true) ∧
    (∃ t, exec .pack { withText [55] with cfg := { Config.standard with obufCap := 1 } } = .next t ∧
      (!t.err && after (exec .tenc t) (fun u => u.err) false) = true) ∧
    (∃ t, exec .pack (withText [48]) = .next t ∧
      decide (t = takeFault .pack .invalidValue (draw (withText [48]))) = true) :=
  ⟨of_after (by decide), of_after (by decide), of_after (by decide)⟩

/-- RV-8. -/
theorem witness_RevertCompletesOnAStream :
    (∀ c ∈ (withText [80, 80, 60, 32]).ibuf, inAlphabet c) ∧
    6 * (withText [80, 80, 60, 32]).ibuf.length ≤ (withText [80, 80, 60, 32]).cfg.bbufCap.toNat ∧
    (∀ r ∈ [Run.mk (some (.c8 3)) (.v8 7), Run.mk none (.v8 0)], r.legal = true) ∧
    ((withText [80, 80, 60, 32]).ibuf.map (fun c => binNat 6 (c.toNat - 32))).flatten =
      streamBits [Run.mk (some (.c8 3)) (.v8 7), Run.mk none (.v8 0)] ++ [] ∧
    (streamValues [Run.mk (some (.c8 3)) (.v8 7), Run.mk none (.v8 0)]).length ≤ Config.standard.vbufCap.toNat ∧
    (joinText (streamValues [Run.mk (some (.c8 3)) (.v8 7), Run.mk none (.v8 0)])).length ≤ Config.standard.obufCap.toNat :=
  ⟨by simp [withText, points, inAlphabet], by decide, by decide, by decide, by decide, by decide⟩

/-- One state for each clause: TDEC faults; UNPACK faults; all succeed, and the text is longer than an OBUF of 1. -/
theorem witness_RevertIsTdecThenUnpackThenJoin :
    (∃ t, exec .tdec (withText [96]) = .next t ∧
      decide (t = takeFault .tdec (.invalidBase64Character 96) (withText [96])) = true) ∧
    (∃ t, exec .tdec (withText [80, 80]) = .next t ∧ (!t.err && after (exec .unpack t)
      (fun u => decide (u = takeFault .unpack .unexpectedEndOfInput t)) false) = true) ∧
    (∃ t, exec .tdec (withText [42, 64]) = .next t ∧ (!t.err && after (exec .unpack t)
      (fun u => !u.err && decide ((joinText u.vbuf).length = 2)) false) = true) ∧
    2 ≤ Config.standard.obufCap.toNat ∧ ({ Config.standard with obufCap := 1 } : Config).obufCap.toNat < 2 :=
  ⟨of_after (by decide), of_after (by decide), of_after (by decide), by decide, by decide⟩

/-- RV-19: an illegal symbol after bits that would end inside a run. -/
theorem witness_RevertReportsAnIllegalSymbolFirst :
    6 * (withText [95, 95, 97]).ibuf.length ≤ (withText [95, 95, 97]).cfg.bbufCap.toNat ∧
    (withText [95, 95, 97]).ibuf = points [95, 95] ++ 97 :: [] ∧ (∀ x ∈ points [95, 95], inAlphabet x) ∧
    ¬ inAlphabet 97 := ⟨by decide, by decide, by simp [points, inAlphabet], by simp [inAlphabet]⟩

theorem witness_JoinWritesShortestDecimals :
    [(65535 : Val)] ≠ [] ∧ (joinText State.reset.vbuf).length ≤ State.reset.cfg.obufCap.toNat ∧
    ({ Config.standard with obufCap := 4 } : Config).obufCap.toNat < (joinText [65535]).length := by decide

theorem witness_RevertOfDensifyGivesTheNumbersBack :
    (withText [55]).cfg.maxEntries.toNat ≤ (withText [55]).cfg.vbufCap.toNat ∧
    (joinText ((textKeys (withText [55]).cfg (withText [55]).ibuf).map keyValue)).length ≤ (withText [55]).cfg.obufCap.toNat ∧
    ∃ t, exec .densify (withText [55]) = .next t ∧ (!t.err) = true := ⟨by decide, by decide, of_after (by decide)⟩

theorem witness_RevertIsItsSymbolsAndFieldsOneByOne :
    (withText [80, 80, 60]).engine = .idle ∧
    6 * (withText [80, 80, 60]).ibuf.length ≤ (withText [80, 80, 60]).cfg.bbufCap.toNat := by decide

theorem witness_ClearAndResetReturnToTheResetState :
    (withText [55]).engine = .idle ∧ ({ withText [55] with host := [.reset] } : State).host = .reset :: [] := ⟨rfl, rfl⟩

/-- A reset empties what the host has loaded. -/
theorem test_host_reset : step { withText [55] with done := true, host := [.reset] } = .next State.reset := rfl

theorem witness_CommandLeavesTheOtherBuffers :
    framed .tenc ∧ ∃ t, exec (commandInstr .tenc) (withBits [1, 1, 1, 1, 1, 1]) = .next t ∧ t.done = true :=
  ⟨by simp [framed], of_after (by decide)⟩

theorem witness_FaultEmptiesTheWrittenBuffers :
    framed .revert ∧ (∃ t, exec (commandInstr .revert) (withText [96]) = .next t ∧
      (t.err && decide (t.errCode = 1)) = true) ∧
    framed .tenc ∧ (∃ t, exec (commandInstr .tenc) (withBits [1]) = .next t ∧ (t.err && decide (t.errCode ≠ 1)) = true) :=
  ⟨by simp [framed], of_after (by decide), by simp [framed], of_after (by decide)⟩

theorem witness_CommandsEndWithTheCodesOfTheTable :
    framed .pack ∧ framed .unpack ∧ framed .tenc ∧ framed .tdec ∧ framed .densify ∧ framed .revert := by
  simp [framed]

/-- Two states with the same input whose other buffers, registers and, for UNPACK, draws differ. -/
theorem witness_CommandDependsOnItsInputAlone :
    framed .unpack ∧ .ibuf ∉ reads .unpack ∧ (withBits [0, 0, 0, 0, 0, 1, 1, 1]).bbuf =
      ({ withBits [0, 0, 0, 0, 0, 1, 1, 1] with ibuf := [44], obuf := [32], vbuf := [9], draws := 5, done := true } : State).bbuf ∧
    (∃ t, exec (commandInstr .unpack) (withBits [0, 0, 0, 0, 0, 1, 1, 1]) = .next t ∧ t.done = true) ∧
    (∃ t, exec (commandInstr .unpack) ({ withBits [0, 0, 0, 0, 0, 1, 1, 1] with
      ibuf := [44], obuf := [32], vbuf := [9], draws := 5, done := true } : State) = .next t ∧ t.done = true) ∧
    framed .pack ∧ .bbuf ∉ reads .pack ∧
    (withText [55]).ibuf = ({ withText [55] with bbuf := [true] } : State).ibuf ∧
    (∃ t, exec (commandInstr .pack) (withText [55]) = .next t ∧ t.done = true) ∧
    (∃ t, exec (commandInstr .pack) ({ withText [55] with bbuf := [true] } : State) = .next t ∧ t.done = true) :=
  ⟨by simp [framed], by decide, rfl, of_after (by decide), of_after (by decide), by simp [framed], by decide, rfl,
    of_after (by decide), of_after (by decide)⟩

theorem witness_CommandWhileBusyIsIgnored : (inScan .S []).engine ≠ .idle ∧ (inLoop []).engine ≠ .idle := by decide

theorem witness_StepRunsTheDecodedInstruction :
    (withHost [.writeReg .cmd 2]).engine = .idle ∧ (withHost [.writeReg .cmd 2]).host = .writeReg .cmd 2 :: [] ∧
    (inLoop [95]).engine = .symbols .tdec ∧ (inLoop [95]).ibuf[(inLoop [95]).idx.toNat]? = some 95 ∧
    decodeSymbol 95 = .ok (.symHi 63) ∧
    v8Here.engine = .fields .unpack .S ∧ v8Here.pos < v8Here.ltrunc ∧ fetchField .S v8Here = .ok (.v8 127) := by decide

theorem witness_HostWritesLengthsUpToTheCapacity :
    (withHost [.writeReg .ilen 4097]).engine = .idle ∧ Memory.wf (withHost [.writeReg .ilen 4097]) = true ∧
    State.reset.cfg.ibufCap < 4097 ∧ (4096 : Len) ≤ State.reset.cfg.ibufCap ∧ State.reset.cfg.bbufCap < 24577 ∧
    (24576 : Len) ≤ State.reset.cfg.bbufCap ∧ (withHost [.writeReg .ilen 4096]).host = [.writeReg .ilen 4096] ∧
    (withHost [.writeReg .blen 24577]).host = [.writeReg .blen 24577] ∧
    (withHost [.writeReg .olen 1]).host = [.writeReg .olen 1] ∧
    (withHost [.writeReg .status 1]).host = [.writeReg .status 1] := by decide

theorem witness_HostLoadsATextOrABitString :
    (withText [48]).engine = .idle ∧ Memory.wf (withText [48]) = true ∧ (points [55, 44]).length ≤ (withText [48]).cfg.ibufCap.toNat ∧
    (points [55, 44]).zipIdx.map (fun e => HostAction.writeIbuf (BitVec.ofNat 32 e.2) e.1) ++
      HostAction.writeReg .ilen (BitVec.ofNat 32 2) :: [] = [.writeIbuf 0 55, .writeIbuf 1 44, .writeReg .ilen 2] ∧
    (withBits [0]).engine = .idle ∧ Memory.wf (withBits [0]) = true ∧ (bits [1, 0]).length ≤ (withBits [0]).cfg.bbufCap.toNat ∧
    (bits [1, 0]).zipIdx.map (fun e => HostAction.writeBbuf (BitVec.ofNat 32 e.2) e.1) ++
      HostAction.writeReg .blen (BitVec.ofNat 32 2) :: [] = [.writeBbuf 0 true, .writeBbuf 1 false, .writeReg .blen 2] ∧
    (0 : Len).toNat < (withText [48]).ibuf.length ∧ (0 : Len).toNat < (withBits [0]).bbuf.length := by decide

theorem witness_HostReadsOnlyBelowTheLength :
    ({ withText [55] with host := [.readBuf .ibuf 0] } : State).engine = .idle ∧
    (0 : Len).toNat < bufLength .ibuf (withText [55]) ∧ bufLength .ibuf (withText [55]) ≤ (1 : Len).toNat := by decide

theorem witness_RegistersReadTheirFields : Memory.wf (withText [55]) = true := by decide

/-- The invariant holds of the reset state with a command pending, between commands. -/
theorem witness_StepKeepsTheInvariant :
    Inv { State.reset with host := [.writeReg .cmd 2] } ∧
    ∃ t, step { State.reset with host := [.writeReg .cmd 2] } = .next t := by
  refine ⟨⟨by decide, by decide, by decide, by decide, by decide, by decide, by decide, ?_, ?_, by decide, by decide, rfl⟩, _, rfl⟩
  · intro v hv; cases hv
  · intro c hc; cases hc

/-- And inside a scan, at a field. -/
theorem witness_StepKeepsTheInvariant_inside :
    Inv (inScan .S [0, 0, 0, 0, 0, 1, 1, 1]) ∧ ∃ t, step (inScan .S [0, 0, 0, 0, 0, 1, 1, 1]) = .next t := by
  refine ⟨⟨by decide, by decide, by decide, by decide, by decide, by decide, by decide, ?_, ?_, by decide, by decide, rfl⟩, _, rfl⟩
  · intro v hv; cases hv
  · intro c hc; cases hc

/-- A pending write inside the array meets the premises on the host's accesses. -/
theorem witness_OnlyAHostAccessStopsTheMachine :
    Inv (withHost [.writeIbuf 4095 55]) ∧
    (∀ rest i c, (withHost [.writeIbuf 4095 55]).engine = .idle →
      (withHost [.writeIbuf 4095 55]).host = .writeIbuf i c :: rest → i < (withHost [.writeIbuf 4095 55]).cfg.ibufCap) := by
  refine ⟨⟨by decide, by decide, by decide, by decide, by decide, by decide, by decide, ?_, ?_, by decide, by decide, rfl⟩, ?_⟩
  · intro v hv; cases hv
  · intro c hc; cases hc
  · intro rest i c _ h
    cases h
    decide

end Sys2Proof.Tests
end

section
/-! SUPPORT. GROUP_ORDER (R12, R125): `permute` gives the permutations of a list and nothing else. -/

namespace Sys2Proof.Machine

/-- `permute` inserts the head into the permuted tail; the choice at the tail's length says where. -/
theorem permute_cons {α : Type} (choice : Nat → Nat) (x : α) (l : List α) :
    permute choice (x :: l) = (permute choice l).insertIdx (choice l.length % (l.length + 1)) x := by
  cases l with
  | nil => simp [permute, Nat.mod_one]
  | cons y rest => rfl

theorem permute_perm {α : Type} (choice : Nat → Nat) (l : List α) : (permute choice l).Perm l := by
  induction l with
  | nil => exact .refl _
  | cons x l ih =>
    have hplace : choice l.length % (l.length + 1) ≤ (permute choice l).length := by
      rw [ih.length_eq]
      exact Nat.lt_succ_iff.mp (Nat.mod_lt _ (Nat.succ_pos _))
    rw [permute_cons]
    exact (List.perm_insertIdx x _ hplace).trans (ih.cons x)

/-- `permute` looks at the choices below the list's length only. -/
theorem permute_congr {α : Type} {f g : Nat → Nat} {l : List α} (h : ∀ k < l.length, f k = g k) :
    permute f l = permute g l := by
  induction l with
  | nil => rfl
  | cons x l ih =>
    rw [permute_cons, permute_cons, h l.length (Nat.lt_succ_self _), ih fun k hk => h k (Nat.lt_succ_of_lt hk)]

/-- Taking the head's place in the order for the last choice leaves an order of the tail, which the earlier choices give. -/
theorem exists_permute_eq {α : Type} (l order : List α) (h : order.Perm l) :
    ∃ choice : Nat → Nat, permute choice l = order := by
  induction l generalizing order with
  | nil => exact ⟨id, h.eq_nil.symm⟩
  | cons x l ih =>
    obtain ⟨i, hi, rfl⟩ := List.mem_iff_getElem.mp (h.mem_iff.mpr List.mem_cons_self)
    have htail : (order.eraseIdx i).Perm l := ((List.getElem_cons_eraseIdx_perm hi).trans h).cons_inv
    obtain ⟨choice, hchoice⟩ := ih _ htail
    refine ⟨Function.update choice l.length i, ?_⟩
    have hearlier : permute (Function.update choice l.length i) l = order.eraseIdx i := by
      rw [← hchoice]
      exact permute_congr fun k hk => Function.update_of_ne hk.ne _ _
    have hplace : i % (l.length + 1) = i := Nat.mod_eq_of_lt (by simpa [h.length_eq] using hi)
    rw [permute_cons, hearlier, Function.update_self, hplace, List.insertIdx_eraseIdx_getElem hi]

/-- Settles O33: what `permute` gives is a permutation, and each one comes from choices built along the list. -/
theorem groupOrderAdmitsExactlyThePermutations : Obligations.GroupOrderAdmitsExactlyThePermutations :=
  ⟨permute_perm, exists_permute_eq⟩

end Sys2Proof.Machine
end

section
/-! SUPPORT. What the decoder of a field can answer, by position (R76). -/

namespace Sys2Proof

theorem wholeField_map_eq_ok {n : Nat} {b : List Bool} {f : BitVec n → Instr} {i : Instr}
    (h : (wholeField n b).map f = .ok i) : n ≤ b.length ∧ i = f (memRead b 0 n) := by
  by_cases hl : b.length < n
  · rw [wholeField_short hl] at h
    cases h
  · rw [wholeField_long (Nat.not_lt.mp hl)] at h
    cases h
    exact ⟨Nat.not_lt.mp hl, rfl⟩

theorem decodeValue_eq_ok {b : List Bool} {i : Instr} (h : decodeValue b = .ok i) :
    (memRead b 0 1 = 0#1 ∧ 8 ≤ b.length ∧ i = .v8 (payloadV8 (memRead b 0 8))) ∨
    (memRead b 0 1 ≠ 0#1 ∧ 16 ≤ b.length ∧ i = value16 (memRead b 0 16)) := by
  rw [decodeValue] at h
  split at h
  next h0 => exact .inl ⟨h0, wholeField_map_eq_ok h⟩
  next h1 => exact .inr ⟨h1, wholeField_map_eq_ok h⟩

theorem decodeCount_eq_ok {b : List Bool} {i : Instr} (h : decodeCount b = .ok i) :
    (memRead b 2 1 = 0#1 ∧ 8 ≤ b.length ∧ i = .c8 (payloadC8 (memRead b 0 8))) ∨
    (memRead b 2 1 ≠ 0#1 ∧ 16 ≤ b.length ∧ i = .c16 (payloadC16 (memRead b 0 16))) := by
  rw [decodeCount] at h
  split at h
  next h0 => exact .inl ⟨h0, wholeField_map_eq_ok h⟩
  next h1 => exact .inr ⟨h1, wholeField_map_eq_ok h⟩

/-- A 16-bit field that begins with `10` is V16 (R72, R76). -/
theorem value16_of_leading_bits {b : List Bool} (hl : 16 ≤ b.length) (h1 : memRead b 0 1 ≠ 0#1)
    (h2 : memRead b 0 2 ≠ 3#2) : value16 (memRead b 0 16) = .v16 (payloadV16 (memRead b 0 16)) := by
  have hbyte := byte_of_field16 hl
  rw [Ne, peek1_of_byte (by omega)] at h1
  rw [Ne, peek2_of_byte (by omega)] at h2
  have hbit : (memRead b 0 16).getLsbD 14 = false := by
    rw [BitVec.getLsbD, Nat.testBit_eq_decide_div_mod_eq, decide_eq_false_iff_not]
    omega
  rw [value16, hbit]
  rfl

/-- The decoder answers in a position only what that position recognises (R70, R76). -/
theorem recognisedAt_of_decodeField {p : Position} {b : List Bool} {i : Instr} (h : decodeField p b = .ok i) :
    i.recognisedAt p = true := by
  cases p with
  | S =>
    rw [decodeField_S] at h
    split at h
    next h3 =>
      obtain ⟨-, -, rfl⟩ | ⟨-, -, rfl⟩ := decodeCount_eq_ok h <;> rfl
    next h3 =>
      obtain ⟨-, -, rfl⟩ | ⟨h1, hl, rfl⟩ := decodeValue_eq_ok h
      · rfl
      · rw [value16_of_leading_bits hl h1 h3]; rfl
  | V =>
    obtain ⟨-, -, rfl⟩ | ⟨-, -, rfl⟩ := decodeValue_eq_ok h
    · rfl
    · unfold value16; split <;> rfl

end Sys2Proof
end

section
/-! SUPPORT. Two runs of one command: what the states of the two runs have in common, and that every stage keeps it (R11). -/

namespace Sys2Proof.Machine

/-- The outcomes of one stage in two runs: both go on, in related states, or both end with the same fault. -/
inductive OutcomesAgree (R : State → State → Prop) : Except CodecFault State → Except CodecFault State → Prop where
  | ok {s s' : State} (h : R s s') : OutcomesAgree R (.ok s) (.ok s')
  | error (f : CodecFault) : OutcomesAgree R (.error f) (.error f)

theorem OutcomesAgree.mono {R Q : State → State → Prop} {r r' : Except CodecFault State} (h : OutcomesAgree R r r')
    (hRQ : ∀ s s', R s s' → Q s s') : OutcomesAgree Q r r' := by
  cases h with
  | ok h => exact .ok (hRQ _ _ h)
  | error f => exact .error f

theorem OutcomesAgree.andThen {R Q : State → State → Prop} {r r' : Except CodecFault State}
    {k k' : State → Except CodecFault State} (h : OutcomesAgree R r r')
    (hk : ∀ s s', R s s' → OutcomesAgree Q (k s) (k' s')) : OutcomesAgree Q (andThen r k) (andThen r' k') := by
  cases h with
  | ok h => exact hk _ _ h
  | error f => exact .error f

/-- Two states with the same parameters and the same contents of the buffers `bs`. -/
structure Agree (bs : List Buffer) (s s' : State) : Prop where
  cfg : s.cfg = s'.cfg
  ibuf : .ibuf ∈ bs → s.ibuf = s'.ibuf
  bbuf : .bbuf ∈ bs → s.bbuf = s'.bbuf
  vbuf : .vbuf ∈ bs → s.vbuf = s'.vbuf
  obuf : .obuf ∈ bs → s.obuf = s'.obuf

/-- Inside a scan the two runs are at the same field too, and RCNT is the same where a value field will use it. -/
structure ScanAgree (bs : List Buffer) (s s' : State) : Prop extends Agree bs s s' where
  pos : s.pos = s'.pos
  ltrunc : s.ltrunc = s'.ltrunc
  engine : s.engine = s'.engine
  count : ∀ c p, s.engine = .fields c p → runCount p s = runCount p s'

section Agreement

variable {bs : List Buffer} {s s' : State}

/-! The shared operations. -/

theorem appendBits_agree (b : List Bool) (hb : .bbuf ∈ bs) (h : Agree bs s s') :
    OutcomesAgree (Agree bs) (appendBits b s) (appendBits b s') := by
  unfold appendBits
  rw [h.cfg, h.bbuf hb]
  split
  · exact .ok { h with cfg := rfl, bbuf := fun _ => rfl }
  · exact .error _

theorem putBits_agree (b : List Bool) (h : Agree bs s s') :
    OutcomesAgree (Agree bs) (putBits b s) (putBits b s') := by
  unfold putBits
  rw [h.cfg]
  split
  · exact .ok { h with cfg := rfl, bbuf := fun _ => rfl }
  · exact .error _

theorem putText_agree (t : List Symbol) (h : Agree bs s s') :
    OutcomesAgree (Agree bs) (putText t s) (putText t s') := by
  unfold putText
  rw [h.cfg]
  split
  · exact .ok { h with cfg := rfl, obuf := fun _ => rfl }
  · exact .error _

/-! The stages without a scan. -/

theorem packStage_agree (n : Nat) (hi : .ibuf ∈ bs) (h : Agree bs s s') :
    OutcomesAgree (Agree bs) (packStage n s) (packStage n s') := by
  unfold packStage
  rw [h.cfg, h.ibuf hi]
  split
  · exact .ok h
  · cases tallyText s'.cfg s'.ibuf with
    | error f => exact .error f
    | ok t =>
      dsimp only
      cases emitTally (Config.groupOrder n t) t with
      | error f => exact .error f
      | ok b => exact putBits_agree b ⟨rfl, fun _ => rfl, h.bbuf, h.vbuf, h.obuf⟩

theorem tencStage_agree (hb : .bbuf ∈ bs) (h : Agree bs s s') :
    OutcomesAgree (Agree bs) (tencStage s) (tencStage s') := by
  unfold tencStage
  rw [h.bbuf hb]
  split
  · exact .error _
  · exact putText_agree _ h

theorem joinStage_agree (hv : .vbuf ∈ bs) (h : Agree bs s s') :
    OutcomesAgree (Agree bs) (joinStage s) (joinStage s') := by
  unfold joinStage
  rw [h.vbuf hv]
  exact putText_agree _ h

theorem symbolField_agree (g : BitVec 6) (hb : .bbuf ∈ bs) (h : Agree bs s s') :
    OutcomesAgree (Agree bs) (symbolField g s) (symbolField g s') :=
  appendBits_agree _ hb ⟨h.cfg, h.ibuf, h.bbuf, h.vbuf, h.obuf⟩

theorem runSymbol_agree (i : Instr) (hb : .bbuf ∈ bs) (h : Agree bs s s') :
    OutcomesAgree (Agree bs) (runSymbol i s) (runSymbol i s') := by
  cases i
  case symLo g => exact symbolField_agree g hb h
  case symHi g => exact symbolField_agree g hb h
  all_goals exact .ok h

theorem symbolLoop_agree (xs : List Symbol) (hb : .bbuf ∈ bs) (h : Agree bs s s') :
    OutcomesAgree (Agree bs) (symbolLoop xs s) (symbolLoop xs s') := by
  induction xs generalizing s s' with
  | nil => exact .ok h
  | cons x xs ih =>
    have hx : OutcomesAgree (Agree bs) (nextSymbol x s) (nextSymbol x s') := by
      unfold nextSymbol
      cases decodeSymbol x with
      | error e => exact .error _
      | ok i => exact runSymbol_agree i hb h
    exact hx.andThen fun _ _ => ih

theorem tdecStage_agree (c : Command) (hi : .ibuf ∈ bs) (hb : .bbuf ∈ bs) (h : Agree bs s s') :
    OutcomesAgree (Agree bs) (tdecStage c s) (tdecStage c s') := by
  unfold tdecStage
  rw [h.cfg, h.ibuf hi]
  split
  · exact .error _
  · exact symbolLoop_agree _ hb ⟨rfl, fun _ => rfl, h.bbuf, h.vbuf, h.obuf⟩

/-! The scan. -/

theorem valueField_agree {c : Command} {p : Position} (w : Len) (v : Val) (hv : .vbuf ∈ bs) (h : ScanAgree bs s s')
    (hc : runCount p s = runCount p s') :
    OutcomesAgree (ScanAgree bs) (valueField c p w v s) (valueField c p w v s') := by
  unfold valueField appendRun
  simp only [hc, h.pos, h.cfg, h.vbuf hv]
  split
  · refine .ok { h with cfg := rfl, vbuf := fun _ => rfl, pos := rfl, engine := rfl, count := ?_ }
    rintro _ _ ⟨⟩
    rfl
  · exact .error _

theorem countField_agree (c : Command) (w : Len) (n : Count) (h : ScanAgree bs s s') :
    OutcomesAgree (ScanAgree bs) (countField c w n s) (countField c w n s') := by
  refine .ok { h with pos := congrArg (· + w) h.pos, engine := rfl, count := ?_ }
  rintro _ _ ⟨⟩
  rfl

theorem needBits_agree {k : State → Except CodecFault State} (n : Nat) (h : ScanAgree bs s s')
    (hk : OutcomesAgree (ScanAgree bs) (k s) (k s')) :
    OutcomesAgree (ScanAgree bs) (needBits n k s) (needBits n k s') := by
  unfold needBits remaining
  rw [h.pos, h.ltrunc]
  split
  · exact .error _
  · exact hk

/-- RCNT counts for a value field only, and V16X has it from the count field before it, as its position says. -/
theorem runField_agree {c : Command} {p : Position} {i : Instr} (hp : i.recognisedAt p = true) (hv : .vbuf ∈ bs)
    (h : ScanAgree bs s s') (he : s.engine = .fields c p) :
    OutcomesAgree (ScanAgree bs) (runField c p i s) (runField c p i s') := by
  have hc : runCount p s = runCount p s' := h.count c p he
  cases i
  case v8 v => exact valueField_agree 8 _ hv h hc
  case v16 v => exact needBits_agree 16 h (valueField_agree 16 _ hv h hc)
  case v16x v =>
    obtain rfl : p = .V := of_decide_eq_true hp
    exact needBits_agree 16 h (valueField_agree 16 _ hv h hc)
  case c8 n => exact countField_agree c 8 _ h
  case c16 n => exact needBits_agree 16 h (countField_agree c 16 _ h)
  all_goals exact .ok h

theorem fetchField_agree (p : Position) (hb : .bbuf ∈ bs) (h : ScanAgree bs s s') : fetchField p s = fetchField p s' := by
  simp only [fetchField, visibleBits, h.bbuf hb, h.ltrunc, h.pos]

theorem nextField_agree (hb : .bbuf ∈ bs) (hv : .vbuf ∈ bs) (h : ScanAgree bs s s') :
    OutcomesAgree (ScanAgree bs) (nextField s) (nextField s') := by
  cases he : s.engine with
  | idle => simpa only [nextField, ← h.engine, he] using .ok h
  | symbols c => simpa only [nextField, ← h.engine, he] using .ok h
  | fields c p =>
    have he' : s'.engine = .fields c p := h.engine ▸ he
    have hf := fetchField_agree p hb h
    cases hd : fetchField p s with
    | error e =>
      rw [nextField_error he hd, nextField_error he' (hf ▸ hd)]
      exact .error _
    | ok i =>
      rw [nextField_ok he hd, nextField_ok he' (hf ▸ hd)]
      exact runField_agree (recognisedAt_of_decodeField hd) hv h he

theorem decRun_agree (hb : .bbuf ∈ bs) (hv : .vbuf ∈ bs) (h : ScanAgree bs s s') :
    OutcomesAgree (ScanAgree bs) (decRun s) (decRun s') := by
  refine (nextField_agree hb hv h).andThen fun u u' hu => ?_
  have hx : expectsValue u = expectsValue u' := by simp only [expectsValue, hu.engine]
  rw [hx]
  split
  · exact nextField_agree hb hv hu
  · exact .ok hu

theorem scanLoop_agree (n : Nat) (hb : .bbuf ∈ bs) (hv : .vbuf ∈ bs) (h : ScanAgree bs s s') :
    OutcomesAgree (ScanAgree bs) (scanLoop n s) (scanLoop n s') := by
  induction n generalizing s s' with
  | zero => exact .ok h
  | succ n ih =>
    unfold scanLoop
    rw [h.pos, h.ltrunc]
    split
    · exact (decRun_agree hb hv h).andThen fun _ _ => ih
    · exact .ok h

theorem beginScan_agree (c : Command) (hb : .bbuf ∈ bs) (h : Agree bs s s') :
    ScanAgree bs (beginScan c s) (beginScan c s') where
  cfg := h.cfg
  ibuf := h.ibuf
  bbuf := h.bbuf
  vbuf := h.vbuf
  obuf := h.obuf
  pos := rfl
  ltrunc := by rw [beginScan_ltrunc, beginScan_ltrunc, h.bbuf hb]
  engine := rfl
  count := by rintro _ _ ⟨⟩; rfl

theorem unpackStage_agree (c : Command) (hb : .bbuf ∈ bs) (hv : .vbuf ∈ bs) (h : Agree bs s s') :
    OutcomesAgree (Agree bs) (unpackStage c s) (unpackStage c s') := by
  unfold unpackStage
  rw [h.bbuf hb]
  split
  · exact .ok h
  · exact (scanLoop_agree _ hb hv (beginScan_agree c hb h)).mono fun _ _ hu => hu.toAgree

/-! The commands in their frame. -/

/-- The function a framed command runs in the frame of R180, for the GROUP_ORDER of draw `n`. -/
def commandStage (n : Nat) : Command → State → Except CodecFault State
  | .nop => .ok
  | .pack => packStage n
  | .unpack => unpackStage .unpack
  | .tenc => tencStage
  | .tdec => tdecStage .tdec
  | .densify => densifyStage n
  | .revert => revertStage
  | .clear => .ok

/-- The state in which a framed command enters its frame: PACK and DENSIFY have drawn their GROUP_ORDER. -/
def commandStart : Command → State → State
  | .nop => id
  | .pack => draw
  | .unpack => id
  | .tenc => id
  | .tdec => id
  | .densify => draw
  | .revert => id
  | .clear => id

theorem exec_framed {c : Command} (hc : framed c) (h : s.engine = .idle) :
    exec (commandInstr c) s = .next (frame c (commandStage s.draws c) (commandStart c s)) := by
  cases c
  case nop => exact absurd rfl hc.1
  case clear => exact absurd rfl hc.2
  case pack => exact whenIdle_idle (f := fun s => frame .pack (packStage s.draws) (draw s)) h
  case densify => exact whenIdle_idle (f := fun s => frame .densify (densifyStage s.draws) (draw s)) h
  all_goals exact whenIdle_idle h

theorem commandStage_agree (c : Command) {n n' : Nat} (hn : c = .pack ∨ c = .densify → n = n')
    (h : Agree (reads c ++ writes c) s s') :
    OutcomesAgree (Agree (reads c ++ writes c)) (commandStage n c s) (commandStage n' c s') := by
  cases c with
  | nop => exact .ok h
  | clear => exact .ok h
  | pack =>
    obtain rfl := hn (.inl rfl)
    exact packStage_agree n (by decide) h
  | unpack => exact unpackStage_agree .unpack (by decide) (by decide) h
  | tenc => exact tencStage_agree (by decide) h
  | tdec => exact tdecStage_agree .tdec (by decide) (by decide) h
  | densify =>
    obtain rfl := hn (.inr rfl)
    exact (packStage_agree n (by decide) h).andThen fun _ _ => tencStage_agree (by decide)
  | revert =>
    exact (tdecStage_agree .revert (by decide) (by decide) h).andThen fun _ _ hu =>
      (unpackStage_agree .revert (by decide) (by decide) hu).andThen fun _ _ => joinStage_agree (by decide)

/-- The frame empties the buffers that the command writes, so the two runs need the same input only. -/
theorem clearOutputs_agree (c : Command) (h : Agree (reads c) s s') :
    Agree (reads c ++ writes c) (clearOutputs c s) (clearOutputs c s') where
  cfg := h.cfg
  ibuf hb := ite_congr rfl (fun _ => rfl) fun hw => h.ibuf ((List.mem_append.mp hb).resolve_right hw)
  bbuf hb := ite_congr rfl (fun _ => rfl) fun hw => h.bbuf ((List.mem_append.mp hb).resolve_right hw)
  vbuf hb := ite_congr rfl (fun _ => rfl) fun hw => h.vbuf ((List.mem_append.mp hb).resolve_right hw)
  obuf hb := ite_congr rfl (fun _ => rfl) fun hw => h.obuf ((List.mem_append.mp hb).resolve_right hw)

theorem commandStart_agree (c : Command) (h : Agree bs s s') : Agree bs (commandStart c s) (commandStart c s') := by
  cases c
  case pack => exact ⟨h.cfg, h.ibuf, h.bbuf, h.vbuf, h.obuf⟩
  case densify => exact ⟨h.cfg, h.ibuf, h.bbuf, h.vbuf, h.obuf⟩
  all_goals exact h

/-- What the host can tell apart after a command: the buffers it writes, and the status and error registers. -/
structure ResultsAgree (c : Command) (t t' : State) : Prop extends Agree (writes c) t t' where
  engine : t.engine = t'.engine
  done : t.done = t'.done
  err : t.err = t'.err
  errCode : t.errCode = t'.errCode
  errClass : t.errClass = t'.errClass
  errChar : t.errChar = t'.errChar

theorem complete_resultsAgree {c : Command} (h : Agree (reads c ++ writes c) s s') :
    ResultsAgree c (complete s) (complete s') where
  cfg := h.cfg
  ibuf hb := h.ibuf (List.mem_append_right _ hb)
  bbuf hb := h.bbuf (List.mem_append_right _ hb)
  vbuf hb := h.vbuf (List.mem_append_right _ hb)
  obuf hb := h.obuf (List.mem_append_right _ hb)
  engine := rfl
  done := rfl
  err := rfl
  errCode := rfl
  errClass := rfl
  errChar := rfl

theorem takeFault_resultsAgree (c : Command) (f : CodecFault) (hcfg : s.cfg = s'.cfg) :
    ResultsAgree c (takeFault c f s) (takeFault c f s') where
  cfg := hcfg
  ibuf hb := by simp [hb]
  bbuf hb := by simp [hb]
  vbuf hb := by simp [hb]
  obuf hb := by simp [hb]
  engine := rfl
  done := rfl
  err := rfl
  errCode := rfl
  errClass := rfl
  errChar := rfl

theorem frame_resultsAgree {c : Command} {run run' : State → Except CodecFault State} (hcfg : s.cfg = s'.cfg)
    (h : OutcomesAgree (Agree (reads c ++ writes c)) (run (clearOutputs c s)) (run' (clearOutputs c s'))) :
    ResultsAgree c (frame c run s) (frame c run' s') := by
  generalize hr : run (clearOutputs c s) = r at h
  generalize hr' : run' (clearOutputs c s') = r' at h
  cases h with
  | ok h =>
    rw [frame_ok hr, frame_ok hr']
    exact complete_resultsAgree h
  | error f =>
    rw [frame_error hr, frame_error hr']
    exact takeFault_resultsAgree c f hcfg

theorem exec_resultsAgree {c : Command} {t t' : State} (hc : framed c) (he : s.engine = .idle) (he' : s'.engine = .idle)
    (h : Agree (reads c) s s') (hn : c = .pack ∨ c = .densify → s.draws = s'.draws)
    (ht : exec (commandInstr c) s = .next t) (ht' : exec (commandInstr c) s' = .next t') : ResultsAgree c t t' := by
  rw [exec_framed hc he] at ht
  rw [exec_framed hc he'] at ht'
  cases ht
  cases ht'
  have hstart := commandStart_agree c h
  exact frame_resultsAgree hstart.cfg (commandStage_agree c hn (clearOutputs_agree c hstart))

/-! What the host reads. -/

theorem readBuf_agree {b : Buffer} (hb : b ∈ bs) (h : Agree bs s s') (k : Nat) : readBuf b k s = readBuf b k s' := by
  cases b with
  | ibuf => simp only [readBuf, h.ibuf hb]
  | bbuf => simp only [readBuf, h.bbuf hb]
  | vbuf => simp only [readBuf, h.vbuf hb]
  | obuf => simp only [readBuf, h.obuf hb]

theorem bufLength_agree {b : Buffer} (hb : b ∈ bs) (h : Agree bs s s') : bufLength b s = bufLength b s' := by
  cases b with
  | ibuf => simp only [bufLength, h.ibuf hb]
  | bbuf => simp only [bufLength, h.bbuf hb]
  | vbuf => simp only [bufLength, h.vbuf hb]
  | obuf => simp only [bufLength, h.obuf hb]

theorem ResultsAgree.readReg {c : Command} {r : Reg} (h : ResultsAgree c s s')
    (hr : r = .status ∨ r = .errcode ∨ r = .errchar) : readReg r s = readReg r s' := by
  obtain rfl | rfl | rfl := hr
  · simp only [Machine.readReg, statusWord, busy, h.engine, h.done, h.err]
  · simp only [Machine.readReg, errcodeWord, h.errCode, h.errClass]
  · simp only [Machine.readReg, h.errChar]

/-- No command takes VBUF or OBUF as its input (R192). -/
theorem agree_reads {c : Command} (hcfg : s.cfg = s'.cfg) (hi : .ibuf ∈ reads c → s.ibuf = s'.ibuf)
    (hb : .bbuf ∈ reads c → s.bbuf = s'.bbuf) : Agree (reads c) s s' where
  cfg := hcfg
  ibuf := hi
  bbuf := hb
  vbuf h := by cases c <;> simp [reads] at h
  obuf h := by cases c <;> simp [reads] at h

end Agreement

/-- Settles O51: the two runs stay in agreement through every stage of the command, and the frame writes the same results. -/
theorem commandDependsOnItsInputAlone : Obligations.CommandDependsOnItsInputAlone := by
  intro s s' t t' c hc he he' hcfg hi hb hn ht ht'
  have h := exec_resultsAgree hc he he' (agree_reads hcfg hi hb) hn ht ht'
  exact ⟨fun b hb k => readBuf_agree hb h.toAgree k, fun b hb => bufLength_agree hb h.toAgree, fun r hr => h.readReg hr⟩

end Sys2Proof.Machine
end

section
/-! SUPPORT. What a decoder answers, a field or a symbol, an error or an instruction, and what that instruction runs (R76, R84,
R86). -/

namespace Sys2Proof

theorem valueField_of_decodeValue {b : List Bool} {i : Instr} (h : decodeValue b = .ok i) :
    Machine.isValueField i = true ∧ i.width ≤ b.length := by
  obtain ⟨-, hl, rfl⟩ | ⟨-, hl, rfl⟩ := decodeValue_eq_ok h
  · exact ⟨rfl, hl⟩
  · unfold value16
    split <;> exact ⟨rfl, hl⟩

theorem countField_of_decodeCount {b : List Bool} {i : Instr} (h : decodeCount b = .ok i) :
    Machine.isCountField i = true ∧ i.width ≤ b.length := by
  obtain ⟨-, hl, rfl⟩ | ⟨-, hl, rfl⟩ := decodeCount_eq_ok h <;> exact ⟨rfl, hl⟩

/-- In either position a field is read as a value or as a count (R76). -/
theorem decodeField_cases (p : Position) (b : List Bool) :
    decodeField p b = decodeValue b ∨ decodeField p b = decodeCount b := by
  cases p with
  | V => exact .inl rfl
  | S =>
    rw [decodeField_S]
    split
    next => exact .inr rfl
    next => exact .inl rfl

/-- What the decoder reads at a field is a value or a count, and all of its bits are there (R77, R84). -/
theorem field_of_decodeField {p : Position} {b : List Bool} {i : Instr} (h : decodeField p b = .ok i) :
    (Machine.isValueField i = true ∨ Machine.isCountField i = true) ∧ i.width ≤ b.length := by
  obtain hp | hp := decodeField_cases p b <;> rw [hp] at h
  · exact (valueField_of_decodeValue h).imp_left .inl
  · exact (countField_of_decodeCount h).imp_left .inr

theorem wholeField_map_eq_error {n : Nat} {b : List Bool} {f : BitVec n → Instr} {e : DecodeError}
    (h : (wholeField n b).map f = .error e) : e = .endOfInput := by
  by_cases hl : b.length < n
  · rw [wholeField_short hl] at h
    cases h
    rfl
  · rw [wholeField_long (Nat.not_lt.mp hl)] at h
    cases h

/-- The decoder of a field fails at the end of the input only (R84). -/
theorem endOfInput_of_decodeField {p : Position} {b : List Bool} {e : DecodeError} (h : decodeField p b = .error e) :
    e = .endOfInput := by
  obtain hp | hp := decodeField_cases p b <;> rw [hp] at h
  · unfold decodeValue at h
    split at h <;> exact wholeField_map_eq_error h
  · unfold decodeCount at h
    split at h <;> exact wholeField_map_eq_error h

theorem symbol_of_decodeSymbol {x : Symbol} {i : Instr} (h : decodeSymbol x = .ok i) :
    ∃ g, i = .symLo g ∨ i = .symHi g := by
  obtain ⟨-, -, hx⟩ | ⟨-, hx⟩ := decodeSymbol_cases x
  · rw [← hx, decodeSymbol_symbolOf] at h
    split at h <;> cases h
    · exact ⟨_, .inl rfl⟩
    · exact ⟨_, .inr rfl⟩
  · rw [hx] at h
    cases h

/-- The decoder of a symbol fails outside the alphabet only, and names the symbol (R86). -/
theorem illegalSymbol_of_decodeSymbol {x : Symbol} {e : DecodeError} (h : decodeSymbol x = .error e) :
    e = .illegalSymbol x ∧ (x < 32 ∨ 95 < x) := by
  obtain ⟨-, -, hx⟩ | ⟨hout, hx⟩ := decodeSymbol_cases x
  · rw [← hx, decodeSymbol_symbolOf] at h
    cases h
  · rw [hx] at h
    cases h
    exact ⟨rfl, hout⟩

namespace Machine

/-- Inside a scan the instruction decoded at POS runs, and its fault ends the command. -/
theorem exec_field {s : State} {c : Command} {p : Position} {i : Instr} (he : s.engine = .fields c p)
    (hf : fetchField p s = .ok i) : exec i s = settle c s (runField c p i s) := by
  have hp := recognisedAt_of_decodeField hf
  have hfield := (field_of_decodeField hf).1
  cases i
  case v8 v => exact atField_fields he
  case v16 v => exact atField_fields he
  case v16x v =>
    obtain rfl : p = .V := of_decide_eq_true hp
    exact atPosition_fields he
  case c8 n =>
    obtain rfl : p = .S := of_decide_eq_true hp
    exact atPosition_fields he
  case c16 n =>
    obtain rfl : p = .S := of_decide_eq_true hp
    exact atPosition_fields he
  all_goals simp [isValueField, isCountField] at hfield

/-- Inside TDEC's loop the instruction decoded from the symbol runs, and its fault ends the command. -/
theorem exec_symbol {s : State} {c : Command} {x : Symbol} {i : Instr} (he : s.engine = .symbols c)
    (hd : decodeSymbol x = .ok i) : exec i s = settle c s (runSymbol i s) := by
  obtain ⟨g, rfl | rfl⟩ := symbol_of_decodeSymbol hd <;> exact atSymbol_symbols he

end Machine

end Sys2Proof
end

section
/-! SUPPORT. The invariant across the shared operations: what a stage of a command keeps, and that completing, taking a fault and
reset give the invariant back (R37, R180, R212). -/

namespace Sys2Proof.Machine

/-- A fault that the block can raise: none of the reserved ones (R203, R205), and code 1 for a symbol outside the alphabet only
(R202). -/
def Raisable : CodecFault → Prop
  | .invalidBase64Character c => c < 32 ∨ 95 < c
  | .parseError => False
  | .unexpectedEndOfInput => True
  | .unexpectedChar => False
  | .invalidValue => True
  | .contractViolation => True
  | .capacityExceeded => True

/-- How a stage of a command ends: in a state with `P`, or with a fault that the block can raise. -/
inductive StageEnds (P : State → Prop) : Except CodecFault State → Prop where
  | ok {t : State} (h : P t) : StageEnds P (.ok t)
  | error {f : CodecFault} (h : Raisable f) : StageEnds P (.error f)

theorem StageEnds.mono {P Q : State → Prop} {r : Except CodecFault State} (h : StageEnds P r) (hPQ : ∀ t, P t → Q t) :
    StageEnds Q r := by
  cases h with
  | ok h => exact .ok (hPQ _ h)
  | error h => exact .error h

theorem StageEnds.andThen {P Q : State → Prop} {r : Except CodecFault State} {k : State → Except CodecFault State}
    (h : StageEnds P r) (hk : ∀ t, P t → StageEnds Q (k t)) : StageEnds Q (andThen r k) := by
  cases h with
  | ok h => exact hk _ h
  | error h => exact .error h

/-- The part of the invariant that speaks of the buffers: all that a command needs of its last stage, since its frame writes the
rest. -/
structure BuffersOk (s : State) : Prop where
  memory : Memory.wf s = true
  values : ∀ v ∈ s.vbuf, v < 0x8000
  symbols : ∀ c ∈ s.obuf, 32 ≤ c ∧ c ≤ 95

variable {s : State}

theorem Inv.buffersOk (h : Inv s) : BuffersOk s := ⟨h.memory, h.values, h.symbols⟩

/-! The transients, by where the engine is. -/

theorem engineOk_idle (he : s.engine = .idle) :
    engineOk s = true ↔ s.idx = 0 ∧ s.pos = 0 ∧ s.ltrunc = 0 ∧ s.rcnt = 0 ∧ s.rval = 0 := by
  simp [engineOk, he, and_assoc]

theorem engineOk_symbols {c : Command} (he : s.engine = .symbols c) :
    engineOk s = true ↔ (c = .tdec ∨ c = .revert) ∧ s.idx.toNat ≤ s.ibuf.length ∧ s.bbuf.length = 6 * s.idx.toNat ∧
      s.bstage = [] ∧ 6 * s.ibuf.length ≤ s.cfg.bbufCap.toNat := by
  simp [engineOk, he, and_assoc]

theorem engineOk_fields {c : Command} {p : Position} (he : s.engine = .fields c p) :
    engineOk s = true ↔ (c = .unpack ∨ c = .revert) ∧ s.ltrunc.toNat = s.bbuf.length - s.bbuf.length % 8 ∧
      s.pos.toNat % 8 = 0 ∧ s.pos.toNat ≤ s.ltrunc.toNat := by
  simp [engineOk, he, and_assoc]

/-! The ends of a command. -/

theorem clearOutputs_buffersOk (c : Command) (h : BuffersOk s) : BuffersOk (clearOutputs c s) where
  memory := clearOutputs_wf c h.memory
  values v hv := by
    rw [clearOutputs_vbuf] at hv
    split at hv
    · cases hv
    · exact h.values v hv
  symbols x hx := by
    rw [clearOutputs_obuf] at hx
    split at hx
    · cases hx
    · exact h.symbols x hx

theorem complete_inv (h : BuffersOk s) : Inv (complete s) where
  memory := complete_wf h.memory
  err_iff := by simp
  err_done := by simp
  code_legal := by simp
  class_of := by simp [classOfCode]
  char_code := by simp
  char_illegal := by simp
  values := h.values
  symbols := h.symbols
  engine := rfl
  rval := by simp
  tally := rfl

/-- The code, class and symbol of a fault that the block can raise are those of R200, R201 and R34. -/
theorem Raisable.registers {f : CodecFault} (hf : Raisable f) :
    (faultCode f ≤ 7 ∧ faultCode f ≠ 2 ∧ faultCode f ≠ 4) ∧ faultClass f = classOfCode (faultCode f) ∧
    (faultChar f ≠ 0 → faultCode f = 1) ∧ (faultCode f = 1 → faultChar f < 32 ∨ 95 < faultChar f) := by
  cases f with
  | invalidBase64Character c => exact ⟨by simp [faultCode], rfl, fun _ => rfl, fun _ => hf⟩
  | parseError => exact hf.elim
  | unexpectedChar => exact hf.elim
  | _ => exact ⟨by decide, by decide, by decide, by decide⟩

theorem takeFault_inv (c : Command) {f : CodecFault} (h : BuffersOk s) (hf : Raisable f) : Inv (takeFault c f s) := by
  obtain ⟨hcode, hclass, hchar, hillegal⟩ := hf.registers
  obtain ⟨hmemory, hvalues, hsymbols⟩ := clearOutputs_buffersOk c h
  exact {
    memory := hmemory
    err_iff := iff_of_true rfl (faultCode_ne_zero f)
    err_done := fun _ => rfl
    code_legal := hcode
    class_of := hclass
    char_code := hchar
    char_illegal := hillegal
    values := hvalues
    symbols := hsymbols
    engine := rfl
    rval := by simp
    tally := rfl }

theorem resetBlock_inv (s : State) : Inv (resetBlock s) where
  memory := resetBlock_wf s
  err_iff := by simp
  err_done := by simp
  code_legal := by simp
  class_of := by simp [classOfCode]
  char_code := by simp
  char_illegal := by simp
  values := by simp
  symbols := by simp
  engine := rfl
  rval := by simp
  tally := rfl

theorem frame_inv {c : Command} {run : State → Except CodecFault State} (h : BuffersOk s)
    (hrun : StageEnds BuffersOk (run (clearOutputs c s))) : Inv (frame c run s) := by
  generalize hr : run (clearOutputs c s) = r at hrun
  cases hrun with
  | ok ht =>
    rw [frame_ok hr]
    exact complete_inv ht
  | error hf =>
    rw [frame_error hr]
    exact takeFault_inv c h hf

theorem settle_inv (c : Command) {r : Except CodecFault State} (h : Inv s) (hr : StageEnds Inv r) :
    ∃ t, settle c s r = .next t ∧ Inv t := by
  cases hr with
  | ok ht => exact ⟨_, rfl, ht⟩
  | error hf => exact ⟨_, rfl, takeFault_inv c h.buffersOk hf⟩

/-! The start of a command, between commands. -/

theorem clearOutputs_inv (c : Command) (he : s.engine = .idle) (h : Inv s) : Inv (clearOutputs c s) := by
  obtain ⟨hmemory, hvalues, hsymbols⟩ := clearOutputs_buffersOk c h.buffersOk
  exact { h with
    memory := hmemory
    values := hvalues
    symbols := hsymbols
    engine := (engineOk_idle (s := clearOutputs c s) he).mpr ((engineOk_idle he).mp h.engine) }

theorem commandStart_inv (c : Command) (h : Inv s) : Inv (commandStart c s) := by
  cases c
  case pack => exact { h with }
  case densify => exact { h with }
  all_goals exact h

end Sys2Proof.Machine
end

section
/-! SUPPORT. Every stage of a command keeps the invariant of the buffers, and the loops inside TDEC and UNPACK the whole invariant
(R103, R129, R160, R162, R188). -/

namespace Sys2Proof.Machine

variable {s : State}

/-! Whole results. -/

theorem putBits_ends {b : List Bool} (hb : s.bstage = []) (h : BuffersOk s) : StageEnds BuffersOk (putBits b s) := by
  by_cases hfit : b.length ≤ s.cfg.bbufCap.toNat
  · have hput := putBits_fits hfit
    rw [hput]
    exact .ok ⟨putBits_wf hb h.memory hput, h.values, h.symbols⟩
  · rw [putBits_full (Nat.not_le.mp hfit)]
    exact .error trivial

theorem putText_ends {t : List Symbol} (ht : ∀ c ∈ t, 32 ≤ c ∧ c ≤ 95) (h : BuffersOk s) :
    StageEnds BuffersOk (putText t s) := by
  by_cases hfit : t.length ≤ s.cfg.obufCap.toNat
  · have hput := putText_fits hfit
    rw [hput]
    exact .ok ⟨putText_wf h.memory hput, h.values, ht⟩
  · rw [putText_full (Nat.not_le.mp hfit)]
    exact .error trivial

/-! PACK. -/

theorem raisable_of_tallyText {cfg : Config} {text : List Symbol} {f : CodecFault} (h : tallyText cfg text = .error f) :
    Raisable f := by
  unfold tallyText at h
  split at h <;> cases h
  trivial

theorem raisable_of_emitTally {choice : Nat → Nat} {t : Tally} {f : CodecFault} (h : emitTally choice t = .error f) :
    Raisable f := by
  unfold emitTally at h
  split at h <;> cases h
  trivial

theorem packStage_ends (n : Nat) (hb : s.bstage = []) (h : BuffersOk s) : StageEnds BuffersOk (packStage n s) := by
  unfold packStage
  split
  · exact .ok h
  · cases ht : tallyText s.cfg s.ibuf with
    | error f => exact .error (raisable_of_tallyText ht)
    | ok t =>
      dsimp only
      cases he : emitTally (Config.groupOrder n t) t with
      | error f => exact .error (raisable_of_emitTally he)
      | ok b => exact putBits_ends (s := { s with tally := t }) hb ⟨h.memory, h.values, h.symbols⟩

/-! TENC and JOIN write symbols of the alphabet. -/

theorem symbolOf_range (g : BitVec 6) : 32 ≤ symbolOf g ∧ symbolOf g ≤ 95 := by
  have hg := g.isLt
  have hn := toNat_symbolOf g
  simp only [BitVec.le_def, hn, BitVec.ofNat_eq_ofNat, BitVec.toNat_ofNat]
  omega

theorem symbolsOfBits_range (b : List Bool) : ∀ c ∈ symbolsOfBits b, 32 ≤ c ∧ c ≤ 95 := by
  induction b using symbolsOfBits.induct with
  | case1 b0 b1 b2 b3 b4 b5 rest ih =>
    rw [symbolsOfBits, List.forall_mem_cons]
    exact ⟨symbolOf_range _, ih⟩
  | case2 b hb =>
    rw [symbolsOfBits]
    · simp
    · exact hb

theorem digit_range {d : Nat} (h : d < 10) : 32 ≤ BitVec.ofNat 21 (48 + d) ∧ BitVec.ofNat 21 (48 + d) ≤ 95 := by
  simp only [BitVec.le_def, BitVec.ofNat_eq_ofNat, BitVec.toNat_ofNat]
  omega

theorem digits_range (n v : Nat) : ∀ c ∈ digits n v, 32 ≤ c ∧ c ≤ 95 := by
  induction n generalizing v with
  | zero => simp [digits]
  | succ n ih =>
    rw [digits]
    split
    next hv => exact List.forall_mem_singleton.mpr (digit_range hv)
    next => exact List.forall_mem_append.mpr ⟨ih _, List.forall_mem_singleton.mpr (digit_range (Nat.mod_lt _ (by decide)))⟩

theorem joinText_range (vs : List Val) : ∀ c ∈ joinText vs, 32 ≤ c ∧ c ≤ 95 := by
  induction vs using joinText.induct with
  | case1 => simp [joinText]
  | case2 v => exact digits_range 5 _
  | case3 v w rest ih =>
    rw [joinText, List.forall_mem_append, List.forall_mem_cons]
    exact ⟨digits_range 5 _, by decide, ih⟩

theorem tencStage_ends (h : BuffersOk s) : StageEnds BuffersOk (tencStage s) := by
  unfold tencStage
  split
  · exact .error trivial
  · exact putText_ends (symbolsOfBits_range _) h

theorem joinStage_ends (h : BuffersOk s) : StageEnds BuffersOk (joinStage s) := putText_ends (joinText_range _) h

/-! TDEC's loop. -/

/-- The state after a symbol of the alphabet with its six bits. -/
def afterSymbol (g : BitVec 6) (s : State) : State := { s with idx := s.idx + 1, bbuf := s.bbuf ++ bin g }

/-- The loop index does not wrap inside IBUF. -/
theorem toNat_idx_succ (h : Memory.wf s = true) (hi : s.idx.toNat < s.ibuf.length) : (s.idx + 1).toNat = s.idx.toNat + 1 := by
  have hcap := ((Memory.wf_iff s).mp h).1
  have := s.cfg.ibufCap.isLt
  simp only [BitVec.toNat_add, BitVec.ofNat_eq_ofNat, BitVec.toNat_ofNat]
  omega

/-- The capacity test before the loop leaves room for every symbol's six bits (R167). -/
theorem symbolField_inv {c : Command} (g : BitVec 6) (h : Inv s) (he : s.engine = .symbols c)
    (hi : s.idx.toNat < s.ibuf.length) : symbolField g s = .ok (afterSymbol g s) ∧ Inv (afterSymbol g s) := by
  obtain ⟨hc, -, hlen, hstage, hroom⟩ := (engineOk_symbols he).mp h.engine
  have hidx := toNat_idx_succ h.memory hi
  have hfit : s.bbuf.length + (bin g).length ≤ s.cfg.bbufCap.toNat := by
    rw [length_bin]
    omega
  have hok : symbolField g s = .ok (afterSymbol g s) := appendBits_fits hfit
  refine ⟨hok, { h with memory := ?_, engine := ?_ }⟩
  · exact appendBits_wf (s := { s with idx := s.idx + 1 }) hstage h.memory hok
  · refine (engineOk_symbols (s := afterSymbol g s) he).mpr ⟨hc, ?_, ?_, hstage, hroom⟩
    · simp only [afterSymbol]
      omega
    · simp only [afterSymbol, List.length_append, length_bin]
      omega

theorem runSymbol_inv {c : Command} {x : Symbol} {i : Instr} (h : Inv s) (he : s.engine = .symbols c)
    (hi : s.idx.toNat < s.ibuf.length) (hd : decodeSymbol x = .ok i) :
    ∃ g, runSymbol i s = .ok (afterSymbol g s) ∧ Inv (afterSymbol g s) := by
  obtain ⟨g, rfl | rfl⟩ := symbol_of_decodeSymbol hd <;> exact ⟨g, symbolField_inv g h he hi⟩

theorem raisable_of_decodeSymbol {x : Symbol} {e : DecodeError} (h : decodeSymbol x = .error e) : Raisable (faultOf e) := by
  obtain ⟨rfl, hout⟩ := illegalSymbol_of_decodeSymbol h
  exact hout

theorem symbolLoop_inv {c : Command} {xs : List Symbol} (h : Inv s) (he : s.engine = .symbols c)
    (hx : s.ibuf.drop s.idx.toNat = xs) : StageEnds Inv (symbolLoop xs s) := by
  induction xs generalizing s with
  | nil => exact .ok h
  | cons x xs ih =>
    have hi : s.idx.toNat < s.ibuf.length := by
      by_contra hge
      rw [List.drop_eq_nil_of_le (Nat.not_lt.mp hge)] at hx
      cases hx
    unfold symbolLoop nextSymbol
    cases hd : decodeSymbol x with
    | error e => exact .error (raisable_of_decodeSymbol hd)
    | ok i =>
      obtain ⟨g, hrun, hinv⟩ := runSymbol_inv h he hi hd
      dsimp only
      rw [hrun]
      refine ih (s := afterSymbol g s) hinv he ?_
      show s.ibuf.drop (s.idx + 1).toNat = xs
      rw [toNat_idx_succ h.memory hi, ← List.drop_drop, hx]
      rfl

theorem tdecStage_inv {c : Command} (hc : c = .tdec ∨ c = .revert) (hb : s.bbuf = []) (hstage : s.bstage = []) (h : Inv s) :
    StageEnds Inv (tdecStage c s) := by
  unfold tdecStage
  split
  next => exact .error trivial
  next hroom =>
    have hstart : Inv { s with idx := 0, engine := .symbols c } :=
      { h with engine := (engineOk_symbols rfl).mpr ⟨hc, Nat.zero_le _, by simp [hb], hstage, Nat.not_lt.mp hroom⟩ }
    exact symbolLoop_inv hstart rfl rfl

/-! UNPACK's scan. -/

theorem fieldNumber_lt_of_isValueField {i : Instr} (h : isValueField i = true) : fieldNumber i < 2 ^ 15 := by
  cases i
  case v8 v => exact v.isLt.trans (by decide)
  case v16 v => exact v.isLt
  case v16x v => exact v.isLt
  all_goals cases h

theorem ltrunc_le_length {c : Command} {p : Position} (h : Inv s) (he : s.engine = .fields c p) :
    s.ltrunc.toNat ≤ s.bbuf.length := by
  obtain ⟨-, htrunc, -, -⟩ := (engineOk_fields he).mp h.engine
  omega

/-- Past a field of 8 or 16 bits POS is still a multiple of 8, at most LTRUNC (R21, R22). -/
theorem engineOk_advance {c : Command} {p q : Position} {w : Nat} {t : State} (h : Inv s) (he : s.engine = .fields c p)
    (hw : w = 8 ∨ w = 16) (hl : s.pos.toNat + w ≤ s.ltrunc.toNat) (ht : t.engine = .fields c q) (hb : t.bbuf = s.bbuf)
    (htrunc : t.ltrunc = s.ltrunc) (hpos : t.pos = s.pos + BitVec.ofNat 32 w) : engineOk t = true := by
  obtain ⟨hc, hlt, halign, -⟩ := (engineOk_fields he).mp h.engine
  have hnum := toNat_pos_add hl
  rw [engineOk_fields ht, hb, htrunc, hpos, hnum]
  exact ⟨hc, hlt, by omega, hl⟩

theorem afterCount_inv {c : Command} {p : Position} {i : Instr} (hi : isCountField i = true) (h : Inv s)
    (he : s.engine = .fields c p) (hl : s.pos.toNat + i.width ≤ s.ltrunc.toNat) : Inv (afterCount c i s) :=
  { h with engine := engineOk_advance h he (field_width (.inr hi)) hl rfl rfl rfl rfl }

theorem afterValue_inv {c : Command} {p : Position} {i : Instr} (hi : isValueField i = true) (h : Inv s)
    (he : s.engine = .fields c p) (hl : s.pos.toNat + i.width ≤ s.ltrunc.toNat)
    (hfit : (runCount p s).toNat = 0 ∨ s.vbuf.length + (runCount p s).toNat ≤ s.cfg.vbufCap.toNat) :
    Inv (afterValue c p i s) := by
  have hv : BitVec.ofNat 16 (fieldNumber i) < 0x8000 := by
    have hlt := fieldNumber_lt_of_isValueField hi
    simp only [BitVec.lt_def, BitVec.ofNat_eq_ofNat, BitVec.toNat_ofNat]
    omega
  have hmem : Memory.wf { s with vbuf := s.vbuf ++ List.replicate (runCount p s).toNat (BitVec.ofNat 16 (fieldNumber i)) } =
      true := appendRun_wf h.memory (appendRun_fits hfit)
  refine { h with
    memory := hmem
    values := ?_
    engine := engineOk_advance h he (field_width (.inl hi)) hl rfl rfl rfl rfl
    rval := hv }
  refine List.forall_mem_append.mpr ⟨h.values, fun w hw => ?_⟩
  rw [List.eq_of_mem_replicate hw]
  exact hv

theorem runField_inv {c : Command} {p : Position} {i : Instr} (h : Inv s) (he : s.engine = .fields c p)
    (hf : fetchField p s = .ok i) : StageEnds Inv (runField c p i s) := by
  obtain ⟨hfield, hwidth⟩ := field_of_decodeField hf
  obtain ⟨-, -, -, hpos⟩ := (engineOk_fields he).mp h.engine
  have hl : s.pos.toNat + i.width ≤ s.ltrunc.toNat := by
    rw [length_visibleBits (ltrunc_le_length h he), remaining] at hwidth
    omega
  obtain hi | hi := hfield
  · rw [runField_value hi (recognisedAt_of_decodeField hf) hl]
    split
    next hfit => exact .ok (afterValue_inv hi h he hl hfit)
    next => exact .error trivial
  · rw [runField_count hi hl]
    exact .ok (afterCount_inv hi h he hl)

theorem raisable_of_fetchField {p : Position} {e : DecodeError} (h : fetchField p s = .error e) : Raisable (faultOf e) := by
  rw [endOfInput_of_decodeField h]
  trivial

theorem nextField_inv (h : Inv s) : StageEnds Inv (nextField s) := by
  cases he : s.engine with
  | idle => simpa only [nextField, he] using .ok h
  | symbols c => simpa only [nextField, he] using .ok h
  | fields c p =>
    cases hf : fetchField p s with
    | error e =>
      rw [nextField_error he hf]
      exact .error (raisable_of_fetchField hf)
    | ok i =>
      rw [nextField_ok he hf]
      exact runField_inv h he hf

theorem decRun_inv (h : Inv s) : StageEnds Inv (decRun s) := by
  refine (nextField_inv h).andThen fun t ht => ?_
  split
  · exact nextField_inv ht
  · exact .ok ht

theorem scanLoop_inv (n : Nat) (h : Inv s) : StageEnds Inv (scanLoop n s) := by
  induction n generalizing s with
  | zero => exact .ok h
  | succ n ih =>
    unfold scanLoop
    split
    · exact (decRun_inv h).andThen fun _ => ih
    · exact .ok h

theorem beginScan_inv {c : Command} (hc : c = .unpack ∨ c = .revert) (h : Inv s) : Inv (beginScan c s) := by
  have hlt : s.bbuf.length < 2 ^ 32 := by
    obtain ⟨-, hcap, -⟩ := (Memory.wf_iff s).mp h.memory
    exact hcap.trans_lt s.cfg.bbufCap.isLt
  refine { h with engine := (engineOk_fields rfl).mpr ⟨hc, ?_, rfl, Nat.zero_le _⟩ }
  rw [beginScan_ltrunc, beginScan_bbuf, BitVec.toNat_ofNat]
  omega

theorem unpackStage_inv {c : Command} (hc : c = .unpack ∨ c = .revert) (h : Inv s) : StageEnds Inv (unpackStage c s) := by
  unfold unpackStage
  split
  · exact .ok h
  · exact scanLoop_inv _ (beginScan_inv hc h)

/-! The commands. -/

theorem commandStage_ends (n : Nat) (c : Command) (he : s.engine = .idle) (h : Inv s) :
    StageEnds BuffersOk (commandStage n c (clearOutputs c s)) := by
  have hclear := clearOutputs_inv c he h
  have toBuffers (t : State) (ht : Inv t) : BuffersOk t := ht.buffersOk
  cases c with
  | nop => exact .ok hclear.buffersOk
  | clear => exact .ok hclear.buffersOk
  | pack => exact packStage_ends n rfl hclear.buffersOk
  | unpack => exact (unpackStage_inv (.inl rfl) hclear).mono toBuffers
  | tenc => exact tencStage_ends hclear.buffersOk
  | tdec => exact (tdecStage_inv (.inl rfl) rfl rfl hclear).mono toBuffers
  | densify => exact (packStage_ends n rfl hclear.buffersOk).andThen fun _ => tencStage_ends
  | revert =>
    exact (tdecStage_inv (.inr rfl) rfl rfl hclear).andThen fun _ ht =>
      (unpackStage_inv (.inr rfl) ht).andThen fun _ hu => joinStage_ends hu.buffersOk

theorem commandStart_engine (c : Command) (s : State) : (commandStart c s).engine = s.engine := by
  cases c <;> rfl

theorem exec_command_inv (c : Command) (he : s.engine = .idle) (h : Inv s) :
    ∃ t, exec (commandInstr c) s = .next t ∧ Inv t := by
  by_cases hc : framed c
  · have hstart := commandStart_inv c h
    have he' : (commandStart c s).engine = .idle := (commandStart_engine c s).trans he
    exact ⟨_, exec_framed hc he, frame_inv hstart.buffersOk (commandStage_ends _ c he' hstart)⟩
  · obtain rfl | rfl : c = .nop ∨ c = .clear := by
      rw [framed] at hc
      tauto
    · exact ⟨s, rfl, h⟩
    · exact ⟨_, whenIdle_idle he, resetBlock_inv s⟩

end Sys2Proof.Machine
end

section
/-! SUPPORT. What the next step does: one equation for each action of the host, and the instruction decoded inside a command (R31,
R143, R162, R231). -/

namespace Sys2Proof.Machine

variable {s : State} {rest : List HostAction}

/-! Between commands: the host's next action. -/

theorem step_reset (he : s.engine = .idle) (hh : s.host = .reset :: rest) :
    step s = .next (resetBlock { s with host := rest }) :=
  step_other (fetch_host he hh)

theorem step_writeCmd {v : BitVec 32} (he : s.engine = .idle) (hh : s.host = .writeReg .cmd v :: rest) :
    step s = exec (decodeCommand v) { s with host := rest } := by
  rw [step, fetch_host he hh]
  rfl

theorem step_writeReg {r : Reg} {v : BitVec 32} (hr : r ≠ .cmd) (he : s.engine = .idle)
    (hh : s.host = .writeReg r v :: rest) : step s = .next (writeReg r v { s with host := rest }) := by
  apply step_other
  rw [fetch_host he hh]
  cases r
  case cmd => exact absurd rfl hr
  all_goals rfl

theorem step_readReg {r : Reg} (he : s.engine = .idle) (hh : s.host = .readReg r :: rest) :
    step s = .next { s with host := rest } :=
  step_other (fetch_host he hh)

theorem step_writeIbuf {i : Len} {c : Symbol} (he : s.engine = .idle) (hh : s.host = .writeIbuf i c :: rest) :
    step s = writeIbuf i c { s with host := rest } :=
  step_other (fetch_host he hh)

theorem step_writeBbuf {i : Len} {b : Bool} (he : s.engine = .idle) (hh : s.host = .writeBbuf i b :: rest) :
    step s = writeBbuf i b { s with host := rest } :=
  step_other (fetch_host he hh)

theorem step_readBuf_below {b : Buffer} {i : Len} (he : s.engine = .idle) (hh : s.host = .readBuf b i :: rest)
    (hi : i.toNat < bufLength b s) : step s = .next { s with host := rest } :=
  (step_other (fetch_host he hh)).trans (if_pos hi)

theorem step_readBuf_beyond {b : Buffer} {i : Len} (he : s.engine = .idle) (hh : s.host = .readBuf b i :: rest)
    (hi : bufLength b s ≤ i.toNat) : step s = .refused .readBeyondLength :=
  (step_other (fetch_host he hh)).trans (if_neg (Nat.not_lt.mpr hi))

/-! Inside a command: the symbol at the loop index, the field at POS. -/

theorem step_symbol {c : Command} {x : Symbol} {i : Instr} (he : s.engine = .symbols c) (hx : s.ibuf[s.idx.toNat]? = some x)
    (hd : decodeSymbol x = .ok i) : step s = exec i s := by
  rw [step, fetch, he]
  simp only [hx, hd]

theorem step_field {c : Command} {p : Position} {i : Instr} (he : s.engine = .fields c p) (hp : p = .S → s.pos < s.ltrunc)
    (hf : fetchField p s = .ok i) : step s = exec i s := by
  have hn : ¬ (p = .S ∧ s.ltrunc ≤ s.pos) := fun h => absurd (hp h.1) (BitVec.not_lt.mpr h.2)
  rw [step, fetch, he]
  simp only [hn, if_false, hf]

end Sys2Proof.Machine
end

section
/-! SUPPORT. The host's writes to the lengths and to the entries of IBUF and BBUF (R36, R233; log 8). -/

namespace Sys2Proof.Machine

variable {α : Type} {s : State}

/-! Lengths. -/

theorem writeIlen_above {v : Len} (h : s.cfg.ibufCap < v) : writeIlen v s = s := if_neg (BitVec.not_le.mpr h)

theorem writeBlen_above {v : Len} (h : s.cfg.bbufCap < v) : writeBlen v s = s := if_neg (BitVec.not_le.mpr h)

theorem writeIlen_fits {v : Len} (h : v ≤ s.cfg.ibufCap) :
    writeIlen v s = { s with
      ibuf := (setLength (Config.unwrittenSymbol s.draws) v.toNat s.ibuf s.istage).1
      istage := (setLength (Config.unwrittenSymbol s.draws) v.toNat s.ibuf s.istage).2
      draws := s.draws + 1 } := if_pos h

theorem writeBlen_fits {v : Len} (h : v ≤ s.cfg.bbufCap) :
    writeBlen v s = { s with
      bbuf := (setLength (Config.unwrittenBit s.draws) v.toNat s.bbuf s.bstage).1
      bstage := (setLength (Config.unwrittenBit s.draws) v.toNat s.bbuf s.bstage).2
      draws := s.draws + 1 } := if_pos h

/-- A host write to a register other than CMD changes no more than the two input buffers and the draw counter. -/
theorem writeReg_frame (r : Reg) (v : BitVec 32) (s : State) :
    ∃ ib is bb bs d, writeReg r v s = { s with ibuf := ib, istage := is, bbuf := bb, bstage := bs, draws := d } := by
  cases r
  case ilen =>
    by_cases h : v ≤ s.cfg.ibufCap
    · exact ⟨_, _, _, _, _, writeIlen_fits h⟩
    · exact ⟨_, _, _, _, _, writeIlen_above (BitVec.not_le.mp h)⟩
  case blen =>
    by_cases h : v ≤ s.cfg.bbufCap
    · exact ⟨_, _, _, _, _, writeBlen_fits h⟩
    · exact ⟨_, _, _, _, _, writeBlen_above (BitVec.not_le.mp h)⟩
  all_goals exact ⟨_, _, _, _, _, rfl⟩

/-! Entries. -/

/-- A buffer and its staged entries after a host write to entry `i` inside the array. -/
def putEntry (i : Nat) (x : α) (r : List α × List (Nat × α)) : List α × List (Nat × α) :=
  if i < r.1.length then (r.1.set i x, r.2) else (r.1, stagePut i x r.2)

theorem putEntry_below {i : Nat} {x : α} {r : List α × List (Nat × α)} (h : i < r.1.length) :
    putEntry i x r = (r.1.set i x, r.2) := if_pos h

/-- The host sees its last write to an entry once a length covers it, wherever the entry is held till then. -/
theorem entryAt_putEntry (i k : Nat) (x : α) (r : List α × List (Nat × α)) :
    entryAt (putEntry i x r).1 (putEntry i x r).2 k = if k = i then some x else entryAt r.1 r.2 k := by
  unfold putEntry
  by_cases hk : k = i
  · subst hk
    split
    next hi => simp [entryAt, hi]
    next hi => simp [entryAt, hi, staged_stagePut]
  · rw [if_neg hk]
    split
    next => simp [entryAt, List.getElem?_set_ne (Ne.symm hk)]
    next => simp [entryAt, staged_stagePut, hk]

theorem writeIbuf_inside {i : Len} {c : Symbol} (h : i < s.cfg.ibufCap) :
    writeIbuf i c s = .next { s with
      ibuf := (putEntry i.toNat c (s.ibuf, s.istage)).1
      istage := (putEntry i.toNat c (s.ibuf, s.istage)).2 } := by
  rw [writeIbuf, if_neg (BitVec.not_le.mpr h), putEntry]
  split <;> rfl

theorem writeBbuf_inside {i : Len} {b : Bool} (h : i < s.cfg.bbufCap) :
    writeBbuf i b s = .next { s with
      bbuf := (putEntry i.toNat b (s.bbuf, s.bstage)).1
      bstage := (putEntry i.toNat b (s.bbuf, s.bstage)).2 } := by
  rw [writeBbuf, if_neg (BitVec.not_le.mpr h), putEntry]
  split <;> rfl

theorem step_writeIbuf_inside {i : Len} {c : Symbol} {rest : List HostAction} (he : s.engine = .idle)
    (hh : s.host = .writeIbuf i c :: rest) (hi : i < s.cfg.ibufCap) :
    step s = .next { s with
      ibuf := (putEntry i.toNat c (s.ibuf, s.istage)).1
      istage := (putEntry i.toNat c (s.ibuf, s.istage)).2
      host := rest } :=
  (step_writeIbuf he hh).trans (writeIbuf_inside (s := { s with host := rest }) hi)

theorem step_writeBbuf_inside {i : Len} {b : Bool} {rest : List HostAction} (he : s.engine = .idle)
    (hh : s.host = .writeBbuf i b :: rest) (hi : i < s.cfg.bbufCap) :
    step s = .next { s with
      bbuf := (putEntry i.toNat b (s.bbuf, s.bstage)).1
      bstage := (putEntry i.toNat b (s.bbuf, s.bstage)).2
      host := rest } :=
  (step_writeBbuf he hh).trans (writeBbuf_inside (s := { s with host := rest }) hi)

theorem step_writeIbuf_outside {i : Len} {c : Symbol} {rest : List HostAction} (he : s.engine = .idle)
    (hh : s.host = .writeIbuf i c :: rest) (hi : s.cfg.ibufCap ≤ i) : step s = .fault .noSuchEntry :=
  (step_writeIbuf he hh).trans (if_pos hi)

theorem step_writeBbuf_outside {i : Len} {b : Bool} {rest : List HostAction} (he : s.engine = .idle)
    (hh : s.host = .writeBbuf i b :: rest) (hi : s.cfg.bbufCap ≤ i) : step s = .fault .noSuchEntry :=
  (step_writeBbuf he hh).trans (if_pos hi)

/-! A whole load: entries in index order, then the length (R233). -/

/-- A buffer and its staged entries after the host has written `xs` to the entries from `n` on. -/
def putEntries (n : Nat) (xs : List α) (r : List α × List (Nat × α)) : List α × List (Nat × α) :=
  match xs with
  | [] => r
  | x :: xs => putEntries (n + 1) xs (putEntry n x r)

theorem entryAt_putEntries_before {n k : Nat} (hk : k < n) (xs : List α) (r : List α × List (Nat × α)) :
    entryAt (putEntries n xs r).1 (putEntries n xs r).2 k = entryAt r.1 r.2 k := by
  induction xs generalizing n r with
  | nil => rfl
  | cons x xs ih => rw [putEntries, ih (by omega), entryAt_putEntry, if_neg hk.ne]

theorem entryAt_putEntries {n k : Nat} {xs : List α} (hk : k < xs.length) (r : List α × List (Nat × α)) :
    entryAt (putEntries n xs r).1 (putEntries n xs r).2 (n + k) = xs[k]? := by
  induction xs generalizing n k r with
  | nil => cases hk
  | cons x xs ih =>
    rw [putEntries]
    cases k with
    | zero =>
      exact (entryAt_putEntries_before (Nat.lt_succ_self n) xs _).trans ((entryAt_putEntry _ _ _ _).trans (if_pos rfl))
    | succ k =>
      rw [show n + (k + 1) = n + 1 + k by omega]
      exact ih (Nat.lt_of_succ_lt_succ hk) _

/-- A length written after a load covers exactly what was loaded, whatever the buffer held before. -/
theorem setLength_putEntries (free : Nat → α) (xs : List α) (r : List α × List (Nat × α)) :
    (setLength free xs.length (putEntries 0 xs r).1 (putEntries 0 xs r).2).1 = xs :=
  setLength_written free fun k hk => by simpa using entryAt_putEntries (n := 0) hk r

/-- The steps of a load, for either input buffer: `act` is the host's write to an entry, `state` the machine by what the buffer
holds and by the actions that are pending. -/
theorem run_hostWrites {act : Len → α → HostAction} {cap : Len} {state : List α × List (Nat × α) → List HostAction → State}
    (hstep : ∀ i x r rest, i < cap → step (state r (act i x :: rest)) = .next (state (putEntry i.toNat x r) rest))
    (n : Nat) (xs : List α) (r : List α × List (Nat × α)) (rest : List HostAction) (hcap : n + xs.length ≤ cap.toNat) :
    Sys2Proof.core.run xs.length (state r ((xs.zipIdx n).map (fun e => act (BitVec.ofNat 32 e.2) e.1) ++ rest)) =
      .next (state (putEntries n xs r) rest) := by
  induction xs generalizing n r with
  | nil => rfl
  | cons x xs ih =>
    rw [List.length_cons] at hcap
    have hn : (BitVec.ofNat 32 n).toNat = n := by
      have := cap.isLt
      rw [BitVec.toNat_ofNat]
      omega
    have hfirst := hstep (BitVec.ofNat 32 n) x r ((xs.zipIdx (n + 1)).map (fun e => act (BitVec.ofNat 32 e.2) e.1) ++ rest)
      (by rw [BitVec.lt_def, hn]; omega)
    rw [hn] at hfirst
    exact (run_next _ hfirst).trans (ih (n + 1) _ (by omega))

end Sys2Proof.Machine
end

section
/-! SUPPORT. The invariant across a step: a step keeps it, or stops at a host access to an entry that is not there (R30, R37, R61;
logs 10 and 11). -/

namespace Sys2Proof.Machine

variable {s : State} {rest : List HostAction}

theorem reset_inv : Inv State.reset := resetBlock_inv State.reset

/-- What the host writes between commands is in the input buffers only, so their canonical form is all that is to be kept. -/
theorem hostWrite_inv {t : State} (h : Inv s) (he : s.engine = .idle) (hm : Memory.wf t = true)
    (ht : ∃ ib is bb bs d, t = { s with ibuf := ib, istage := is, bbuf := bb, bstage := bs, draws := d }) : Inv t := by
  obtain ⟨ib, is, bb, bs, d, rfl⟩ := ht
  exact { h with memory := hm, engine := (engineOk_idle (by exact he)).mpr ((engineOk_idle he).mp h.engine) }

theorem decodeCommand_eq_commandInstr (v : BitVec 32) : ∃ c, decodeCommand v = commandInstr c := by
  unfold decodeCommand
  split
  · exact ⟨.nop, rfl⟩
  · exact ⟨.pack, rfl⟩
  · exact ⟨.unpack, rfl⟩
  · exact ⟨.tenc, rfl⟩
  · exact ⟨.tdec, rfl⟩
  · exact ⟨.densify, rfl⟩
  · exact ⟨.revert, rfl⟩
  · exact ⟨.clear, rfl⟩

/-- The host accesses an entry that is not there: a write beyond a buffer's array, a read beyond a buffer's length. -/
def accessesMissingEntry (s : State) : HostAction → Prop
  | .reset => False
  | .writeReg _ _ => False
  | .readReg _ => False
  | .writeIbuf i _ => s.cfg.ibufCap ≤ i
  | .writeBbuf i _ => s.cfg.bbufCap ≤ i
  | .readBuf b i => bufLength b s ≤ i.toNat

/-- Such an access stops the machine. -/
theorem step_of_missingEntry {a : HostAction} (he : s.engine = .idle) (hh : s.host = a :: rest)
    (ha : accessesMissingEntry s a) (t : State) : step s ≠ .next t := by
  cases a with
  | reset => exact ha.elim
  | writeReg r v => exact ha.elim
  | readReg r => exact ha.elim
  | writeIbuf i c => rw [step_writeIbuf_outside he hh ha]; nofun
  | writeBbuf i b => rw [step_writeBbuf_outside he hh ha]; nofun
  | readBuf b i => rw [step_readBuf_beyond he hh ha]; nofun

/-- Every other action of the host is carried out and keeps the invariant. -/
theorem step_hostAction_inv {a : HostAction} (h : Inv s) (he : s.engine = .idle) (hh : s.host = a :: rest)
    (ha : ¬ accessesMissingEntry s a) : ∃ t, step s = .next t ∧ Inv t := by
  have hpop : Inv { s with host := rest } := { h with }
  cases a with
  | reset => exact ⟨_, step_reset he hh, resetBlock_inv _⟩
  | writeReg r v =>
    by_cases hr : r = .cmd
    · subst hr
      obtain ⟨c, hc⟩ := decodeCommand_eq_commandInstr v
      rw [step_writeCmd he hh, hc]
      exact exec_command_inv c he hpop
    · exact ⟨_, step_writeReg hr he hh, hostWrite_inv hpop he (writeReg_wf r v hpop.memory) (writeReg_frame r v _)⟩
  | readReg r => exact ⟨_, step_readReg he hh, hpop⟩
  | writeIbuf i c =>
    have hw := writeIbuf_inside (s := { s with host := rest }) (c := c) (BitVec.not_le.mp ha)
    exact ⟨_, (step_writeIbuf he hh).trans hw, hostWrite_inv hpop he (writeIbuf_wf hpop.memory hw) ⟨_, _, _, _, _, rfl⟩⟩
  | writeBbuf i b =>
    have hw := writeBbuf_inside (s := { s with host := rest }) (b := b) (BitVec.not_le.mp ha)
    exact ⟨_, (step_writeBbuf he hh).trans hw, hostWrite_inv hpop he (writeBbuf_wf hpop.memory hw) ⟨_, _, _, _, _, rfl⟩⟩
  | readBuf b i => exact ⟨_, step_readBuf_below he hh (Nat.not_le.mp ha), hpop⟩

/-- The end of TDEC's loop: TDEC completes, REVERT goes on to its scan (R188). -/
theorem finishSymbols_inv (c : Command) (h : Inv s) : Inv (finishSymbols c s) := by
  unfold finishSymbols
  split
  next hc => exact beginScan_inv (.inr hc) h
  next => exact complete_inv h.buffersOk

/-- The end of the scan: UNPACK completes, REVERT goes on to JOIN (R188). -/
theorem finishFields_inv (c : Command) (h : Inv s) : Inv (finishFields c s) := by
  unfold finishFields
  split
  next =>
    have hjoin := joinStage_ends h.buffersOk
    generalize joinStage s = r at hjoin
    cases hjoin with
    | ok ht => exact complete_inv ht
    | error hf => exact takeFault_inv c h.buffersOk hf
  next => exact complete_inv h.buffersOk

/-- Inside TDEC's loop. -/
theorem step_symbols_inv {c : Command} (h : Inv s) (he : s.engine = .symbols c) : ∃ t, step s = .next t ∧ Inv t := by
  by_cases hi : s.idx.toNat < s.ibuf.length
  · have hx : s.ibuf[s.idx.toNat]? = some s.ibuf[s.idx.toNat] := List.getElem?_eq_getElem hi
    cases hd : decodeSymbol s.ibuf[s.idx.toNat] with
    | error e =>
      exact ⟨_, step_other (fetch_symbol_error he hx hd), takeFault_inv c h.buffersOk (raisable_of_decodeSymbol hd)⟩
    | ok i =>
      obtain ⟨g, hrun, hinv⟩ := runSymbol_inv h he hi hd
      rw [step_symbol he hx hd, exec_symbol he hd, hrun]
      exact ⟨_, rfl, hinv⟩
  · exact ⟨_, step_other (fetch_symbols_end he (Nat.not_lt.mp hi)), finishSymbols_inv c h⟩

/-- Inside UNPACK's scan. -/
theorem step_fields_inv {c : Command} {p : Position} (h : Inv s) (he : s.engine = .fields c p) :
    ∃ t, step s = .next t ∧ Inv t := by
  by_cases hp : p = .S → s.pos < s.ltrunc
  · cases hf : fetchField p s with
    | error e =>
      exact ⟨_, step_other (fetch_field_error he hp hf), takeFault_inv c h.buffersOk (raisable_of_fetchField hf)⟩
    | ok i =>
      rw [step_field he hp hf, exec_field he hf]
      exact settle_inv c h (runField_inv h he hf)
  · obtain ⟨rfl, hend⟩ := Classical.not_imp.mp hp
    exact ⟨_, step_other (fetch_fields_end he (BitVec.not_lt.mp hend)), finishFields_inv c h⟩

/-- What a step from the invariant can do. -/
theorem step_cases (h : Inv s) :
    (∃ t, step s = .next t ∧ Inv t) ∨
    (s.engine = .idle ∧ ∃ a rest, s.host = a :: rest ∧ accessesMissingEntry s a) := by
  cases he : s.engine with
  | idle =>
    cases hh : s.host with
    | nil => exact .inl ⟨s, step_quiet he hh, h⟩
    | cons a rest =>
      by_cases ha : accessesMissingEntry s a
      · exact .inr ⟨rfl, a, rest, rfl, ha⟩
      · exact .inl (step_hostAction_inv h he hh ha)
  | symbols c => exact .inl (step_symbols_inv h he)
  | fields c p => exact .inl (step_fields_inv h he)

/-- Settles O58: the reset state is its own reset. -/
theorem resetHasTheInvariant : Obligations.ResetHasTheInvariant := reset_inv

/-- Settles O59: where the step gives a next state at all, it is the one with the invariant. -/
theorem stepKeepsTheInvariant : Obligations.StepKeepsTheInvariant := by
  intro s t h ht
  obtain ⟨t', ht', hinv⟩ | ⟨he, a, rest, hh, ha⟩ := step_cases h
  · rw [ht] at ht'
    cases ht'
    exact hinv
  · exact absurd ht (step_of_missingEntry he hh ha t)

/-- Settles O60: the premises exclude each of the three accesses that stop the machine. -/
theorem onlyAHostAccessStopsTheMachine : Obligations.OnlyAHostAccessStopsTheMachine := by
  intro s h hibuf hbbuf hread
  obtain ⟨t, ht, -⟩ | ⟨he, a, rest, hh, ha⟩ := step_cases h
  · exact ⟨t, ht⟩
  · cases a with
    | reset => exact ha.elim
    | writeReg r v => exact ha.elim
    | readReg r => exact ha.elim
    | writeIbuf i c => exact absurd (hibuf rest i c he hh) (BitVec.not_lt.mpr ha)
    | writeBbuf i b => exact absurd (hbbuf rest i b he hh) (BitVec.not_lt.mpr ha)
    | readBuf b i => exact absurd (hread rest b i he hh) (Nat.not_lt.mpr ha)

end Sys2Proof.Machine
end

section
/-! SUPPORT. What the host sees between commands: register reads, the reset state, the lengths and the entries it writes and reads
(R30, R35, R36, R38, R233). -/

namespace Sys2Proof.Machine

variable {s : State}

/-! Register reads. -/

theorem toNat_append {m n : Nat} (x : BitVec m) (y : BitVec n) : (x ++ y).toNat = x.toNat * 2 ^ n + y.toNat := by
  rw [BitVec.toNat_append, ← Nat.shiftLeft_add_eq_or_of_lt y.isLt, Nat.shiftLeft_eq]

theorem toNat_statusWord (s : State) : (statusWord s).toNat = (busy s).toNat + 2 * s.done.toNat + 4 * s.err.toNat := by
  simp only [statusWord, toNat_append, BitVec.toNat_ofBool]
  omega

theorem toNat_errcodeWord (s : State) : (errcodeWord s).toNat = s.errCode.toNat + 16 * s.errClass.toNat := by
  rw [errcodeWord, toNat_append]
  omega

/-- A buffer no longer than its capacity has a length that its register holds. -/
theorem toNat_ofNat_length {α : Type} {l : List α} {cap : Len} (h : l.length ≤ cap.toNat) :
    (BitVec.ofNat 32 l.length).toNat = l.length := by
  have := cap.isLt
  rw [BitVec.toNat_ofNat]
  omega

/-- Settles O57: each word is the concatenation of its fields, and a length within the capacity fits its register. -/
theorem registersReadTheirFields : Obligations.RegistersReadTheirFields := by
  intro s
  refine ⟨rfl, ?_, ?_, ?_, fun hm => ?_⟩
  · exact (BitVec.toNat_setWidth_of_le (by decide)).trans (toNat_statusWord s)
  · exact (BitVec.toNat_setWidth_of_le (by decide)).trans (toNat_errcodeWord s)
  · exact BitVec.toNat_setWidth_of_le (by decide)
  · obtain ⟨hi, hb, hv, ho, -, -⟩ := (Memory.wf_iff s).mp hm
    exact ⟨toNat_ofNat_length hi, toNat_ofNat_length hb, toNat_ofNat_length hv, toNat_ofNat_length ho⟩

/-! Reset and CLEAR. -/

theorem readReg_reset (r : Reg) : readReg r State.reset = 0 := by
  cases r <;> rfl

theorem readReg_resetBlock (r : Reg) (s : State) : readReg r (resetBlock s) = readReg r State.reset := by
  cases r <;> rfl

theorem readBuf_resetBlock (b : Buffer) (k : Nat) (s : State) : readBuf b k (resetBlock s) = none := by
  cases b <;> rfl

/-- Settles O47: both are `resetBlock`. -/
theorem clearAndResetReturnToTheResetState : Obligations.ClearAndResetReturnToTheResetState :=
  ⟨readReg_reset,
    fun s he => ⟨resetBlock s, whenIdle_idle he, (readReg_resetBlock · s), (readBuf_resetBlock · · s), rfl, rfl⟩,
    fun _ _ he hh => ⟨_, step_reset he hh, (readReg_resetBlock · _), (readBuf_resetBlock · · _), rfl, rfl⟩⟩

/-- Settles O53, by the step's equation in each of the three places where it fetches an instruction. -/
theorem stepRunsTheDecodedInstruction : Obligations.StepRunsTheDecodedInstruction :=
  ⟨fun _ _ _ => step_writeCmd, fun _ _ _ _ => step_symbol, fun _ _ _ _ => step_field⟩

/-! Reads of a buffer. -/

theorem readBuf_isSome_iff (b : Buffer) (k : Nat) (s : State) : (readBuf b k s).isSome = true ↔ k < bufLength b s := by
  cases b <;> simp [readBuf, bufLength]

/-- Settles O56: a read has a value exactly below the length. -/
theorem hostReadsOnlyBelowTheLength : Obligations.HostReadsOnlyBelowTheLength := by
  intro s b i rest he hh
  refine ⟨fun hi => ⟨step_readBuf_below he hh hi, (readBuf_isSome_iff b _ s).mpr hi⟩,
    fun hi => ⟨step_readBuf_beyond he hh hi, ?_⟩⟩
  rw [← Option.not_isSome_iff_eq_none, readBuf_isSome_iff]
  exact Nat.not_lt.mpr hi

/-! Writes of a length. -/

theorem step_writeIlen_fits {v : Len} {rest : List HostAction} (he : s.engine = .idle)
    (hh : s.host = .writeReg .ilen v :: rest) (hv : v ≤ s.cfg.ibufCap) :
    step s = .next { s with
      ibuf := (setLength (Config.unwrittenSymbol s.draws) v.toNat s.ibuf s.istage).1
      istage := (setLength (Config.unwrittenSymbol s.draws) v.toNat s.ibuf s.istage).2
      draws := s.draws + 1
      host := rest } :=
  (step_writeReg (by decide) he hh).trans (congrArg _ (writeIlen_fits (s := { s with host := rest }) hv))

theorem step_writeBlen_fits {v : Len} {rest : List HostAction} (he : s.engine = .idle)
    (hh : s.host = .writeReg .blen v :: rest) (hv : v ≤ s.cfg.bbufCap) :
    step s = .next { s with
      bbuf := (setLength (Config.unwrittenBit s.draws) v.toNat s.bbuf s.bstage).1
      bstage := (setLength (Config.unwrittenBit s.draws) v.toNat s.bbuf s.bstage).2
      draws := s.draws + 1
      host := rest } :=
  (step_writeReg (by decide) he hh).trans (congrArg _ (writeBlen_fits (s := { s with host := rest }) hv))

/-- A length register reads back what was written. -/
theorem length_setLength {α : Type} (free : Nat → α) {v cap : Len} {buf : List α} {stage : List (Nat × α)}
    (hb : buf.length ≤ cap.toNat) (hw : stageWf buf.length cap.toNat stage = true) :
    BitVec.ofNat 32 (setLength free v.toNat buf stage).1.length = v := by
  rw [(setLength_spec free hb hw).1, BitVec.ofNat_toNat, BitVec.setWidth_eq]

/-- Settles O54, by what `setLength` leaves of the buffer. -/
theorem hostWritesLengthsUpToTheCapacity : Obligations.HostWritesLengthsUpToTheCapacity := by
  intro s v rest he hm
  obtain ⟨hi, hb, -, -, hiw, hbw⟩ := (Memory.wf_iff s).mp hm
  refine ⟨fun hh hv => ?_, fun hh hv => ?_, fun hh hv => ?_, fun hh hv => ?_, fun r hr hh => ?_⟩
  · rw [step_writeReg (by decide) he hh]
    exact congrArg _ (writeIlen_above hv)
  · rw [step_writeReg (by decide) he hh]
    exact congrArg _ (writeBlen_above hv)
  · exact ⟨_, step_writeIlen_fits he hh hv, length_setLength _ hi hiw, setLength_take _ _ _ _, rfl⟩
  · exact ⟨_, step_writeBlen_fits he hh hv, length_setLength _ hb hbw, setLength_take _ _ _ _, rfl⟩
  · obtain rfl | rfl | rfl | rfl | rfl := hr <;> exact step_writeReg (by decide) he hh

/-! Loads. -/

/-- A write below the length replaces that entry alone. -/
theorem getElem?_set_below {α : Type} {l : List α} {i : Nat} (x : α) (hi : i < l.length) (k : Nat) :
    (l.set i x)[k]? = if k = i then some x else l[k]? := by
  rw [List.getElem?_set, if_pos hi]
  simp only [eq_comm]

theorem ofNat_length_le {α : Type} {l : List α} {cap : Len} (h : l.length ≤ cap.toNat) :
    BitVec.ofNat 32 l.length ≤ cap := by
  rw [BitVec.le_def, toNat_ofNat_length h]
  exact h

/-- The host loads a text into IBUF. -/
theorem run_loadText (he : s.engine = .idle) {text : List Symbol} {rest : List HostAction}
    (hcap : text.length ≤ s.cfg.ibufCap.toNat)
    (hh : s.host = text.zipIdx.map (fun e => HostAction.writeIbuf (BitVec.ofNat 32 e.2) e.1) ++
      HostAction.writeReg .ilen (BitVec.ofNat 32 text.length) :: rest) :
    ∃ t : State, Sys2Proof.core.run (text.length + 1) s = .next t ∧ t.ibuf = text ∧
      t = { s with ibuf := t.ibuf, istage := t.istage, draws := t.draws, host := rest } := by
  have hwrites := run_hostWrites (state := fun r host => { s with ibuf := r.1, istage := r.2, host := host })
    (fun _ _ _ _ hi => step_writeIbuf_inside he rfl hi) 0 text (s.ibuf, s.istage)
    (.writeReg .ilen (BitVec.ofNat 32 text.length) :: rest) ((Nat.zero_add _).trans_le hcap)
  rw [← hh] at hwrites
  refine ⟨_, (run_add _ 1 hwrites).trans (run_next 0 (step_writeIlen_fits he rfl (ofNat_length_le hcap))), ?_, rfl⟩
  simp only [toNat_ofNat_length hcap]
  exact setLength_putEntries _ text _

/-- The host loads a bit string into BBUF. -/
theorem run_loadBits (he : s.engine = .idle) {bits : List Bool} {rest : List HostAction}
    (hcap : bits.length ≤ s.cfg.bbufCap.toNat)
    (hh : s.host = bits.zipIdx.map (fun e => HostAction.writeBbuf (BitVec.ofNat 32 e.2) e.1) ++
      HostAction.writeReg .blen (BitVec.ofNat 32 bits.length) :: rest) :
    ∃ t : State, Sys2Proof.core.run (bits.length + 1) s = .next t ∧ t.bbuf = bits ∧
      t = { s with bbuf := t.bbuf, bstage := t.bstage, draws := t.draws, host := rest } := by
  have hwrites := run_hostWrites (state := fun r host => { s with bbuf := r.1, bstage := r.2, host := host })
    (fun _ _ _ _ hi => step_writeBbuf_inside he rfl hi) 0 bits (s.bbuf, s.bstage)
    (.writeReg .blen (BitVec.ofNat 32 bits.length) :: rest) ((Nat.zero_add _).trans_le hcap)
  rw [← hh] at hwrites
  refine ⟨_, (run_add _ 1 hwrites).trans (run_next 0 (step_writeBlen_fits he rfl (ofNat_length_le hcap))), ?_, rfl⟩
  simp only [toNat_ofNat_length hcap]
  exact setLength_putEntries _ bits _

/-- Settles O55: the loads by `run_hostWrites` for the one buffer and the other, the single writes by `putEntry_below`. -/
theorem hostLoadsATextOrABitString : Obligations.HostLoadsATextOrABitString := by
  refine ⟨fun s text rest he _ => run_loadText he, fun s bits rest he _ => run_loadBits he,
    fun s i c rest he hm hh hi => ?_, fun s i b rest he hm hh hi => ?_⟩
  · obtain ⟨hlen, -⟩ := (Memory.wf_iff s).mp hm
    have hstep := step_writeIbuf_inside he hh (BitVec.lt_def.mpr (hi.trans_le hlen))
    rw [putEntry_below hi] at hstep
    exact ⟨_, hstep, List.length_set, getElem?_set_below c hi, rfl⟩
  · obtain ⟨-, hlen, -⟩ := (Memory.wf_iff s).mp hm
    have hstep := step_writeBbuf_inside he hh (BitVec.lt_def.mpr (hi.trans_le hlen))
    rw [putEntry_below hi] at hstep
    exact ⟨_, hstep, List.length_set, getElem?_set_below b hi, rfl⟩

end Sys2Proof.Machine
end

section
/-! SUPPORT. What a shared operation or a field or symbol did, read back from its result: each append that ends well, and each field
and symbol that took no fault (R53, R103 to R108, R162). -/

namespace Sys2Proof.Machine

variable {s t : State}

theorem appendBits_eq_ok {b : List Bool} (h : appendBits b s = .ok t) :
    s.bbuf.length + b.length ≤ s.cfg.bbufCap.toNat ∧ t = { s with bbuf := s.bbuf ++ b } := by
  by_cases hfit : s.bbuf.length + b.length ≤ s.cfg.bbufCap.toNat
  · rw [appendBits_fits hfit] at h
    cases h
    exact ⟨hfit, rfl⟩
  · rw [appendBits_full (Nat.not_le.mp hfit)] at h
    cases h

theorem appendRun_eq_ok {n : Nat} {v : Val} (h : appendRun n v s = .ok t) :
    (n = 0 ∨ s.vbuf.length + n ≤ s.cfg.vbufCap.toNat) ∧ t = { s with vbuf := s.vbuf ++ List.replicate n v } := by
  by_cases hfit : n = 0 ∨ s.vbuf.length + n ≤ s.cfg.vbufCap.toNat
  · rw [appendRun_fits hfit] at h
    cases h
    exact ⟨hfit, rfl⟩
  · rw [appendRun_full hfit] at h
    cases h

theorem needBits_eq_ok {n : Nat} {k : State → Except CodecFault State} (h : needBits n k s = .ok t) : k s = .ok t := by
  unfold needBits at h
  split at h
  · cases h
  · exact h

/-- Inside a command a stage that leaves the engine busy took no fault. -/
theorem settle_eq_next {c : Command} {r : Except CodecFault State} (h : settle c s r = .next t) (ht : t.engine ≠ .idle) :
    r = .ok t := by
  cases r with
  | ok u =>
    cases h
    rfl
  | error f =>
    cases h
    exact absurd (takeFault_engine c f s) ht

theorem atField_eq_next {k : Command → Position → Host.Outcome State Fault Refusal} (h : atField s k = .next t) :
    ∃ c p, s.engine = .fields c p ∧ k c p = .next t := by
  cases he : s.engine with
  | fields c p => exact ⟨c, p, rfl, (atField_fields he).symm.trans h⟩
  | idle => simp [atField, he] at h
  | symbols c => simp [atField, he] at h

theorem atSymbol_eq_next {k : Command → Host.Outcome State Fault Refusal} (h : atSymbol s k = .next t) :
    ∃ c, s.engine = .symbols c ∧ k c = .next t := by
  cases he : s.engine with
  | symbols c => exact ⟨c, rfl, (atSymbol_symbols he).symm.trans h⟩
  | idle => simp [atSymbol, he] at h
  | fields c p => simp [atSymbol, he] at h

/-! Fields. -/

/-- The meaning of a field: inside a scan, in a position that recognises it, its effect there. -/
theorem exec_eq_atField {i : Instr} (hi : isValueField i = true ∨ isCountField i = true) (s : State) :
    exec i s = atField s (fun c p =>
      if i.recognisedAt p = true then settle c s (runField c p i s) else .refused .outOfPosition) := by
  cases i
  case v8 v => rfl
  case v16 v => rfl
  case v16x v => simp only [Instr.recognisedAt, decide_eq_true_eq]; rfl
  case c8 n => simp only [Instr.recognisedAt, decide_eq_true_eq]; rfl
  case c16 n => simp only [Instr.recognisedAt, decide_eq_true_eq]; rfl
  all_goals simp [isValueField, isCountField] at hi

theorem exec_field_eq_next {i : Instr} (hi : isValueField i = true ∨ isCountField i = true) (h : exec i s = .next t)
    (ht : t.engine ≠ .idle) : ∃ c p, s.engine = .fields c p ∧ i.recognisedAt p = true ∧ runField c p i s = .ok t := by
  rw [exec_eq_atField hi] at h
  obtain ⟨c, p, he, h⟩ := atField_eq_next h
  split at h
  next hp => exact ⟨c, p, he, hp, settle_eq_next h ht⟩
  next => cases h

theorem runField_value_eq_ok {c : Command} {p : Position} {i : Instr} (hi : isValueField i = true)
    (hp : i.recognisedAt p = true) (h : runField c p i s = .ok t) : t = afterValue c p i s := by
  have hrun : valueField c p (BitVec.ofNat 32 i.width) (BitVec.ofNat 16 (fieldNumber i)) s = .ok t := by
    cases i
    case v8 v =>
      rw [fieldNumber, BitVec.ofNat_toNat]
      exact h
    case v16 v =>
      rw [fieldNumber, BitVec.ofNat_toNat]
      exact needBits_eq_ok h
    case v16x v =>
      obtain rfl : p = .V := of_decide_eq_true hp
      rw [fieldNumber, BitVec.ofNat_toNat]
      exact needBits_eq_ok h
    all_goals cases hi
  exact (appendRun_eq_ok hrun).2

theorem runField_count_eq_ok {c : Command} {p : Position} {i : Instr} (hi : isCountField i = true)
    (h : runField c p i s = .ok t) : t = afterCount c i s := by
  have hrun : countField c (BitVec.ofNat 32 i.width) (BitVec.ofNat 13 (fieldNumber i)) s = .ok t := by
    cases i
    case c8 n =>
      rw [fieldNumber, BitVec.ofNat_toNat]
      exact h
    case c16 n =>
      rw [fieldNumber, BitVec.ofNat_toNat, BitVec.setWidth_eq]
      exact needBits_eq_ok h
    all_goals cases hi
  cases hrun
  rfl

theorem exec_value_eq_next {i : Instr} (hi : isValueField i = true) (h : exec i s = .next t) (ht : t.engine ≠ .idle) :
    ∃ c p, s.engine = .fields c p ∧ t = afterValue c p i s := by
  obtain ⟨c, p, he, hp, hrun⟩ := exec_field_eq_next (.inl hi) h ht
  exact ⟨c, p, he, runField_value_eq_ok hi hp hrun⟩

theorem exec_count_eq_next {i : Instr} (hi : isCountField i = true) (h : exec i s = .next t) (ht : t.engine ≠ .idle) :
    ∃ c p, s.engine = .fields c p ∧ t = afterCount c i s := by
  obtain ⟨c, p, he, -, hrun⟩ := exec_field_eq_next (.inr hi) h ht
  exact ⟨c, p, he, runField_count_eq_ok hi hrun⟩

/-! Symbols. -/

theorem symbolField_fits {g : BitVec 6} (h : s.bbuf.length + 6 ≤ s.cfg.bbufCap.toNat) :
    symbolField g s = .ok (afterSymbol g s) :=
  appendBits_fits (s := { s with idx := s.idx + 1 }) (by rwa [length_bin])

theorem symbolField_full {g : BitVec 6} (h : s.cfg.bbufCap.toNat < s.bbuf.length + 6) :
    symbolField g s = .error .capacityExceeded :=
  appendBits_full (s := { s with idx := s.idx + 1 }) (by rwa [length_bin])

/-- The two symbol rows have one meaning (R162). -/
theorem exec_eq_atSymbol {i : Instr} {g : BitVec 6} (hi : i = .symLo g ∨ i = .symHi g) (s : State) :
    exec i s = atSymbol s (fun c => settle c s (symbolField g s)) := by
  obtain rfl | rfl := hi <;> rfl

theorem exec_symbol_eq_next {i : Instr} {g : BitVec 6} (hi : i = .symLo g ∨ i = .symHi g) (h : exec i s = .next t)
    (ht : t.engine ≠ .idle) : ∃ c, s.engine = .symbols c ∧ t = afterSymbol g s := by
  rw [exec_eq_atSymbol hi] at h
  obtain ⟨c, he, h⟩ := atSymbol_eq_next h
  exact ⟨c, he, (appendBits_eq_ok (settle_eq_next h ht)).2⟩

end Sys2Proof.Machine
end

section
/-! SUPPORT. The fields and the symbols as instructions of the memory: what they append, and that they write nothing else (R53). -/

namespace Sys2Proof.Machine

variable {s t : State}

/-- Settles O11: the room for six bits decides how the one meaning of both rows ends. -/
theorem symbolRowsExecuteInsideTheLoop : Obligations.SymbolRowsExecuteInsideTheLoop := by
  intro s c g he
  have hrow {i : Instr} (hi : i = .symLo g ∨ i = .symHi g) : exec i s = settle c s (symbolField g s) :=
    (exec_eq_atSymbol hi s).trans (atSymbol_symbols he)
  rw [hrow (.inl rfl), hrow (.inr rfl)]
  refine ⟨fun hfit => ?_, fun hfull => ?_⟩
  · rw [symbolField_fits hfit]
    exact ⟨rfl, rfl⟩
  · rw [symbolField_full hfull]
    exact ⟨rfl, rfl⟩

/-- Every buffer of `t` is that of `s` with entries appended. -/
structure Extends (s t : State) : Prop where
  ibuf : s.ibuf <+: t.ibuf
  bbuf : s.bbuf <+: t.bbuf
  vbuf : s.vbuf <+: t.vbuf
  obuf : s.obuf <+: t.obuf

theorem getElem?_of_isPrefix {α : Type} {l l' : List α} (h : l <+: l') {k : Nat} (hk : k < l.length) : l'[k]? = l[k]? := by
  obtain ⟨r, rfl⟩ := h
  exact List.getElem?_append_left hk

/-- An append leaves every entry below the old length as it reads. -/
theorem Extends.readBuf (h : Extends s t) (b : Buffer) (k : Nat) (hk : k < bufLength b s) : readBuf b k t = readBuf b k s := by
  cases b with
  | ibuf => exact congrArg (Option.map _) (getElem?_of_isPrefix h.ibuf hk)
  | bbuf => exact congrArg (Option.map _) (getElem?_of_isPrefix h.bbuf hk)
  | vbuf => exact congrArg (Option.map _) (getElem?_of_isPrefix h.vbuf hk)
  | obuf => exact congrArg (Option.map _) (getElem?_of_isPrefix h.obuf hk)

theorem extends_afterValue (c : Command) (p : Position) (i : Instr) (s : State) : Extends s (afterValue c p i s) :=
  ⟨List.prefix_rfl, List.prefix_rfl, List.prefix_append _ _, List.prefix_rfl⟩

theorem extends_afterCount (c : Command) (i : Instr) (s : State) : Extends s (afterCount c i s) :=
  ⟨List.prefix_rfl, List.prefix_rfl, List.prefix_rfl, List.prefix_rfl⟩

theorem extends_afterSymbol (g : BitVec 6) (s : State) : Extends s (afterSymbol g s) :=
  ⟨List.prefix_rfl, List.prefix_append _ _, List.prefix_rfl, List.prefix_rfl⟩

/-- Settles O13: a value field, a count field and a symbol each end in the one state of their inversion lemma, which extends the
buffers and differs from the state before in the named registers only. -/
theorem fieldsAndSymbolsOnlyAppend : Obligations.FieldsAndSymbolsOnlyAppend := by
  intro s t i hi h ht
  obtain hv | hc | ⟨g, hg⟩ := hi
  · obtain ⟨c, p, -, rfl⟩ := exec_value_eq_next hv h ht
    refine ⟨(extends_afterValue c p i s).readBuf, fun hn => ?_, fun _ => ⟨rfl, rfl⟩, ?_, by simp [afterValue]⟩
    · rw [hv] at hn
      cases hn
    · rintro ⟨g, rfl | rfl⟩ <;> cases hv
  · obtain ⟨c, p, -, rfl⟩ := exec_count_eq_next hc h ht
    refine ⟨(extends_afterCount c i s).readBuf, fun _ => ⟨rfl, rfl⟩, fun _ => ⟨rfl, rfl⟩, ?_, by simp [afterCount]⟩
    rintro ⟨g, rfl | rfl⟩ <;> cases hc
  · obtain ⟨c, -, rfl⟩ := exec_symbol_eq_next hg h ht
    refine ⟨(extends_afterSymbol g s).readBuf, fun _ => ⟨rfl, rfl⟩, fun hf => ?_, fun _ => ⟨rfl, rfl, rfl⟩,
      by simp [afterSymbol]⟩
    obtain rfl | rfl := hg <;> obtain hf | hf := hf <;> cases hf

end Sys2Proof.Machine
end

section
/-! SUPPORT. The decoder and the encoder undo each other (R70 to R78, R85 to R89): a field is read exactly where its bits are at
the front. -/

namespace Sys2Proof

/-! Commands. -/

/-- Only CMD[2:0] matters (R89). -/
theorem decodeCommand_of_mod {v : BitVec 32} {k : Nat} (h : v.toNat % 8 = k) :
    decodeCommand v = decodeCommand (BitVec.ofNat 32 k) := by
  have hlow : v.setWidth 3 = (BitVec.ofNat 32 k).setWidth 3 := by
    apply BitVec.eq_of_toNat_eq
    simp only [BitVec.toNat_setWidth, BitVec.toNat_ofNat]
    omega
  rw [decodeCommand, decodeCommand, hlow]

/-- Settles O5: the opcode's low three bits decide, and each of the eight numbers is its command's. -/
theorem commandOpcodesUseTheLowThreeBits : Obligations.CommandOpcodesUseTheLowThreeBits := fun _ =>
  ⟨decodeCommand_of_mod, decodeCommand_of_mod, decodeCommand_of_mod, decodeCommand_of_mod, decodeCommand_of_mod,
    decodeCommand_of_mod, decodeCommand_of_mod, decodeCommand_of_mod⟩

/-! Symbols. -/

theorem exists_symbolOf_eq {c : Symbol} (h : Machine.inAlphabet c) : ∃ g, symbolOf g = c := by
  obtain ⟨-, -, hg⟩ | ⟨hout, -⟩ := decodeSymbol_cases c
  · exact ⟨_, hg⟩
  · obtain ⟨hlo, hhi⟩ := h
    omega

theorem symbolOf_lt_64 (g : BitVec 6) : (symbolOf g).toNat < 64 ↔ g < 32#6 := by
  rw [toNat_symbolOf, BitVec.lt_def, BitVec.toNat_ofNat]
  omega

/-- Settles O3: a symbol of the alphabet is that of its group, whose first bit tells the row. -/
theorem symbolDecodesExactlyInsideTheAlphabet : Obligations.SymbolDecodesExactlyInsideTheAlphabet := by
  refine fun c => ⟨fun h => ?_, fun h => ?_⟩
  · obtain ⟨g, rfl⟩ := exists_symbolOf_eq h
    rw [decodeSymbol_symbolOf, symbolOf_lt_64]
    by_cases hg : g < 32#6
    · rw [if_pos hg]
      exact ⟨_, rfl, decide_eq_true hg, rfl, iff_of_true hg ⟨g, rfl⟩⟩
    · rw [if_neg hg]
      exact ⟨_, rfl, decide_eq_true (BitVec.not_lt.mp hg), rfl, iff_of_false hg nofun⟩
  · obtain ⟨hlo, hhi, -⟩ | ⟨-, hillegal⟩ := decodeSymbol_cases c
    · exact absurd ⟨hlo, hhi⟩ h
    · exact hillegal

/-! A payload and its field determine each other (R78). -/

theorem bin_memRead {n : Nat} {b : List Bool} (h : n ≤ b.length) : bin (memRead b 0 n) = b.take n := by
  have hfront := bin_ofNat_num (b.take n)
  rw [List.length_take_of_le h] at hfront
  exact hfront

theorem bitsV8_payloadV8 {x : BitVec 8} (h : x.toNat < 128) : bitsV8 (payloadV8 x) = bin x := by
  refine congrArg bin (BitVec.eq_of_toNat_eq ?_)
  simp only [payloadV8, BitVec.toNat_setWidth]
  omega

/-- Of a number with the bits of a mask set, XOR with the mask keeps the low bits alone, and XOR with it again gives the number
back. -/
theorem setWidth_setWidth_xor {n k m : Nat} {x mask : BitVec n} (hm : mask.toNat = 2 ^ k * m) (hlo : mask.toNat ≤ x.toNat)
    (hhi : x.toNat < mask.toNat + 2 ^ k) : ((x ^^^ mask).setWidth k).setWidth n ^^^ mask = x := by
  have hlow : (x ^^^ mask).toNat < 2 ^ k := by
    obtain ⟨a, ha⟩ := Nat.exists_eq_add_of_le hlo
    have hak : a < 2 ^ k := by omega
    rw [BitVec.toNat_xor, ha, hm, ← xor_mask_eq_add hak, Nat.xor_assoc, Nat.xor_self, Nat.xor_zero]
    exact hak
  have hback : ((x ^^^ mask).setWidth k).setWidth n = x ^^^ mask := by
    apply BitVec.eq_of_toNat_eq
    rw [BitVec.toNat_setWidth, BitVec.toNat_setWidth, Nat.mod_eq_of_lt hlow, Nat.mod_eq_of_lt (x ^^^ mask).isLt]
  rw [hback, BitVec.xor_assoc, BitVec.xor_self, BitVec.xor_zero]

theorem payloadV16_setWidth_xor {x : BitVec 16} (h : 0x8000 ≤ x.toNat) : (payloadV16 x).setWidth 16 ^^^ maskV16 = x :=
  setWidth_setWidth_xor (k := 15) (m := 1) rfl h x.isLt

theorem payloadC8_setWidth_xor {x : BitVec 8} (h : 0xC0 ≤ x.toNat) : (payloadC8 x).setWidth 8 ^^^ maskC8 = x :=
  setWidth_setWidth_xor (k := 6) (m := 3) rfl h x.isLt

theorem payloadC16_setWidth_xor {x : BitVec 16} (h : 0xE000 ≤ x.toNat) : (payloadC16 x).setWidth 16 ^^^ maskC16 = x :=
  setWidth_setWidth_xor (k := 13) (m := 7) rfl h x.isLt

/-! What the decoder reads, the encoder writes. -/

/-- A 16-bit number with its leading bit set is a value field, V16 or V16X by its second bit (R72, R73). -/
theorem value16_encodes {x : BitVec 16} (h : 0x8000 ≤ x.toNat) :
    (value16 x).wellFormed = true ∧ Machine.fieldBits (value16 x) = bin x := by
  have hx := payloadV16_setWidth_xor h
  have hnum := toNat_xor_maskV16 (payloadV16 x)
  rw [hx] at hnum
  rw [value16, BitVec.getLsbD, Nat.testBit_eq_decide_div_mod_eq]
  split
  next hbit =>
    refine ⟨decide_eq_true ?_, congrArg bin hx⟩
    rw [decide_eq_true_eq] at hbit
    rw [BitVec.le_def, BitVec.toNat_ofNat]
    omega
  next hbit =>
    refine ⟨decide_eq_true ?_, congrArg bin hx⟩
    rw [decide_eq_true_eq] at hbit
    rw [BitVec.lt_def, BitVec.toNat_ofNat]
    omega

theorem decodeValue_encodes {b : List Bool} {i : Instr} (h : decodeValue b = .ok i) :
    i.wellFormed = true ∧ Machine.fieldBits i = b.take i.width := by
  obtain ⟨h0, hl, rfl⟩ | ⟨h1, hl, rfl⟩ := decodeValue_eq_ok h
  · rw [peek1_of_byte hl] at h0
    exact ⟨rfl, (bitsV8_payloadV8 h0).trans (bin_memRead hl)⟩
  · have hbyte := byte_of_field16 hl
    rw [Ne, peek1_of_byte (by omega)] at h1
    obtain ⟨hwf, hbits⟩ := value16_encodes (x := memRead b 0 16) (by omega)
    have hw : (value16 (memRead b 0 16)).width = 16 := by
      unfold value16
      split <;> rfl
    rw [hw]
    exact ⟨hwf, hbits.trans (bin_memRead hl)⟩

theorem decodeCount_encodes {b : List Bool} {i : Instr} (h3 : memRead b 0 2 = 3#2) (h : decodeCount b = .ok i) :
    i.wellFormed = true ∧ Machine.fieldBits i = b.take i.width := by
  obtain ⟨h0, hl, rfl⟩ | ⟨h1, hl, rfl⟩ := decodeCount_eq_ok h
  · rw [peek2_of_byte hl] at h3
    rw [peek3_of_byte hl] at h0
    have hx := payloadC8_setWidth_xor h3
    have hnum := toNat_xor_maskC8 (payloadC8 (memRead b 0 8))
    rw [hx] at hnum
    refine ⟨decide_eq_true ?_, (congrArg bin hx).trans (bin_memRead hl)⟩
    rw [BitVec.lt_def, BitVec.toNat_ofNat]
    omega
  · have hbyte := byte_of_field16 hl
    rw [peek2_of_byte (by omega)] at h3
    rw [Ne, peek3_of_byte (by omega)] at h1
    have hlt := (memRead b 0 16).isLt
    exact ⟨rfl, (congrArg bin (payloadC16_setWidth_xor (by omega))).trans (bin_memRead hl)⟩

theorem decodeField_encodes {p : Position} {b : List Bool} {i : Instr} (h : decodeField p b = .ok i) :
    i.wellFormed = true ∧ Machine.fieldBits i = b.take i.width := by
  cases p with
  | V => exact decodeValue_encodes h
  | S =>
    rw [decodeField_S] at h
    split at h
    next h3 => exact decodeCount_encodes h3 h
    next => exact decodeValue_encodes h

/-- A count field is recognised at a run start only (R76). -/
theorem recognisedAt_count_iff {p : Position} {i : Instr} (hi : Machine.isCountField i = true) :
    i.recognisedAt p = true ↔ p = .S := by
  cases i
  case c8 n => exact decide_eq_true_iff
  case c16 n => exact decide_eq_true_iff
  all_goals cases hi

/-- A well-formed field is read from its own bits, in every position that recognises it. -/
theorem decodeField_fieldBits {p : Position} {i : Instr} (rest : List Bool)
    (hi : Machine.isValueField i = true ∨ Machine.isCountField i = true) (hw : i.wellFormed = true)
    (hp : i.recognisedAt p = true) : decodeField p (Machine.fieldBits i ++ rest) = .ok i := by
  obtain hv | hc := hi
  · exact decodeField_valueBits rest hv hw hp
  · obtain rfl := (recognisedAt_count_iff hc).mp hp
    exact decodeField_countBits rest hc hw

/-- No bit of a field has a second reading: the decoder reads a field exactly where its bits are at the front. -/
theorem decodeField_eq_ok_iff {p : Position} {b : List Bool} {i : Instr} :
    decodeField p b = .ok i ↔
      (Machine.isValueField i = true ∨ Machine.isCountField i = true) ∧ i.wellFormed = true ∧ i.recognisedAt p = true ∧
        Machine.fieldBits i <+: b := by
  constructor
  · intro h
    obtain ⟨hwf, hbits⟩ := decodeField_encodes h
    exact ⟨(field_of_decodeField h).1, hwf, recognisedAt_of_decodeField h, hbits ▸ List.take_prefix _ _⟩
  · rintro ⟨hi, hwf, hp, rest, rfl⟩
    exact decodeField_fieldBits rest hi hwf hp

theorem encode_eq_field {i : Instr} (hi : Machine.isValueField i = true ∨ Machine.isCountField i = true) :
    encode i = .field (Machine.fieldBits i) := by
  cases i
  case v8 v => rfl
  case v16 v => rfl
  case v16x v => rfl
  case c8 n => rfl
  case c16 n => rfl
  all_goals simp [Machine.isValueField, Machine.isCountField] at hi

/-- Settles O2, by the decoder's reading and the width of what it reads. -/
theorem decodedFieldEncodesToTheBitsRead : Obligations.DecodedFieldEncodesToTheBitsRead := by
  intro p b i h
  obtain ⟨hi, hwidth⟩ := field_of_decodeField h
  obtain ⟨hwf, hbits⟩ := decodeField_encodes h
  exact ⟨hwf, recognisedAt_of_decodeField h, hwidth, (encode_eq_field hi).trans (congrArg Code.field hbits)⟩

theorem decode_encode_field {p : Position} {i : Instr}
    (hi : Machine.isValueField i = true ∨ Machine.isCountField i = true) (hw : i.wellFormed = true)
    (hp : i.recognisedAt p = true) : decode p (encode i) = .ok i := by
  have h := decodeField_fieldBits [] hi hw hp
  rw [List.append_nil] at h
  rw [encode_eq_field hi]
  exact h

/-- Settles O1: a field from its bits, a symbol from its group, a command from its opcode. -/
theorem decodeOfEncodeIsTheInstruction : Obligations.DecodeOfEncodeIsTheInstruction := by
  intro i p hw hp
  cases i
  case v8 v => exact decode_encode_field (.inl rfl) hw hp
  case v16 v => exact decode_encode_field (.inl rfl) hw hp
  case v16x v => exact decode_encode_field (.inl rfl) hw hp
  case c8 n => exact decode_encode_field (.inr rfl) hw hp
  case c16 n => exact decode_encode_field (.inr rfl) hw hp
  case symLo g => exact (decodeSymbol_symbolOf g).trans (by rw [if_pos (of_decide_eq_true hw)])
  case symHi g => exact (decodeSymbol_symbolOf g).trans (by rw [if_neg (BitVec.not_lt.mpr (of_decide_eq_true hw))])
  all_goals rfl

end Sys2Proof
end

section
/-! SUPPORT. Where a field does not fit in the bits that remain (R84). -/

namespace Sys2Proof

theorem wholeField_map_eq_error_iff {n : Nat} {b : List Bool} {f : BitVec n → Instr} :
    (wholeField n b).map f = .error .endOfInput ↔ b.length < n := by
  by_cases hl : b.length < n
  · rw [wholeField_short hl]
    exact iff_of_true rfl hl
  · rw [wholeField_long (Nat.not_lt.mp hl)]
    exact iff_of_false nofun hl

/-- A field of 8 bits or, where the selecting bit says so, of 16. -/
theorem selectField_eq_error_iff {sel : Prop} [Decidable sel] {b : List Bool} {f : BitVec 8 → Instr} {g : BitVec 16 → Instr} :
    (if sel then (wholeField 8 b).map f else (wholeField 16 b).map g) = .error .endOfInput ↔
      b.length < 8 ∨ (¬ sel ∧ b.length < 16) := by
  split
  next hsel =>
    rw [wholeField_map_eq_error_iff]
    exact ⟨.inl, fun h => h.resolve_right fun hlong => hlong.1 hsel⟩
  next hsel =>
    rw [wholeField_map_eq_error_iff]
    exact ⟨fun h => .inr ⟨hsel, h⟩, by omega⟩

theorem decodeValue_eq_error_iff {b : List Bool} :
    decodeValue b = .error .endOfInput ↔ b.length < 8 ∨ (¬ memRead b 0 1 = 0#1 ∧ b.length < 16) :=
  selectField_eq_error_iff

theorem decodeCount_eq_error_iff {b : List Bool} :
    decodeCount b = .error .endOfInput ↔ b.length < 8 ∨ (¬ memRead b 2 1 = 0#1 ∧ b.length < 16) :=
  selectField_eq_error_iff

/-- Sixteen bits are enough for every field (R84). -/
theorem exists_decodeField_eq_ok (p : Position) {b : List Bool} (h : 16 ≤ b.length) : ∃ i, decodeField p b = .ok i := by
  cases hd : decodeField p b with
  | ok i => exact ⟨i, rfl⟩
  | error e =>
    obtain rfl := endOfInput_of_decodeField hd
    obtain hp | hp := decodeField_cases p b <;> rw [hp] at hd
    · rw [decodeValue_eq_error_iff] at hd
      omega
    · rw [decodeCount_eq_error_iff] at hd
      omega

/-! The rows of R84's table peek at one, two or three bits; each peek in terms of the leading byte (R59). -/

theorem peek1_one_of_byte {b : List Bool} (h : 8 ≤ b.length) : memRead b 0 1 = 1#1 ↔ 128 ≤ (memRead b 0 8).toNat := by
  have hp := memRead_peek b 1 8 (by decide) h
  have hb := (memRead b 0 8).isLt
  rw [← BitVec.toNat_inj, hp, BitVec.toNat_ofNat]
  omega

theorem peek2_two_of_byte {b : List Bool} (h : 8 ≤ b.length) :
    memRead b 0 2 = 2#2 ↔ 128 ≤ (memRead b 0 8).toNat ∧ (memRead b 0 8).toNat < 192 := by
  have hp := memRead_peek b 2 8 (by decide) h
  rw [← BitVec.toNat_inj, hp, BitVec.toNat_ofNat]
  omega

theorem peek3_seven_of_byte {b : List Bool} (h : 8 ≤ b.length) : memRead b 0 3 = 7#3 ↔ 224 ≤ (memRead b 0 8).toNat := by
  have hp := memRead_peek b 3 8 (by decide) h
  have hb := (memRead b 0 8).isLt
  rw [← BitVec.toNat_inj, hp, BitVec.toNat_ofNat]
  omega

/-- After a count field: no bit left, or a 16-bit value with one byte left. -/
theorem decodeField_V_eq_error_iff {b : List Bool} (h8 : b.length % 8 = 0) :
    decodeField .V b = .error .endOfInput ↔ b = [] ∨ (memRead b 0 1 = 1#1 ∧ b.length = 8) := by
  rw [decodeField_V, decodeValue_eq_error_iff, ← List.length_eq_zero_iff]
  by_cases hl : 8 ≤ b.length
  · rw [peek1_of_byte hl, peek1_one_of_byte hl]
    omega
  · exact iff_of_true (by omega) (by omega)

/-- At a run start: a 16-bit count or a 16-bit value with one byte left. -/
theorem decodeField_S_eq_error_iff {b : List Bool} (h8 : b.length % 8 = 0) (hl : 8 ≤ b.length) :
    decodeField .S b = .error .endOfInput ↔
      (memRead b 0 3 = 7#3 ∧ b.length = 8) ∨ (memRead b 0 1 = 1#1 ∧ memRead b 0 2 = 2#2 ∧ b.length = 8) := by
  have hb := (memRead b 0 8).isLt
  rw [decodeField_S, peek3_seven_of_byte hl, peek1_one_of_byte hl, peek2_two_of_byte hl]
  split
  next h3 =>
    rw [peek2_of_byte hl] at h3
    rw [decodeCount_eq_error_iff, peek3_of_byte hl]
    omega
  next h3 =>
    rw [peek2_of_byte hl] at h3
    rw [decodeValue_eq_error_iff, peek1_of_byte hl]
    omega

/-- Settles O4: the table by the two positions, and in a scan the fault of the field at POS. -/
theorem fieldFailsExactlyAtTheEndOfInput : Obligations.FieldFailsExactlyAtTheEndOfInput := by
  refine ⟨fun p b h8 hS => ⟨?_, fun _ => endOfInput_of_decodeField, exists_decodeField_eq_ok p⟩,
    fun s c p he hp hd => Machine.step_other (Machine.fetch_field_error he hp hd)⟩
  cases p with
  | V =>
    rw [decodeField_V_eq_error_iff h8]
    simp
  | S =>
    rw [decodeField_S_eq_error_iff h8 (hS rfl)]
    simp

end Sys2Proof
end

section
/-! SUPPORT. The runs of a stream: every bit string is a stream of runs and then, possibly, a part of one more (R77, R147). -/

namespace Sys2Proof.Machine

/-! A part of a field is not a field. -/

/-- The end of the input inside a field is seen in every position that recognises the field. -/
theorem decodeField_of_cut {p : Position} {i : Instr} {cut : List Bool}
    (hi : isValueField i = true ∨ isCountField i = true) (hw : i.wellFormed = true) (hp : i.recognisedAt p = true)
    (hcut : cut <+: fieldBits i) (hne : cut ≠ fieldBits i) : decodeField p cut = .error .endOfInput := by
  cases hd : decodeField p cut with
  | error e => rw [endOfInput_of_decodeField hd]
  | ok j =>
    obtain ⟨hj, hjw, hjp, hpre⟩ := decodeField_eq_ok_iff.mp hd
    have hwhole : decodeField p (fieldBits i) = .ok i := decodeField_eq_ok_iff.mpr ⟨hi, hw, hp, List.prefix_rfl⟩
    have hfront : decodeField p (fieldBits i) = .ok j := decodeField_eq_ok_iff.mpr ⟨hj, hjw, hjp, hpre.trans hcut⟩
    rw [hwhole] at hfront
    cases hfront
    exact absurd (hcut.eq_of_length_le hpre.length_le) hne

/-- Where the decoder finds the end of the input, zeros after it would have made a field. -/
theorem exists_cut_field {p : Position} {cut : List Bool} {e : DecodeError} (h : decodeField p cut = .error e) :
    ∃ i, (isValueField i = true ∨ isCountField i = true) ∧ i.wellFormed = true ∧ i.recognisedAt p = true ∧
      cut <+: fieldBits i ∧ cut ≠ fieldBits i := by
  obtain ⟨i, hd⟩ := exists_decodeField_eq_ok p (b := cut ++ List.replicate 16 false) (by simp)
  obtain ⟨hi, hw, hp, hpre⟩ := decodeField_eq_ok_iff.mp hd
  have hno : ¬ fieldBits i <+: cut := fun hfront => by
    rw [decodeField_eq_ok_iff.mpr ⟨hi, hw, hp, hfront⟩] at h
    cases h
  refine ⟨i, hi, hw, hp, ?_, fun heq => hno (heq ▸ List.prefix_rfl)⟩
  exact (List.prefix_or_prefix_of_prefix (List.prefix_append _ _) hpre).resolve_right hno

/-! Runs. -/

theorem legal_single_iff (v : Instr) : (Run.mk none v).legal = true ↔
    isValueField v = true ∧ v.wellFormed = true ∧ v.recognisedAt .S = true := by
  simp [Run.legal, and_assoc]

theorem legal_counted_iff (i v : Instr) : (Run.mk (some i) v).legal = true ↔
    (isCountField i = true ∧ i.wellFormed = true) ∧ isValueField v = true ∧ v.wellFormed = true := by
  simp [Run.legal, and_comm]

theorem bits_counted (i v : Instr) : (Run.mk (some i) v).bits = fieldBits i ++ fieldBits v := rfl

/-- A field has whole bytes, at least one (R70). -/
theorem length_fieldBits_bytes {i : Instr} (hi : isValueField i = true ∨ isCountField i = true) :
    8 ≤ (fieldBits i).length ∧ (fieldBits i).length % 8 = 0 := by
  rw [length_fieldBits hi]
  have := field_width hi
  omega

theorem length_bits_bytes {r : Run} (hr : r.legal = true) : 8 ≤ r.bits.length ∧ r.bits.length % 8 = 0 := by
  obtain ⟨_ | i, v⟩ := r
  · exact length_fieldBits_bytes (.inl ((legal_single_iff v).mp hr).1)
  · obtain ⟨⟨hi, -⟩, hv, -⟩ := (legal_counted_iff i v).mp hr
    have := length_fieldBits_bytes (.inr hi)
    have := length_fieldBits_bytes (.inl hv)
    rw [bits_counted, List.length_append]
    omega

/-- A part of a run's first field is a part of the run. -/
theorem endsInsideARun_of_cut_field {i : Instr} {cut : List Bool} (hne : cut ≠ [])
    (hi : isValueField i = true ∨ isCountField i = true) (hw : i.wellFormed = true) (hp : i.recognisedAt .S = true)
    (hcut : cut <+: fieldBits i) (hcut' : cut ≠ fieldBits i) : endsInsideARun cut := by
  obtain hv | hc := hi
  · exact ⟨hne, ⟨none, i⟩, (legal_single_iff i).mpr ⟨hv, hw, hp⟩, hcut, hcut'⟩
  · refine ⟨hne, ⟨some i, .v8 0⟩, (legal_counted_iff i _).mpr ⟨⟨hc, hw⟩, rfl, rfl⟩, hcut.trans (List.prefix_append _ _), ?_⟩
    intro heq
    rw [heq, bits_counted] at hcut
    simpa [fieldBits, encode, bitsV8] using hcut.length_le

/-- A bit string begins with a run, or it ends inside its first one: a value, a count and a value, or no whole field. -/
theorem run_at_front_or_cut {b : List Bool} (hb : b ≠ []) :
    (∃ r : Run, r.legal = true ∧ r.bits <+: b) ∨ endsInsideARun b := by
  cases hfirst : decodeField .S b with
  | error e =>
    obtain ⟨i, hi, hw, hp, hcut, hne⟩ := exists_cut_field hfirst
    exact .inr (endsInsideARun_of_cut_field hb hi hw hp hcut hne)
  | ok i =>
    obtain ⟨hv | hc, hw, hp, hpre⟩ := decodeField_eq_ok_iff.mp hfirst
    · exact .inl ⟨⟨none, i⟩, (legal_single_iff i).mpr ⟨hv, hw, hp⟩, hpre⟩
    · obtain ⟨b', rfl⟩ := hpre
      have hlegal {v : Instr} (hv : isValueField v = true ∨ isCountField v = true) (hvw : v.wellFormed = true)
          (hvp : v.recognisedAt .V = true) : (Run.mk (some i) v).legal = true := by
        refine (legal_counted_iff i v).mpr ⟨⟨hc, hw⟩, hv.resolve_right fun hvc => ?_, hvw⟩
        cases (recognisedAt_count_iff hvc).mp hvp
      cases hsecond : decodeField .V b' with
      | ok v =>
        obtain ⟨hv, hvw, hvp, hvpre⟩ := decodeField_eq_ok_iff.mp hsecond
        exact .inl ⟨⟨some i, v⟩, hlegal hv hvw hvp, (List.prefix_append_right_inj _).mpr hvpre⟩
      | error e =>
        obtain ⟨v, hv, hvw, hvp, hcut, hne⟩ := exists_cut_field hsecond
        refine .inr ⟨hb, ⟨some i, v⟩, hlegal hv hvw hvp, (List.prefix_append_right_inj _).mpr hcut, fun heq => hne ?_⟩
        exact List.append_cancel_left heq

/-! Streams. -/

@[simp] theorem streamBits_cons (r : Run) (rs : List Run) : streamBits (r :: rs) = r.bits ++ streamBits rs := rfl

@[simp] theorem streamValues_cons (r : Run) (rs : List Run) : streamValues (r :: rs) = r.values ++ streamValues rs := rfl

theorem length_streamBits {rs : List Run} (hrs : ∀ r ∈ rs, r.legal = true) :
    rs.length ≤ (streamBits rs).length ∧ (streamBits rs).length % 8 = 0 := by
  induction rs with
  | nil => exact ⟨Nat.le_refl _, rfl⟩
  | cons r rs ih =>
    obtain ⟨hr, hrest⟩ := List.forall_mem_cons.mp hrs
    have := length_bits_bytes hr
    have := ih hrest
    rw [streamBits_cons, List.length_cons, List.length_append]
    omega

/-- Taking runs off the front ends at the end of the string or inside a run. -/
theorem exists_stream (b : List Bool) :
    ∃ (rs : List Run) (cut : List Bool), (∀ r ∈ rs, r.legal = true) ∧ (cut = [] ∨ endsInsideARun cut) ∧
      b = streamBits rs ++ cut := by
  by_cases hb : b = []
  · exact ⟨[], [], nofun, .inl rfl, hb⟩
  · obtain ⟨r, hr, rest, hrest⟩ | hcut := run_at_front_or_cut hb
    · have hlt : rest.length < b.length := by
        have := length_bits_bytes hr
        rw [← hrest, List.length_append]
        omega
      obtain ⟨rs, cut, hrs, hcut, hstream⟩ := exists_stream rest
      refine ⟨r :: rs, cut, List.forall_mem_cons.mpr ⟨hr, hrs⟩, hcut, ?_⟩
      rw [streamBits_cons, List.append_assoc, ← hstream, hrest]
    · exact ⟨[], b, nofun, .inr hcut, rfl⟩
termination_by b.length

end Sys2Proof.Machine
end

section
/-! SUPPORT. The scan over a stream: what a run leaves, and how a scan ends (R103, R143 to R149). -/

namespace Sys2Proof.Machine

variable {s : State} {c : Command} {p : Position} {i : Instr} {b rest : List Bool}

/-- The engine scans fields for command `c`, in position `p`, with the bits `b` still to be read. -/
structure ScanAt (c : Command) (p : Position) (b : List Bool) (s : State) : Prop where
  engine : s.engine = .fields c p
  trunc : s.ltrunc.toNat ≤ s.bbuf.length
  visible : visibleBits s = b
  room : s.vbuf.length ≤ s.cfg.vbufCap.toNat

/-! One field. -/

/-- The bits to be read end at LTRUNC. -/
theorem ScanAt.remaining_eq (h : ScanAt c p b s) : remaining s = b.length := by
  rw [← length_visibleBits h.trunc, h.visible]

theorem ScanAt.pos_lt_iff (h : ScanAt c p b s) : s.pos < s.ltrunc ↔ b ≠ [] := by
  have hrem := h.remaining_eq
  rw [remaining] at hrem
  rw [BitVec.lt_def, Ne, ← List.length_eq_zero_iff]
  omega

/-- A field at the front lies below LTRUNC. -/
theorem ScanAt.field_fits (h : ScanAt c p (fieldBits i ++ rest) s) (hi : isValueField i = true ∨ isCountField i = true) :
    s.pos.toNat + i.width ≤ s.ltrunc.toNat := by
  have hrem := h.remaining_eq
  have hw := field_width hi
  rw [remaining, List.length_append, length_fieldBits hi] at hrem
  omega

theorem ScanAt.nextField_eq (h : ScanAt c p (fieldBits i ++ rest) s) (hi : isValueField i = true ∨ isCountField i = true)
    (hw : i.wellFormed = true) (hp : i.recognisedAt p = true) : nextField s = runField c p i s := by
  refine nextField_ok h.engine ?_
  rw [fetchField, h.visible]
  exact decodeField_fieldBits rest hi hw hp

/-- Past a field the bits after it are still to be read. -/
theorem ScanAt.visibleBits_next {t : State} (h : ScanAt c p (fieldBits i ++ rest) s)
    (hi : isValueField i = true ∨ isCountField i = true) (hb : t.bbuf = s.bbuf) (hl : t.ltrunc = s.ltrunc)
    (hpos : t.pos = s.pos + BitVec.ofNat 32 i.width) : visibleBits t = rest := by
  refine visibleBits_advance hb hl ?_ h.visible
  rw [hpos, toNat_pos_add (h.field_fits hi), length_fieldBits hi]

theorem ScanAt.afterCount (h : ScanAt c p (fieldBits i ++ rest) s) (hi : isCountField i = true) :
    ScanAt c .V rest (afterCount c i s) :=
  ⟨rfl, h.trunc, h.visibleBits_next (.inr hi) rfl rfl rfl, h.room⟩

theorem ScanAt.afterValue (h : ScanAt c p (fieldBits i ++ rest) s) (hi : isValueField i = true)
    (hfit : s.vbuf.length + (runCount p s).toNat ≤ s.cfg.vbufCap.toNat) : ScanAt c .S rest (afterValue c p i s) :=
  ⟨rfl, h.trunc, h.visibleBits_next (.inl hi) rfl rfl rfl,
    by rwa [Machine.afterValue, List.length_append, List.length_replicate]⟩

theorem ScanAt.nextField_count (h : ScanAt c .S (fieldBits i ++ rest) s) (hi : isCountField i = true)
    (hw : i.wellFormed = true) (hp : i.recognisedAt .S = true) : nextField s = .ok (Machine.afterCount c i s) := by
  rw [h.nextField_eq (.inr hi) hw hp, runField_count hi (h.field_fits (.inr hi))]

theorem ScanAt.nextField_value (h : ScanAt c p (fieldBits i ++ rest) s) (hi : isValueField i = true)
    (hw : i.wellFormed = true) (hp : i.recognisedAt p = true) :
    nextField s = if s.vbuf.length + (runCount p s).toNat ≤ s.cfg.vbufCap.toNat then .ok (Machine.afterValue c p i s)
      else .error .capacityExceeded := by
  have hroom := h.room
  have hfit : ((runCount p s).toNat = 0 ∨ s.vbuf.length + (runCount p s).toNat ≤ s.cfg.vbufCap.toNat) ↔
      s.vbuf.length + (runCount p s).toNat ≤ s.cfg.vbufCap.toNat := by omega
  rw [h.nextField_eq (.inl hi) hw hp, runField_value hi hp (h.field_fits (.inl hi))]
  simp only [hfit]

/-- A part of a field is the end of the input (R84, R147). -/
theorem ScanAt.nextField_cut (h : ScanAt c p b s) (hi : isValueField i = true ∨ isCountField i = true)
    (hw : i.wellFormed = true) (hp : i.recognisedAt p = true) (hcut : b <+: fieldBits i) (hne : b ≠ fieldBits i) :
    nextField s = .error .unexpectedEndOfInput := by
  refine nextField_error (e := .endOfInput) h.engine ?_
  rw [fetchField, h.visible]
  exact decodeField_of_cut hi hw hp hcut hne

/-! One run. -/

/-- The state after a run whose appends fit. -/
def afterRun (c : Command) (r : Run) (s : State) : State :=
  match r.count with
  | none => afterValue c .S r.value s
  | some i => afterValue c .V r.value (afterCount c i s)

theorem decRun_of_value {t : State} (h : nextField s = .ok t) (ht : t.engine = .fields c .S) : decRun s = .ok t := by
  simp [decRun, h, expectsValue, ht]

theorem decRun_of_count {t : State} (h : nextField s = .ok t) (ht : t.engine = .fields c .V) : decRun s = nextField t := by
  simp [decRun, h, expectsValue, ht]

theorem decRun_of_error {f : CodecFault} (h : nextField s = .error f) : decRun s = .error f := by
  rw [decRun, h, andThen_error]

/-- A count field's number is what RCNT holds after it (R23). -/
theorem toNat_ofNat_fieldNumber (hi : isCountField i = true) : (BitVec.ofNat 13 (fieldNumber i)).toNat = fieldNumber i := by
  rw [BitVec.toNat_ofNat]
  refine Nat.mod_eq_of_lt ?_
  cases i
  case c8 n => exact n.isLt.trans (by decide)
  case c16 n => exact n.isLt
  all_goals cases hi

theorem length_values_single (v : Instr) : (Run.mk none v).values.length = 1 := rfl

theorem length_values_counted (i v : Instr) : (Run.mk (some i) v).values.length = fieldNumber i := List.length_replicate

theorem afterRun_vbuf {r : Run} (hr : r.legal = true) (c : Command) (s : State) :
    (afterRun c r s).vbuf = s.vbuf ++ r.values := by
  obtain ⟨_ | i, v⟩ := r
  · rfl
  · obtain ⟨⟨hi, -⟩, -⟩ := (legal_counted_iff i v).mp hr
    exact congrArg (fun n => s.vbuf ++ List.replicate n (BitVec.ofNat 16 (fieldNumber v))) (toNat_ofNat_fieldNumber hi)

@[simp] theorem afterRun_cfg (c : Command) (r : Run) (s : State) : (afterRun c r s).cfg = s.cfg := by
  unfold afterRun
  split <;> rfl

/-- Of what a run writes only VBUF outlives the command (R20). -/
theorem park_afterRun (c : Command) (r : Run) (s : State) (vs : List Val) :
    park { afterRun c r s with vbuf := vs } = park { s with vbuf := vs } := by
  obtain ⟨_ | i, v⟩ := r <;> rfl

/-- DEC_RUN of a legal run: its values are appended, or they do not fit (R103). -/
theorem ScanAt.decRun_eq {r : Run} (h : ScanAt c .S (r.bits ++ rest) s) (hr : r.legal = true) :
    decRun s = if s.vbuf.length + r.values.length ≤ s.cfg.vbufCap.toNat then .ok (afterRun c r s)
      else .error .capacityExceeded := by
  obtain ⟨_ | i, v⟩ := r
  · obtain ⟨hv, hvw, hvp⟩ := (legal_single_iff v).mp hr
    have hnext := h.nextField_value hv hvw hvp
    rw [length_values_single]
    split
    next hfit => exact decRun_of_value (hnext.trans (if_pos hfit)) rfl
    next hfull => exact decRun_of_error (hnext.trans (if_neg hfull))
  · obtain ⟨⟨hi, hiw⟩, hv, hvw⟩ := (legal_counted_iff i v).mp hr
    rw [bits_counted, List.append_assoc] at h
    rw [decRun_of_count (h.nextField_count hi hiw ((recognisedAt_count_iff hi).mpr rfl)) rfl,
      (h.afterCount hi).nextField_value hv hvw (recognisedAt_V hv), length_values_counted, ← toNat_ofNat_fieldNumber hi]
    rfl

theorem ScanAt.afterRun {r : Run} (h : ScanAt c .S (r.bits ++ rest) s) (hr : r.legal = true)
    (hfit : s.vbuf.length + r.values.length ≤ s.cfg.vbufCap.toNat) : ScanAt c .S rest (afterRun c r s) := by
  obtain ⟨_ | i, v⟩ := r
  · exact h.afterValue ((legal_single_iff v).mp hr).1 hfit
  · obtain ⟨⟨hi, -⟩, hv, -⟩ := (legal_counted_iff i v).mp hr
    rw [bits_counted, List.append_assoc] at h
    refine (h.afterCount hi).afterValue hv ?_
    rw [length_values_counted, ← toNat_ofNat_fieldNumber hi] at hfit
    exact hfit

/-- A run cut short: in its first field, or in the value field after a whole count (R84). -/
theorem ScanAt.decRun_cut (h : ScanAt c .S b s) (hb : endsInsideARun b) : decRun s = .error .unexpectedEndOfInput := by
  obtain ⟨-, ⟨_ | i, v⟩, hr, hcut, hne⟩ := hb
  · obtain ⟨hv, hvw, hvp⟩ := (legal_single_iff v).mp hr
    exact decRun_of_error (h.nextField_cut (.inl hv) hvw hvp hcut hne)
  · obtain ⟨⟨hi, hiw⟩, hv, hvw⟩ := (legal_counted_iff i v).mp hr
    have hip := (recognisedAt_count_iff hi).mpr rfl
    by_cases hfirst : fieldBits i <+: b
    · obtain ⟨b', rfl⟩ := hfirst
      rw [decRun_of_count (h.nextField_count hi hiw hip) rfl]
      exact (h.afterCount hi).nextField_cut (.inl hv) hvw (recognisedAt_V hv) ((List.prefix_append_right_inj _).mp hcut)
        fun heq => hne (congrArg (fieldBits i ++ ·) heq)
    · have hfield : b <+: fieldBits i :=
        (List.prefix_or_prefix_of_prefix hcut (List.prefix_append _ _)).resolve_right hfirst
      exact decRun_of_error (h.nextField_cut (.inr hi) hiw hip hfield fun heq => hfirst (heq ▸ List.prefix_rfl))

/-! The scan. -/

/-- The state after the runs of a stream whose appends fit. -/
def afterRuns (c : Command) (rs : List Run) (s : State) : State := rs.foldl (fun t r => afterRun c r t) s

@[simp] theorem afterRuns_cons (c : Command) (r : Run) (rs : List Run) (s : State) :
    afterRuns c (r :: rs) s = afterRuns c rs (afterRun c r s) := rfl

theorem ScanAt.scanLoop_end (h : ScanAt c .S [] s) (n : Nat) : scanLoop n s = .ok s := by
  cases n with
  | zero => rfl
  | succ n => exact if_neg fun hlt => h.pos_lt_iff.mp hlt rfl

theorem ScanAt.scanLoop_succ (h : ScanAt c .S b s) (hb : b ≠ []) (n : Nat) :
    scanLoop (n + 1) s = andThen (decRun s) (scanLoop n) := if_pos (h.pos_lt_iff.mpr hb)

/-- The scan over a stream's runs in order: all their values are appended, or the first that does not fit ends it. -/
theorem ScanAt.scanLoop_runs {rs : List Run} (h : ScanAt c .S (streamBits rs ++ rest) s) (hrs : ∀ r ∈ rs, r.legal = true)
    (n : Nat) :
    (s.vbuf.length + (streamValues rs).length ≤ s.cfg.vbufCap.toNat ∧ ScanAt c .S rest (afterRuns c rs s) ∧
      scanLoop (rs.length + n) s = scanLoop n (afterRuns c rs s)) ∨
    (s.cfg.vbufCap.toNat < s.vbuf.length + (streamValues rs).length ∧
      scanLoop (rs.length + n) s = .error .capacityExceeded) := by
  induction rs generalizing s with
  | nil => exact .inl ⟨h.room, h, by rw [List.length_nil, Nat.zero_add]; rfl⟩
  | cons r rs ih =>
    obtain ⟨hr, hrest⟩ := List.forall_mem_cons.mp hrs
    rw [streamBits_cons, List.append_assoc] at h
    have hne : r.bits ++ (streamBits rs ++ rest) ≠ [] := fun hnil => by
      have := length_bits_bytes hr
      rw [(List.append_eq_nil_iff.mp hnil).1] at this
      exact absurd this.1 (by decide)
    rw [List.length_cons, Nat.succ_add, h.scanLoop_succ hne, h.decRun_eq hr, streamValues_cons, List.length_append]
    split
    next hfit =>
      have hnext := ih (h.afterRun hr hfit) hrest
      rw [afterRun_vbuf hr, afterRun_cfg, List.length_append, Nat.add_assoc] at hnext
      exact hnext
    next hfull => exact .inr ⟨by omega, rfl⟩

theorem afterRuns_vbuf {rs : List Run} (hrs : ∀ r ∈ rs, r.legal = true) (c : Command) (s : State) :
    (afterRuns c rs s).vbuf = s.vbuf ++ streamValues rs := by
  induction rs generalizing s with
  | nil => exact (List.append_nil _).symm
  | cons r rs ih =>
    obtain ⟨hr, hrest⟩ := List.forall_mem_cons.mp hrs
    rw [afterRuns_cons, ih hrest, afterRun_vbuf hr, streamValues_cons, List.append_assoc]

theorem park_afterRuns (c : Command) (rs : List Run) (s : State) :
    park (afterRuns c rs s) = park { s with vbuf := (afterRuns c rs s).vbuf } := by
  induction rs generalizing s with
  | nil => rfl
  | cons r rs ih => exact (ih (afterRun c r s)).trans (park_afterRun c r s _)

/-! UNPACK. -/

/-- Where the short-circuit of R141 answers, the scan would have found nothing to read. -/
theorem frame_unpackStage (c : Command) (s : State) :
    frame c (unpackStage c) s = frame c (fun t => scanLoop t.bbuf.length (beginScan c t)) s := by
  by_cases hshort : (clearOutputs c s).bbuf.length < 8
  · have hlt : (beginScan c (clearOutputs c s)).ltrunc = 0 := by
      rw [beginScan_ltrunc, Nat.mod_eq_of_lt hshort, Nat.sub_self]
      rfl
    have hscan (n : Nat) : scanLoop n (beginScan c (clearOutputs c s)) = .ok (beginScan c (clearOutputs c s)) := by
      cases n with
      | zero => rfl
      | succ n => exact if_neg (by rw [hlt]; exact BitVec.not_lt_zero)
    rw [frame_ok (t := clearOutputs c s) (if_pos hshort), frame_ok (hscan _)]
    rfl
  · rw [frame, frame, unpackStage, if_neg hshort]

/-- The scan begins with the whole bytes of BBUF (R142). -/
theorem scanAt_beginScan {tail : List Bool} (c : Command) (hb : s.bbuf = b ++ tail) (h8 : b.length % 8 = 0)
    (htail : tail.length < 8) (hcap : s.bbuf.length ≤ s.cfg.bbufCap.toNat) (hroom : s.vbuf.length ≤ s.cfg.vbufCap.toNat) :
    ScanAt c .S b (beginScan c s) := by
  have hlen : s.bbuf.length = b.length + tail.length := by rw [hb, List.length_append]
  have htrunc : (beginScan c s).ltrunc.toNat = b.length := by
    have := s.cfg.bbufCap.isLt
    rw [beginScan_ltrunc, BitVec.toNat_ofNat]
    omega
  refine ⟨rfl, ?_, ?_, hroom⟩
  · rw [htrunc, beginScan_bbuf]
    omega
  · rw [visibleBits, htrunc, beginScan_bbuf, hb, List.take_left]
    rfl

variable {rs : List Run} {cut tail : List Bool}

/-- What UNPACK gives on a stream, a part of one more run, and fewer than 8 bits: the complete runs come first in scan order, so
their values decide before the part does (R211 (c)). -/
theorem exec_unpack_stream (he : s.engine = .idle) (hcap : s.bbuf.length ≤ s.cfg.bbufCap.toNat)
    (hrs : ∀ r ∈ rs, r.legal = true) (h8 : cut.length % 8 = 0) (htail : tail.length < 8)
    (hb : s.bbuf = streamBits rs ++ cut ++ tail) :
    (cut = [] → (streamValues rs).length ≤ s.cfg.vbufCap.toNat →
      exec .unpack s = .next (complete { s with vbuf := streamValues rs })) ∧
    (endsInsideARun cut → (streamValues rs).length ≤ s.cfg.vbufCap.toNat →
      exec .unpack s = .next (takeFault .unpack .unexpectedEndOfInput s)) ∧
    (s.cfg.vbufCap.toNat < (streamValues rs).length → exec .unpack s = .next (takeFault .unpack .capacityExceeded s)) := by
  obtain ⟨hcount, hbytes⟩ := length_streamBits hrs
  have hlen : s.bbuf.length = (streamBits rs).length + cut.length + tail.length := by
    rw [hb, List.length_append, List.length_append]
  obtain ⟨n, hn⟩ : ∃ n, s.bbuf.length = rs.length + n := Nat.exists_eq_add_of_le (by omega)
  have hexec : exec .unpack s = .next (frame .unpack (fun t => scanLoop t.bbuf.length (beginScan .unpack t)) s) :=
    (whenIdle_idle he).trans (congrArg _ (frame_unpackStage .unpack s))
  have hstart : ScanAt .unpack .S (streamBits rs ++ cut) (beginScan .unpack (clearOutputs .unpack s)) :=
    scanAt_beginScan (s := clearOutputs .unpack s) .unpack hb (by rw [List.length_append]; omega) htail hcap (Nat.zero_le _)
  have hruns := hstart.scanLoop_runs hrs n
  rw [← hn] at hruns
  rw [hexec]
  obtain ⟨hfit, hend, hscan⟩ | ⟨hfull, hscan⟩ := hruns
  · have hfit : (streamValues rs).length ≤ s.cfg.vbufCap.toNat := (Nat.zero_add _).symm.trans_le hfit
    refine ⟨fun hnil _ => ?_, fun hcut _ => ?_, fun hfull => absurd hfit (Nat.not_le.mpr hfull)⟩
    · rw [hnil] at hend
      rw [frame_ok (hscan.trans (hend.scanLoop_end n)), complete, park_afterRuns, afterRuns_vbuf hrs]
      rfl
    · have hpos : 0 < cut.length := List.length_pos_of_ne_nil hcut.1
      obtain ⟨m, rfl⟩ : ∃ m, n = m + 1 := Nat.exists_eq_add_one.mpr (by omega)
      rw [hend.scanLoop_succ hcut.1, hend.decRun_cut hcut, andThen_error] at hscan
      rw [frame_error hscan]
  · have hfull : s.cfg.vbufCap.toNat < (streamValues rs).length := hfull.trans_eq (Nat.zero_add _)
    refine ⟨fun _ hfit => absurd hfit (Nat.not_le.mpr hfull), fun _ hfit => absurd hfit (Nat.not_le.mpr hfull), fun _ => ?_⟩
    rw [frame_error hscan]

/-- Settles O21: a stream with no run cut. -/
theorem unpackDecodesEveryStreamOfTheGrammar : Obligations.UnpackDecodesEveryStreamOfTheGrammar := by
  intro s rs tail he hcap hrs htail hb
  rw [← List.append_nil (streamBits rs)] at hb
  obtain ⟨hcomplete, -, hfull⟩ := exec_unpack_stream he hcap hrs rfl htail hb
  exact ⟨hcomplete rfl, hfull⟩

/-- Settles O22: `exists_stream` cuts the whole bytes of the string, and `exec_unpack_stream` runs them. -/
theorem unpackOutcomeOfEveryBitString : Obligations.UnpackOutcomeOfEveryBitString := by
  refine fun s he hcap => ⟨?_, fun rs cut tail hrs h8 htail hb => ?_⟩
  · obtain ⟨rs, cut, hrs, hcut, hb⟩ := exists_stream (s.bbuf.take (s.bbuf.length - s.bbuf.length % 8))
    have hlen := congrArg List.length hb
    obtain ⟨-, hbytes⟩ := length_streamBits hrs
    rw [List.length_take, List.length_append] at hlen
    refine ⟨rs, cut, s.bbuf.drop (s.bbuf.length - s.bbuf.length % 8), hrs, hcut, by omega, ?_, ?_⟩
    · rw [List.length_drop]
      omega
    · rw [← hb, List.take_append_drop]
  · obtain ⟨hcomplete, hcutFault, hfull⟩ := exec_unpack_stream he hcap hrs h8 htail hb
    exact ⟨hcomplete, hcutFault, fun _ => hfull⟩

end Sys2Proof.Machine
end

section
/-! SUPPORT. What the decoder answers by the leading bits and the number of bits there are (R71 to R76), and what number a payload
is (R78). -/

namespace Sys2Proof

variable {b : List Bool}

/-- Settles O6: each word is the encoding of its instruction. -/
theorem wordsOfTheSpecDecode : Obligations.WordsOfTheSpecDecode :=
  ⟨decodeField_bitsV8 .S 42 [], decodeField_bitsV16 .S 300 [] (.inr (by decide)), decodeField_bitsC8 3 [] (by decide),
    decodeField_bitsC16 32 [], decodeField_bitsV16 .V 32512 [] (.inl rfl), decodeSymbol_symbolOf 10, decodeSymbol_symbolOf 48⟩

/-- A field whose first two bits are `10` or `11` has a first bit that is not 0. -/
theorem peek1_ne_zero_of_peek2 (hl : 2 ≤ b.length) (h : 2 ≤ (memRead b 0 2).toNat) : memRead b 0 1 ≠ 0#1 := by
  have hp := memRead_peek b 1 2 (by decide) hl
  rw [Ne, ← BitVec.toNat_inj, hp, BitVec.toNat_ofNat]
  omega

theorem decodeField_of_peek1_zero (p : Position) (hl : 8 ≤ b.length) (h : memRead b 0 1 = 0#1) :
    decodeField p b = .ok (.v8 (payloadV8 (memRead b 0 8))) := by
  have hvalue : ¬ memRead b 0 2 = 3#2 := by
    rw [peek1_of_byte hl] at h
    rw [peek2_of_byte hl]
    omega
  rw [decodeField_value p (.inr hvalue), decodeValue, if_pos h, wholeField_long hl]
  rfl

theorem decodeValue_of_peek1_one (hl : 16 ≤ b.length) (h : memRead b 0 1 ≠ 0#1) :
    decodeValue b = .ok (value16 (memRead b 0 16)) := by
  rw [decodeValue, if_neg h, wholeField_long hl]
  rfl

theorem decodeField_of_peek2_three (h : memRead b 0 2 = 3#2) : decodeField .S b = decodeCount b := if_pos h

theorem decodeCount_of_bit2_zero (hl : 8 ≤ b.length) (h : memRead b 2 1 = 0#1) :
    decodeCount b = .ok (.c8 (payloadC8 (memRead b 0 8))) := by
  rw [decodeCount, if_pos h, wholeField_long hl]
  rfl

theorem decodeCount_of_bit2_one (hl : 16 ≤ b.length) (h : memRead b 2 1 = 1#1) :
    decodeCount b = .ok (.c16 (payloadC16 (memRead b 0 16))) := by
  rw [decodeCount, h, if_neg (by decide), wholeField_long hl]
  rfl

/-! The number of a payload (R78). -/

theorem setWidth_payloadV8 {x : BitVec 8} (h : x.toNat < 128) : (payloadV8 x).setWidth 16 = x.setWidth 16 := by
  apply BitVec.eq_of_toNat_eq
  simp only [payloadV8, BitVec.toNat_setWidth]
  omega

theorem eq_xor_of_xor_eq {k : Nat} {x y mask : BitVec k} (h : x ^^^ mask = y) : x = y ^^^ mask := by
  rw [← h, BitVec.xor_assoc, BitVec.xor_self, BitVec.xor_zero]

theorem setWidth_payloadV16 {x : BitVec 16} (h : 0x8000 ≤ x.toNat) : (payloadV16 x).setWidth 16 = x ^^^ maskV16 :=
  eq_xor_of_xor_eq (payloadV16_setWidth_xor h)

theorem setWidth_payloadC8 {x : BitVec 8} (h : 0xC0 ≤ x.toNat) : (payloadC8 x).setWidth 13 = (x ^^^ maskC8).setWidth 13 := by
  rw [← eq_xor_of_xor_eq (payloadC8_setWidth_xor h), BitVec.setWidth_setWidth (by decide)]

end Sys2Proof
end

section
/-! SUPPORT. The five field kinds as instructions of a scan (R103 to R108): how a value field ends, and how a count field does. -/

namespace Sys2Proof.Machine

variable {s : State} {c : Command} {p : Position} {n : Count} {w : Len} {v : Val}

/-- Inside a scan, in a position that recognises it, a field has its effect there. -/
theorem exec_recognised {i : Instr} (hi : isValueField i = true ∨ isCountField i = true) (he : s.engine = .fields c p)
    (hp : i.recognisedAt p = true) : exec i s = settle c s (runField c p i s) := by
  rw [exec_eq_atField hi, atField_fields he, if_pos hp]

/-! Value fields. -/

theorem runCount_eq (p : Position) (s : State) : runCount p s = if p = .S then 1 else s.rcnt := by cases p <;> rfl

/-- VBUF takes `n` more values: none are appended, or all of them fit (R53, R103). -/
def RoomFor (n : Count) (s : State) : Prop := n = 0 ∨ s.vbuf.length + n.toNat ≤ s.cfg.vbufCap.toNat

/-- The state after a value field of `w` bits with the value `v`, appended `n` times. -/
def valueRead (c : Command) (w : Len) (v : Val) (n : Count) (s : State) : State :=
  { s with rcnt := n, rval := v, pos := s.pos + w, vbuf := s.vbuf ++ List.replicate n.toNat v, engine := .fields c .S }

theorem valueField_fits (hn : n = runCount p s) (h : RoomFor n s) : valueField c p w v s = .ok (valueRead c w v n s) := by
  subst hn
  exact appendRun_fits (h.imp_left (congrArg BitVec.toNat))

theorem valueField_full (hn : n = runCount p s) (h : ¬ RoomFor n s) : valueField c p w v s = .error .capacityExceeded := by
  subst hn
  exact appendRun_full fun hfit => h (hfit.imp_left BitVec.eq_of_toNat_eq)

/-- A 16-bit value field: as an 8-bit one where its bits are there, else the end of the input (R105, R106). -/
theorem settle_value16 (v : Val) (hn : n = runCount p s) :
    (s.pos.toNat + 16 ≤ s.ltrunc.toNat → RoomFor n s →
      settle c s (needBits 16 (valueField c p 16 v) s) = .next (valueRead c 16 v n s)) ∧
    (s.pos.toNat + 16 ≤ s.ltrunc.toNat → ¬ RoomFor n s →
      settle c s (needBits 16 (valueField c p 16 v) s) = .next (takeFault c .capacityExceeded s)) ∧
    (s.ltrunc.toNat < s.pos.toNat + 16 →
      settle c s (needBits 16 (valueField c p 16 v) s) = .next (takeFault c .unexpectedEndOfInput s)) := by
  refine ⟨fun hbits hfit => ?_, fun hbits hfull => ?_, fun hshort => ?_⟩
  · rw [needBits_enough hbits, valueField_fits hn hfit, settle_ok]
  · rw [needBits_enough hbits, valueField_full hn hfull, settle_error]
  · rw [needBits_short (by decide) hshort, settle_error]

/-- Settles O7: the room in VBUF decides how the value field ends. -/
theorem v8ExecutesInsideAScan : Obligations.V8ExecutesInsideAScan := by
  intro s c p v n he hn
  rw [← runCount_eq] at hn
  have hexec : exec (.v8 v) s = settle c s (valueField c p 8 (v.setWidth 16) s) := exec_recognised (.inl rfl) he rfl
  rw [hexec]
  refine ⟨fun hfit => ?_, fun hfull => ?_⟩
  · rw [valueField_fits hn hfit]
    rfl
  · rw [valueField_full hn hfull]
    rfl

/-- Settles O8: V16 is a 16-bit value field. -/
theorem v16ExecutesInsideAScan : Obligations.V16ExecutesInsideAScan := by
  intro s c p v n he hn
  rw [← runCount_eq] at hn
  have hexec : exec (.v16 v) s = settle c s (needBits 16 (valueField c p 16 (v.setWidth 16)) s) :=
    exec_recognised (.inl rfl) he rfl
  rw [hexec]
  exact settle_value16 _ hn

/-- Settles O9: V16X is the same 16-bit value field, in position V. -/
theorem v16xExecutesAfterACount : Obligations.V16xExecutesAfterACount := by
  intro s c v he
  have hexec : exec (.v16x v) s = settle c s (needBits 16 (valueField c .V 16 (v.setWidth 16)) s) :=
    exec_recognised (.inl rfl) he rfl
  rw [hexec]
  exact settle_value16 _ rfl

/-! Count fields. -/

/-- Settles O10: a count field ends in one way, C16 where its bits are there. -/
theorem countFieldsExecuteAtARunStart : Obligations.CountFieldsExecuteAtARunStart := by
  intro s c he
  have hexec {i : Instr} (hi : isCountField i = true) : exec i s = settle c s (runField c .S i s) :=
    exec_recognised (.inr hi) he ((recognisedAt_count_iff hi).mpr rfl)
  refine ⟨fun n => hexec rfl, fun n hbits => ?_, fun n hshort => ?_⟩
  · rw [hexec rfl, runField, fieldC16, needBits_enough hbits]
    rfl
  · rw [hexec rfl, runField, fieldC16, needBits_short (by decide) hshort, settle_error]

end Sys2Proof.Machine
end

section
/-! SUPPORT. A step of the scan at each kind of field in BBUF (R104 to R108). -/

namespace Sys2Proof.Machine

variable {s : State} {c : Command} {p : Position} {n : Count}

/-- Below LTRUNC the decoder sees BBUF as it is (R22). -/
theorem memRead_visibleBits {k m : Nat} (h : s.pos.toNat + k + m ≤ s.ltrunc.toNat) :
    memRead (visibleBits s) k m = memRead s.bbuf (s.pos.toNat + k) m := by
  rw [memRead, memRead, visibleBits, List.drop_drop, List.drop_take, List.take_take, Nat.min_eq_left (by omega)]

/-- The field at POS as the decoder sees it, from its first bit. -/
theorem memRead_field {m : Nat} (h : s.pos.toNat + m ≤ s.ltrunc.toNat) :
    memRead (visibleBits s) 0 m = memRead s.bbuf s.pos.toNat m := memRead_visibleBits (k := 0) h

theorem le_length_visibleBits {m : Nat} (htrunc : s.ltrunc.toNat ≤ s.bbuf.length) (h : s.pos.toNat + m ≤ s.ltrunc.toNat) :
    m ≤ (visibleBits s).length := by
  rw [length_visibleBits htrunc, remaining]
  omega

/-- Before LTRUNC a step of the scan is the effect of the field decoded at POS. -/
theorem step_of_decodeField {i : Instr} (he : s.engine = .fields c p) (hlt : s.pos.toNat < s.ltrunc.toNat)
    (hd : decodeField p (visibleBits s) = .ok i) : step s = settle c s (runField c p i s) :=
  (step_field he (fun _ => hlt) hd).trans (exec_field he hd)

/-- A field that does not fit ends the command (R84). -/
theorem step_of_endOfInput (he : s.engine = .fields c p) (hlt : s.pos.toNat < s.ltrunc.toNat)
    (hd : decodeField p (visibleBits s) = .error .endOfInput) : step s = .next (takeFault c .unexpectedEndOfInput s) :=
  step_other (fetch_field_error he (fun _ => hlt) hd)

/-! Value fields. -/

/-- Settles O14: a leading bit 0 is V8 in both positions, and the payload's number is the byte's. -/
theorem scanReadsV8 : Obligations.ScanReadsV8 := by
  intro s c p n he hbits htrunc h0 hn hfit
  have hl := le_length_visibleBits htrunc hbits
  have hvis : memRead (visibleBits s) 0 1 = 0#1 := (memRead_field (by omega)).trans h0
  have hbyte := (peek1_of_byte hl).mp hvis
  rw [← runCount_eq] at hn
  rw [step_of_decodeField he (by omega) (decodeField_of_peek1_zero p hl hvis), runField, fieldV8, valueField_fits hn hfit,
    setWidth_payloadV8 hbyte, memRead_field hbits]
  rfl

/-- V16 and V16X have one effect (R106). -/
theorem runField_value16 {x : BitVec 16} (hp : (value16 x).recognisedAt p = true) :
    runField c p (value16 x) s = needBits 16 (valueField c p 16 ((payloadV16 x).setWidth 16)) s := by
  rw [value16] at hp ⊢
  split
  next hbit =>
    rw [if_pos hbit] at hp
    obtain rfl : p = .V := of_decide_eq_true hp
    rfl
  next => rfl

/-- A step at a value field whose leading bit is 1: its 15-bit payload where its 16 bits are there, else the end of the input
(R105, R106). -/
theorem step_value16 (he : s.engine = .fields c p) (hbits : s.pos.toNat + 2 ≤ s.ltrunc.toNat)
    (htrunc : s.ltrunc.toNat ≤ s.bbuf.length) (h2 : 2 ≤ (memRead s.bbuf s.pos.toNat 2).toNat)
    (hp : p = .V ∨ ¬ memRead s.bbuf s.pos.toNat 2 = 3#2) (hn : n = runCount p s) :
    (s.pos.toNat + 16 ≤ s.ltrunc.toNat → RoomFor n s →
      step s = .next (valueRead c 16 (memRead s.bbuf s.pos.toNat 16 ^^^ maskV16) n s)) ∧
    (s.ltrunc.toNat < s.pos.toNat + 16 → step s = .next (takeFault c .unexpectedEndOfInput s)) := by
  rw [← memRead_field hbits] at h2 hp
  have h1 := peek1_ne_zero_of_peek2 (le_length_visibleBits htrunc hbits) h2
  have hvalue := decodeField_value p hp
  refine ⟨fun h16 hfit => ?_, fun hshort => step_of_endOfInput he (by omega) ?_⟩
  · have hl := le_length_visibleBits htrunc h16
    have hd := hvalue.trans (decodeValue_of_peek1_one hl h1)
    have hbyte := byte_of_field16 hl
    rw [Ne, peek1_of_byte (by omega)] at h1
    rw [step_of_decodeField he (by omega) hd, runField_value16 (recognisedAt_of_decodeField hd),
      setWidth_payloadV16 (by omega), memRead_field h16]
    exact (settle_value16 _ hn).1 h16 hfit
  · rw [hvalue, decodeValue_eq_error_iff, length_visibleBits htrunc, remaining]
    exact .inr ⟨h1, by omega⟩

/-- Settles O15: `10` is a value in both positions. -/
theorem scanReadsV16 : Obligations.ScanReadsV16 := by
  intro s c p n he hbits htrunc h2 hn
  rw [← runCount_eq] at hn
  exact step_value16 he hbits htrunc (by rw [h2]; decide) (.inr (by rw [h2]; decide)) hn

/-- Settles O16: after a count `11` is a value like `10`. -/
theorem scanReadsV16xAfterACount : Obligations.ScanReadsV16xAfterACount := by
  intro s c he hbits htrunc h2
  exact step_value16 he hbits htrunc (by rw [h2]; decide) (.inl rfl) rfl

/-! Count fields. -/

/-- Settles O17: `110` at a run start is C8, and the payload's number is the byte's under the mask. -/
theorem scanReadsC8 : Obligations.ScanReadsC8 := by
  intro s c he hbits htrunc h2 h3
  have hl := le_length_visibleBits htrunc hbits
  have h2 : memRead (visibleBits s) 0 2 = 3#2 := (memRead_field (by omega)).trans h2
  have h3 : memRead (visibleBits s) 2 1 = 0#1 := (memRead_visibleBits (by omega)).trans h3
  have hbyte := (peek2_of_byte hl).mp h2
  rw [step_of_decodeField he (by omega) ((decodeField_of_peek2_three h2).trans (decodeCount_of_bit2_zero hl h3)), runField,
    fieldC8, setWidth_payloadC8 hbyte, memRead_field hbits]
  rfl

/-- Settles O18: `111` at a run start is C16, where its 16 bits are there. -/
theorem scanReadsC16 : Obligations.ScanReadsC16 := by
  intro s c he hbits htrunc h2 h3
  have h2 : memRead (visibleBits s) 0 2 = 3#2 := (memRead_field (by omega)).trans h2
  have h3 : memRead (visibleBits s) 2 1 = 1#1 := (memRead_visibleBits (by omega)).trans h3
  have hcount := decodeField_of_peek2_three h2
  refine ⟨fun h16 => ?_, fun hshort => step_of_endOfInput he (by omega) ?_⟩
  · have hd := hcount.trans (decodeCount_of_bit2_one (le_length_visibleBits htrunc h16) h3)
    rw [step_of_decodeField he (by omega) hd, runField, fieldC16, needBits_enough h16, memRead_field h16]
    rfl
  · rw [hcount, decodeCount_eq_error_iff, length_visibleBits htrunc, remaining, h3]
    exact .inr ⟨by decide, by omega⟩

end Sys2Proof.Machine
end

section
/-! SUPPORT. The encoder primitives on their domains: by number, and as fields and runs of the grammar (R77, R100 to R102). -/

namespace Sys2Proof.Machine

variable {n : Count} {v : Val}

theorem toNat_setWidth_of_lt {k m : Nat} {x : BitVec k} (h : x.toNat < 2 ^ m) : (x.setWidth m).toNat = x.toNat := by
  rw [BitVec.toNat_setWidth, Nat.mod_eq_of_lt h]

/-- The number of a payload under the mask of its kind (R78, R110). -/
theorem toNat_xor_mask {w k m : Nat} {x mask : BitVec w} (hm : mask.toNat = 2 ^ k * m) (h : x.toNat < 2 ^ k) :
    (x ^^^ mask).toNat = mask.toNat + x.toNat := by
  rw [BitVec.toNat_xor, hm, xor_mask_eq_add h]

/-! By number. -/

theorem encValue_small (h : v.toNat ≤ 127) : encValue v = binNat 8 v.toNat :=
  (if_pos h).trans (congrArg (binNat 8) (toNat_setWidth_of_lt (by omega)))

theorem encValue_large (h : ¬ v.toNat ≤ 127) (hv : v.toNat < 2 ^ 15) : encValue v = binNat 16 (0x8000 + v.toNat) :=
  (if_neg h).trans (congrArg (binNat 16) (toNat_xor_mask (mask := maskV16) (m := 1) rfl hv))

theorem encCount_small (h : n.toNat ≤ 31) : encCount n = binNat 8 (0xC0 + n.toNat) := by
  have hn : (n.setWidth 8).toNat = n.toNat := toNat_setWidth_of_lt (by omega)
  have hnum := toNat_xor_mask (x := n.setWidth 8) (mask := maskC8) (k := 6) (m := 3) rfl (by omega)
  rw [hn] at hnum
  exact (if_pos h).trans (congrArg (binNat 8) hnum)

theorem encCount_large (h : ¬ n.toNat ≤ 31) : encCount n = binNat 16 (0xE000 + n.toNat) :=
  (if_neg h).trans (congrArg (binNat 16) (toNat_xor_maskC16 n))

/-- Settles O31: the thresholds of the encoder, and each tag as an addition. -/
theorem encodersUseTheShortestFields : Obligations.EncodersUseTheShortestFields := by
  refine ⟨fun v _ hv => ?_, fun n _ => ?_, fun n v _ _ _ => rfl⟩
  · split
    next hs => exact encValue_small hs
    next hl => exact encValue_large hl (by omega)
  · split
    next hs => exact encCount_small hs
    next hl => exact encCount_large hl

/-! As fields. -/

theorem fieldBits_v8 (x : BitVec 7) : fieldBits (.v8 x) = binNat 8 x.toNat :=
  congrArg (binNat 8) (BitVec.toNat_setWidth_of_le (by decide))

theorem fieldBits_v16 (x : BitVec 15) : fieldBits (.v16 x) = binNat 16 (0x8000 + x.toNat) :=
  congrArg (binNat 16) (toNat_xor_maskV16 x)

theorem fieldBits_c8 (x : BitVec 6) : fieldBits (.c8 x) = binNat 8 (0xC0 + x.toNat) :=
  congrArg (binNat 8) (toNat_xor_maskC8 x)

theorem fieldBits_c16 (x : BitVec 13) : fieldBits (.c16 x) = binNat 16 (0xE000 + x.toNat) :=
  congrArg (binNat 16) (toNat_xor_maskC16 x)

/-- The field of ENC_VALUE. -/
def encodedValue (v : Val) : Instr := if v.toNat ≤ 127 then .v8 (v.setWidth 7) else .v16 (v.setWidth 15)

/-- The field of ENC_COUNT. -/
def encodedCount (n : Count) : Instr := if n.toNat ≤ 31 then .c8 (n.setWidth 6) else .c16 n

theorem encodedValue_spec (hv : v.toNat ≤ 300) :
    fieldBits (encodedValue v) = encValue v ∧ fieldNumber (encodedValue v) = v.toNat ∧
    isValueField (encodedValue v) = true ∧ (encodedValue v).wellFormed = true ∧ (encodedValue v).recognisedAt .S = true := by
  rw [encodedValue]
  split
  next hs =>
    have hnum : (v.setWidth 7).toNat = v.toNat := toNat_setWidth_of_lt (by omega)
    exact ⟨by rw [fieldBits_v8, encValue_small hs, hnum], hnum, rfl, rfl, rfl⟩
  next hl =>
    have hnum : (v.setWidth 15).toNat = v.toNat := toNat_setWidth_of_lt (by omega)
    refine ⟨by rw [fieldBits_v16, encValue_large hl (by omega), hnum], hnum, rfl, decide_eq_true ?_, rfl⟩
    rw [BitVec.lt_def, hnum, BitVec.toNat_ofNat]
    omega

theorem encodedCount_spec (n : Count) :
    fieldBits (encodedCount n) = encCount n ∧ fieldNumber (encodedCount n) = n.toNat ∧
    isCountField (encodedCount n) = true ∧ (encodedCount n).wellFormed = true := by
  rw [encodedCount]
  split
  next hs =>
    have hnum : (n.setWidth 6).toNat = n.toNat := toNat_setWidth_of_lt (by omega)
    refine ⟨by rw [fieldBits_c8, encCount_small hs, hnum], hnum, rfl, decide_eq_true ?_⟩
    rw [BitVec.lt_def, hnum, BitVec.toNat_ofNat]
    omega
  next hl => exact ⟨by rw [fieldBits_c16, encCount_large hl], rfl, rfl, rfl⟩

/-! As runs. -/

/-- The run of ENC_RUN: a count of 1 is not encoded (R102). -/
def encodedRun (n : Count) (v : Val) : Run := ⟨if 1 < n.toNat then some (encodedCount n) else none, encodedValue v⟩

theorem encodedRun_single (h : ¬ 1 < n.toNat) : encodedRun n v = ⟨none, encodedValue v⟩ := by rw [encodedRun, if_neg h]

theorem encodedRun_counted (h : 1 < n.toNat) : encodedRun n v = ⟨some (encodedCount n), encodedValue v⟩ := by
  rw [encodedRun, if_pos h]

theorem encodedRun_legal (n : Count) (hv : v.toNat ≤ 300) : (encodedRun n v).legal = true := by
  obtain ⟨-, -, hvalue, hvw, hvp⟩ := encodedValue_spec hv
  obtain ⟨-, -, hcount, hcw⟩ := encodedCount_spec n
  by_cases h1 : 1 < n.toNat
  · rw [encodedRun_counted h1, legal_counted_iff]
    exact ⟨⟨hcount, hcw⟩, hvalue, hvw⟩
  · rw [encodedRun_single h1, legal_single_iff]
    exact ⟨hvalue, hvw, hvp⟩

theorem bits_encodedRun (n : Count) (hv : v.toNat ≤ 300) : (encodedRun n v).bits = encRun n v := by
  obtain ⟨hvbits, -⟩ := encodedValue_spec hv
  obtain ⟨hcbits, -⟩ := encodedCount_spec n
  by_cases h1 : 1 < n.toNat
  · rw [encodedRun_counted h1, bits_counted, hcbits, hvbits]
    exact (if_pos h1).symm
  · rw [encodedRun_single h1]
    exact hvbits.trans (if_neg h1).symm

theorem value_encodedRun (n : Count) (hv : v.toNat ≤ 300) : BitVec.ofNat 16 (fieldNumber (encodedRun n v).value) = v := by
  obtain ⟨-, hnum, -⟩ := encodedValue_spec hv
  rw [encodedRun, hnum, BitVec.ofNat_toNat, BitVec.setWidth_eq]

theorem values_encodedRun (hn : 1 ≤ n.toNat) (hv : v.toNat ≤ 300) :
    (encodedRun n v).values = List.replicate n.toNat v := by
  have hvalue := value_encodedRun n hv
  obtain ⟨-, hnum, -⟩ := encodedCount_spec n
  by_cases h1 : 1 < n.toNat
  · rw [encodedRun_counted h1] at hvalue ⊢
    exact congrArg₂ List.replicate hnum hvalue
  · rw [encodedRun_single h1] at hvalue ⊢
    rw [show n.toNat = 1 by omega]
    exact congrArg (List.replicate 1) hvalue

end Sys2Proof.Machine
end

section
/-! SUPPORT. DEC_RUN of a run whose bits are at POS (R103, R109). -/

namespace Sys2Proof.Machine

variable {s : State} {c : Command} {p : Position} {i : Instr} {r : Run} {rest : List Bool}

theorem nextField_of_visibleBits (he : s.engine = .fields c p) (hvis : visibleBits s = fieldBits i ++ rest)
    (hi : isValueField i = true ∨ isCountField i = true) (hw : i.wellFormed = true) (hp : i.recognisedAt p = true) :
    nextField s = runField c p i s := by
  refine nextField_ok he ?_
  rw [fetchField, hvis]
  exact decodeField_fieldBits rest hi hw hp

theorem pos_add_width_le (htrunc : s.ltrunc.toNat ≤ s.bbuf.length) (hvis : visibleBits s = fieldBits i ++ rest)
    (hi : isValueField i = true ∨ isCountField i = true) : s.pos.toNat + i.width ≤ s.ltrunc.toNat := by
  have hlen := length_visibleBits htrunc
  have hw := field_width hi
  rw [hvis, remaining, List.length_append, length_fieldBits hi] at hlen
  omega

/-- A value field at POS, with its bits below LTRUNC. -/
theorem nextField_value_of_visibleBits (he : s.engine = .fields c p) (htrunc : s.ltrunc.toNat ≤ s.bbuf.length)
    (hvis : visibleBits s = fieldBits i ++ rest) (hi : isValueField i = true) (hw : i.wellFormed = true)
    (hp : i.recognisedAt p = true) :
    nextField s =
      if (runCount p s).toNat = 0 ∨ s.vbuf.length + (runCount p s).toNat ≤ s.cfg.vbufCap.toNat then .ok (afterValue c p i s)
      else .error .capacityExceeded :=
  (nextField_of_visibleBits he hvis (.inl hi) hw hp).trans
    (runField_value hi hp (pos_add_width_le htrunc hvis (.inl hi)))

/-- DEC_RUN of a legal run, whatever VBUF holds: its values are appended, or they do not fit. -/
theorem decRun_of_visibleBits (he : s.engine = .fields c .S) (htrunc : s.ltrunc.toNat ≤ s.bbuf.length)
    (hvis : visibleBits s = r.bits ++ rest) (hr : r.legal = true) :
    decRun s = if r.values.length = 0 ∨ s.vbuf.length + r.values.length ≤ s.cfg.vbufCap.toNat then .ok (afterRun c r s)
      else .error .capacityExceeded := by
  obtain ⟨_ | i, v⟩ := r
  · obtain ⟨hv, hvw, hvp⟩ := (legal_single_iff v).mp hr
    have hnext := nextField_value_of_visibleBits he htrunc hvis hv hvw hvp
    rw [length_values_single]
    split
    next hfit => exact decRun_of_value (hnext.trans (if_pos hfit)) rfl
    next hfull => exact decRun_of_error (hnext.trans (if_neg hfull))
  · obtain ⟨⟨hi, hiw⟩, hv, hvw⟩ := (legal_counted_iff i v).mp hr
    rw [bits_counted, List.append_assoc] at hvis
    have hbits := pos_add_width_le htrunc hvis (.inr hi)
    have hcount : nextField s = .ok (afterCount c i s) :=
      (nextField_of_visibleBits he hvis (.inr hi) hiw ((recognisedAt_count_iff hi).mpr rfl)).trans (runField_count hi hbits)
    have hvis' : visibleBits (afterCount c i s) = fieldBits v ++ rest :=
      visibleBits_advance (s := s) rfl rfl (by rw [length_fieldBits (.inr hi)]; exact toNat_pos_add hbits) hvis
    have hvalue := nextField_value_of_visibleBits (s := afterCount c i s) rfl htrunc hvis' hv hvw (recognisedAt_V hv)
    rw [decRun_of_count hcount rfl, hvalue, length_values_counted, ← toNat_ofNat_fieldNumber hi]
    rfl

theorem bits_single (v : Instr) : (Run.mk none v).bits = fieldBits v := rfl

/-- What a legal run leaves, by its number of values, its value and its length in bits. -/
theorem afterRun_eq (c : Command) (hr : r.legal = true) (s : State) :
    afterRun c r s = { s with
      rcnt := BitVec.ofNat 13 r.values.length, rval := BitVec.ofNat 16 (fieldNumber r.value)
      pos := s.pos + BitVec.ofNat 32 r.bits.length, vbuf := s.vbuf ++ r.values, engine := .fields c .S } := by
  rw [← afterRun_vbuf hr c s]
  obtain ⟨_ | i, v⟩ := r
  · obtain ⟨hv, -⟩ := (legal_single_iff v).mp hr
    rw [bits_single, length_fieldBits (.inl hv)]
    rfl
  · obtain ⟨⟨hi, -⟩, hv, -⟩ := (legal_counted_iff i v).mp hr
    rw [length_values_counted, bits_counted, List.length_append, length_fieldBits (.inr hi), length_fieldBits (.inl hv),
      BitVec.ofNat_add, ← BitVec.add_assoc]
    rfl

/-- Bits that BBUF holds at POS, below LTRUNC, are the next to be read. -/
theorem visibleBits_eq_append {front : List Bool} (hbits : s.pos.toNat + front.length ≤ s.ltrunc.toNat)
    (hfront : (s.bbuf.drop s.pos.toNat).take front.length = front) :
    visibleBits s = front ++ (visibleBits s).drop front.length := by
  have htake : (visibleBits s).take front.length = front := by
    rw [visibleBits, List.drop_take, List.take_take, Nat.min_eq_left (by omega), hfront]
  conv_lhs => rw [← List.take_append_drop front.length (visibleBits s), htake]

/-- Settles O19: ENC_RUN gives a legal run with the values of the statement. -/
theorem decRunOfEncRun : Obligations.DecRunOfEncRun := by
  intro s c n v he _ hn _ hv htrunc hbits hfront
  have hn : 1 ≤ n.toNat := hn
  have hv : v.toNat ≤ 300 := hv
  have hlegal := encodedRun_legal n hv
  have hvis := visibleBits_eq_append hbits hfront
  rw [← bits_encodedRun n hv] at hvis
  rw [decRun_of_visibleBits he htrunc hvis hlegal, afterRun_eq c hlegal, values_encodedRun hn hv, value_encodedRun n hv,
    bits_encodedRun n hv, List.length_replicate, BitVec.ofNat_toNat, BitVec.setWidth_eq, ← he]
  exact ⟨fun hfit => if_pos (.inr hfit), fun hfull => if_neg (by omega)⟩

end Sys2Proof.Machine
end

section
/-! SUPPORT. The tokens and the keys of a text: SPLIT, TRIM and PARSE (R121, R123, R126). -/

namespace Sys2Proof.Machine

/-! SPLIT. -/

theorem split_ne_nil (text : List Symbol) : split text ≠ [] := by
  rcases text with _ | ⟨x, xs⟩
  · exact List.cons_ne_nil _ _
  · rw [split]
    split
    · exact List.cons_ne_nil _ _
    · split <;> exact List.cons_ne_nil _ _

theorem split_cons_comma (xs : List Symbol) : split (comma :: xs) = [] :: split xs := by rw [split, if_pos rfl]

/-- A symbol that is no comma joins the first token of what follows it. -/
theorem split_cons_of_ne {x : Symbol} (hx : x ≠ comma) (xs : List Symbol) :
    split (x :: xs) = (split xs).modifyHead (x :: ·) := by
  rw [split, if_neg hx]
  cases h : split xs with
  | nil => exact absurd h (split_ne_nil xs)
  | cons t ts => rfl

theorem length_split (text : List Symbol) : (split text).length = text.count comma + 1 := by
  induction text with
  | nil => rfl
  | cons x xs ih =>
    by_cases hx : x = comma
    · rw [hx, split_cons_comma, List.length_cons, ih, List.count_cons_self]
    · rw [split_cons_of_ne hx, List.length_modifyHead, ih, List.count_cons_of_ne hx]

theorem comma_not_mem_split (text : List Symbol) : ∀ t ∈ split text, comma ∉ t := by
  induction text with
  | nil => simp [split]
  | cons x xs ih =>
    by_cases hx : x = comma
    · rw [hx, split_cons_comma, List.forall_mem_cons]
      exact ⟨List.not_mem_nil, ih⟩
    · rw [split_cons_of_ne hx]
      cases h : split xs with
      | nil => exact absurd h (split_ne_nil xs)
      | cons t ts =>
        rw [h, List.forall_mem_cons] at ih
        rw [List.modifyHead_cons, List.forall_mem_cons]
        exact ⟨List.not_mem_cons_of_ne_of_not_mem (Ne.symm hx) ih.1, ih.2⟩

/-- SPLIT is the library's cut at an element, which the join undoes. -/
theorem split_eq_splitOn (text : List Symbol) : split text = text.splitOn comma := by
  induction text with
  | nil => rfl
  | cons x xs ih =>
    rw [List.splitOn, List.splitOnP_cons_eq_if_modifyHead, ← List.splitOn, ← ih]
    by_cases hx : x = comma
    · rw [hx, split_cons_comma, if_pos (beq_self_eq_true _)]
    · rw [split_cons_of_ne hx, if_neg (by simpa using hx)]

/-- Settles O27: each symbol of the text in turn starts a token or joins one. -/
theorem splitCutsAtEveryComma : Obligations.SplitCutsAtEveryComma := fun text =>
  ⟨length_split text, comma_not_mem_split text, by rw [split_eq_splitOn]; exact List.intercalate_splitOn comma⟩

/-! PARSE. -/

theorem isDigit_iff (x : Symbol) : isDigit x = true ↔ 48 ≤ x.toNat ∧ x.toNat ≤ 57 := by
  simp [isDigit, BitVec.le_def]

/-- The value of a digit string, with its last digit as the lowest. -/
theorem decimalValue_eq_ofDigits (k : Key) :
    decimalValue k = Nat.ofDigits 10 (k.reverse.map fun x => x.toNat - 48) := by
  rw [Nat.ofDigits_eq_foldr, List.foldr_map, List.foldr_reverse, decimalValue]
  simp only [Nat.cast_id, Nat.add_comm]

/-- Settles O30: the number of a valid key is at most 300, so its 16 bits hold the decimal value. -/
theorem parseAcceptsExactlyTheNumbersOneToThreeHundred : Obligations.ParseAcceptsExactlyTheNumbersOneToThreeHundred := by
  intro k v
  rw [parseKey, ← decimalValue_eq_ofDigits, Option.ite_none_right_eq_some, List.all_eq_true]
  simp only [isDigit_iff, valueMax, Option.some.injEq, ← BitVec.toNat_inj, BitVec.toNat_ofNat]
  constructor
  · rintro ⟨⟨hne, hdigits, hpos, hmax⟩, hv⟩
    exact ⟨hne, hdigits, by omega, by omega, by omega⟩
  · rintro ⟨hne, hdigits, hv, hpos, hmax⟩
    exact ⟨⟨hne, hdigits, by omega, by omega⟩, by omega⟩

/-- A key with a symbol that is no digit is no number. -/
theorem parseKey_eq_none {k : Key} {x : Symbol} (hx : x ∈ k) (hd : ¬ isDigit x = true) : parseKey k = none :=
  if_neg fun ⟨_, hdigits, _⟩ => hd (List.all_eq_true.mp hdigits x hx)

/-! TRIM. -/

/-- What TRIM tests of a symbol. -/
def isSpace (ws : List Symbol) (x : Symbol) : Bool := decide (x ∈ ws)

theorem isSpace_iff {ws : List Symbol} {x : Symbol} : isSpace ws x = true ↔ x ∈ ws := decide_eq_true_iff

theorem trim_eq_rdropWhile (ws t : List Symbol) : trim ws t = (t.dropWhile (isSpace ws)).rdropWhile (isSpace ws) := rfl

/-- What is left after the first symbols in WS_SET does not begin with one. -/
theorem head?_dropWhile_not_mem {ws t : List Symbol} {x : Symbol} (hx : (t.dropWhile (isSpace ws)).head? = some x) :
    x ∉ ws := by
  have hnot := List.head?_dropWhile_not (isSpace ws) t
  rw [hx] at hnot
  exact of_decide_eq_false hnot

theorem head?_trim_not_mem {ws t : List Symbol} {x : Symbol} (hx : (trim ws t).head? = some x) : x ∉ ws := by
  obtain ⟨rest, hrest⟩ := (t.dropWhile (isSpace ws)).rdropWhile_prefix (isSpace ws)
  refine head?_dropWhile_not_mem (t := t) ?_
  rw [← hrest, ← trim_eq_rdropWhile, List.head?_append, hx, Option.some_or]

theorem getLast?_trim_not_mem {ws t : List Symbol} {x : Symbol} (hx : (trim ws t).getLast? = some x) : x ∉ ws := by
  rw [trim, List.getLast?_reverse] at hx
  exact head?_dropWhile_not_mem hx

theorem not_isDigit_of_whitespace : ∀ x ∈ Config.standard.wsSet, ¬ isDigit x = true := by
  simp [Config.standard, isDigit]

/-- Settles O28: the two passes of TRIM drop the front and the end. -/
theorem trimRemovesTheOuterWhitespace : Obligations.TrimRemovesTheOuterWhitespace := by
  refine ⟨rfl, fun ws t => ⟨t.takeWhile (isSpace ws), (t.dropWhile (isSpace ws)).rtakeWhile (isSpace ws), ?_,
    fun x hx => isSpace_iff.mp (List.mem_takeWhile_imp hx), fun x hx => isSpace_iff.mp (List.mem_rtakeWhile_imp hx),
    fun x => head?_trim_not_mem, fun x => getLast?_trim_not_mem, ?_⟩⟩
  · rw [trim_eq_rdropWhile, List.append_assoc, List.rdropWhile_append_rtakeWhile, List.takeWhile_append_dropWhile]
  · rintro ⟨x, hx, hws⟩
    exact parseKey_eq_none hx (not_isDigit_of_whitespace x hws)

end Sys2Proof.Machine
end

section
/-! SUPPORT. The tally of a list of keys: each distinct key once, in some order, with its count (R124). -/

namespace Sys2Proof.Machine

/-! One more token. -/

theorem bump_of_not_mem {k : Key} {t : Tally} (hk : k ∉ t.map Prod.fst) : bump k t = t ++ [(k, 1)] := by
  induction t with
  | nil => rfl
  | cons e t ih =>
    rw [List.map_cons, List.mem_cons, not_or] at hk
    obtain ⟨hne, hk⟩ := hk
    rw [bump, if_neg hne, ih hk, List.cons_append]

/-- In a tally with the counts `f`, one more token with a key that is there raises the count of that key. -/
theorem bump_of_mem {k : Key} {order : List Key} (f : Key → Count) (horder : order.Nodup) (hk : k ∈ order) :
    bump k (order.map fun j => (j, f j)) = order.map fun j => (j, Function.update f k (f k + 1) j) := by
  induction order with
  | nil => cases hk
  | cons j order ih =>
    obtain ⟨hj, horder⟩ := List.nodup_cons.mp horder
    rw [List.map_cons, List.map_cons, bump]
    by_cases hkj : k = j
    · subst hkj
      rw [if_pos rfl, Function.update_self]
      refine congrArg _ (List.map_congr_left fun i hi => ?_)
      rw [Function.update_of_ne (ne_of_mem_of_not_mem hi hj)]
    · rw [if_neg hkj, ih horder (List.mem_of_ne_of_mem hkj hk), Function.update_of_ne (Ne.symm hkj)]

/-! All tokens. -/

/-- The entry of a key in the tally of `keys`. -/
def tallyEntry (keys : List Key) (k : Key) : Key × Count := (k, BitVec.ofNat 13 (keys.count k))

theorem map_fst_tallyEntry (keys order : List Key) : (order.map (tallyEntry keys)).map Prod.fst = order := by
  rw [List.map_map]
  exact List.map_id order

theorem tallyEntry_concat_self (keys : List Key) (k : Key) :
    tallyEntry (keys ++ [k]) k = (k, BitVec.ofNat 13 (keys.count k) + 1) := by
  rw [tallyEntry, List.count_append, List.count_singleton_self, BitVec.ofNat_add]
  rfl

theorem tallyEntry_concat_of_ne {keys : List Key} {j k : Key} (h : j ≠ k) :
    tallyEntry (keys ++ [k]) j = tallyEntry keys j := by
  rw [tallyEntry, List.count_append, List.count_singleton, if_neg (by simpa using h.symm), Nat.add_zero, tallyEntry]

theorem tallyOf_concat (keys : List Key) (k : Key) : tallyOf (keys ++ [k]) = bump k (tallyOf keys) := by
  rw [tallyOf, List.foldl_concat, ← tallyOf]

theorem perm_dedup_iff {order keys : List Key} : order.Perm keys.dedup ↔ order.Nodup ∧ ∀ k, k ∈ order ↔ k ∈ keys := by
  constructor
  · intro h
    exact ⟨h.nodup_iff.mpr keys.nodup_dedup, fun k => h.mem_iff.trans List.mem_dedup⟩
  · rintro ⟨hnodup, hmem⟩
    exact (List.perm_ext_iff_of_nodup hnodup keys.nodup_dedup).mpr fun k => (hmem k).trans List.mem_dedup.symm

/-- The tally lists the distinct keys in some order, each with its number of tokens. -/
theorem exists_tallyOf_eq_map (keys : List Key) :
    ∃ order : List Key, order.Perm keys.dedup ∧ tallyOf keys = order.map (tallyEntry keys) := by
  simp only [perm_dedup_iff]
  induction keys using List.reverseRecOn with
  | nil => exact ⟨[], ⟨.nil, fun _ => .rfl⟩, rfl⟩
  | append_singleton keys k ih =>
    obtain ⟨order, ⟨hnodup, hmem⟩, htally⟩ := ih
    rw [tallyOf_concat, htally]
    by_cases hk : k ∈ order
    · refine ⟨order, ⟨hnodup, fun j => ?_⟩, (bump_of_mem _ hnodup hk).trans (List.map_congr_left fun j _ => ?_)⟩
      · rw [List.mem_append, List.mem_singleton, hmem]
        exact ⟨.inl, fun h => h.elim id fun hj => (hmem j).mp (hj ▸ hk)⟩
      · by_cases hj : j = k
        · rw [hj, Function.update_self, tallyEntry_concat_self]
        · rw [Function.update_of_ne hj, tallyEntry_concat_of_ne hj, tallyEntry]
    · have hnew : keys.count k = 0 := List.count_eq_zero.mpr fun h => hk ((hmem k).mpr h)
      have hother : ∀ j ∈ order, j ≠ k := fun j hj => ne_of_mem_of_not_mem hj hk
      refine ⟨order ++ [k], ⟨?_, fun j => ?_⟩, ?_⟩
      · exact List.nodup_append.mpr ⟨hnodup, List.nodup_singleton k, by simpa using hother⟩
      · rw [List.mem_append, List.mem_append, hmem]
      · rw [bump_of_not_mem (by rwa [map_fst_tallyEntry]), List.map_append, List.map_singleton, tallyEntry_concat_self,
          hnew, List.map_congr_left fun j hj => tallyEntry_concat_of_ne (hother j hj)]
        rfl

/-- Every token has one of the distinct keys. -/
theorem sum_count_dedup (keys : List Key) : (keys.dedup.map keys.count).sum = keys.length := by
  have hbeq : (List.instBEq : BEq Key) = instBEqOfDecidableEq := lawful_beq_subsingleton _ _
  rw [hbeq]
  exact List.sum_map_count_dedup_eq_length keys

theorem toNat_count {cfg : Config} {keys : List Key} (h : keys.length ≤ cfg.maxEntries.toNat) (k : Key) :
    (BitVec.ofNat 13 (keys.count k)).toNat = keys.count k := by
  have := cfg.maxEntries.isLt
  rw [BitVec.toNat_ofNat, Nat.mod_eq_of_lt (List.count_le_length.trans h |>.trans_lt this)]

/-- Settles O29: the entry bound is below 2^13, so no count wraps. -/
theorem tallyCountsEveryDistinctKey : Obligations.TallyCountsEveryDistinctKey := by
  intro cfg keys hlen
  obtain ⟨order, horder, htally⟩ := exists_tallyOf_eq_map keys
  obtain ⟨hnodup, hmem⟩ := perm_dedup_iff.mp horder
  have hcount := toNat_count hlen
  rw [htally]
  refine ⟨?_, fun k n => ?_, ?_, ?_⟩
  · rw [map_fst_tallyEntry]
    exact hnodup
  · rw [List.mem_map]
    constructor
    · rintro ⟨j, hj, hentry⟩
      obtain ⟨rfl, rfl⟩ := Prod.mk.inj hentry
      exact ⟨(hmem j).mp hj, hcount j⟩
    · rintro ⟨hk, hn⟩
      exact ⟨k, (hmem k).mpr hk, Prod.ext rfl (BitVec.eq_of_toNat_eq ((hcount k).trans hn.symm))⟩
  · calc ((order.map (tallyEntry keys)).map fun e => e.2.toNat).sum
        = (order.map keys.count).sum := by
          rw [List.map_map]
          exact congrArg _ (List.map_congr_left fun k _ => hcount k)
      _ = (keys.dedup.map keys.count).sum := (horder.map _).sum_eq
      _ = keys.length := sum_count_dedup keys
  · intro e he
    obtain ⟨k, hk, rfl⟩ := List.mem_map.mp he
    have hpos : 0 < keys.count k := List.count_pos_iff.mpr ((hmem k).mp hk)
    rw [tallyEntry, hcount k]
    exact ⟨hpos, List.count_le_length.trans hlen⟩

end Sys2Proof.Machine
end

section
/-! SUPPORT. The lengths of PACK's output: fields, fragments and the padding (R100 to R102, R128, R131). -/

namespace Sys2Proof.Machine

/-! Runs and fragments. -/

theorem length_encValue (v : Val) : (encValue v).length = 8 ∨ (encValue v).length = 16 := by
  rw [encValue]
  split
  · exact .inl (length_bin _)
  · exact .inr (length_bin _)

theorem length_encCount (n : Count) : (encCount n).length = 8 ∨ (encCount n).length = 16 := by
  rw [encCount]
  split
  · exact .inl (length_bin _)
  · exact .inr (length_bin _)

theorem length_encRun_mod (n : Count) (v : Val) : (encRun n v).length % 8 = 0 := by
  have hvalue := length_encValue v
  have hcount := length_encCount n
  rw [encRun]
  split
  · rw [List.length_append]
    omega
  · omega

/-- A run has at most 16 bits for each token it stands for: two fields need two tokens. -/
theorem length_encRun_le {m : Nat} (hm : 1 ≤ m) (v : Val) : (encRun (BitVec.ofNat 13 m) v).length ≤ 16 * m := by
  have hvalue := length_encValue v
  have hcount := length_encCount (BitVec.ofNat 13 m)
  rw [encRun]
  split
  next h =>
    rw [BitVec.lt_def, BitVec.toNat_ofNat, BitVec.toNat_ofNat] at h
    rw [List.length_append]
    omega
  next => omega

theorem length_fragments (keys order : List Key) :
    (fragments keys order).length =
      (order.map fun k => (encRun (BitVec.ofNat 13 (keys.count k)) (keyValue k)).length).sum := by
  rw [fragments, List.length_flatten, List.map_map]
  rfl

theorem length_fragments_perm (keys : List Key) {order order' : List Key} (h : order.Perm order') :
    (fragments keys order).length = (fragments keys order').length := by
  rw [length_fragments, length_fragments, (h.map _).sum_eq]

theorem length_fragments_mod (keys order : List Key) : (fragments keys order).length % 8 = 0 := by
  rw [length_fragments, ← Nat.dvd_iff_mod_eq_zero]
  refine List.dvd_sum fun x hx => ?_
  obtain ⟨k, -, rfl⟩ := List.mem_map.mp hx
  exact Nat.dvd_of_mod_eq_zero (length_encRun_mod _ _)

theorem length_fragments_le {keys order : List Key} (horder : order.Perm keys.dedup) :
    (fragments keys order).length ≤ 16 * keys.length := by
  have hmem := (perm_dedup_iff.mp horder).2
  calc (fragments keys order).length
      = (order.map fun k => (encRun (BitVec.ofNat 13 (keys.count k)) (keyValue k)).length).sum :=
        length_fragments keys order
    _ ≤ (order.map fun k => 16 * keys.count k).sum :=
        List.sum_le_sum fun k hk => length_encRun_le (List.count_pos_iff.mpr ((hmem k).mp hk)) _
    _ = 16 * (order.map keys.count).sum := List.sum_map_mul_left ..
    _ = 16 * keys.length := by rw [(horder.map _).sum_eq, sum_count_dedup]

/-! The padding. -/

theorem length_pad6 (b : List Bool) : (pad6 b).length = b.length + (6 - b.length % 6) % 6 := by
  rw [pad6, List.length_append, List.length_replicate]

theorem length_pad6_mod (b : List Bool) : (pad6 b).length % 6 = 0 := by
  rw [length_pad6]
  omega

theorem padding_of_bytes {n : Nat} (h : n % 8 = 0) :
    (6 - n % 6) % 6 = 0 ∨ (6 - n % 6) % 6 = 2 ∨ (6 - n % 6) % 6 = 4 := by
  omega

/-- Settles O32: an even length leaves an even padding below 6. -/
theorem padMakesAMultipleOfSix : Obligations.PadMakesAMultipleOfSix := fun b =>
  ⟨(6 - b.length % 6) % 6, rfl, rfl, length_pad6_mod b, padding_of_bytes⟩

/-- The length of PACK's output does not depend on GROUP_ORDER (R131). -/
theorem length_pad6_fragments_perm (keys : List Key) {order order' : List Key} (h : order.Perm order') :
    (pad6 (fragments keys order)).length = (pad6 (fragments keys order')).length := by
  rw [length_pad6, length_pad6, length_fragments_perm keys h]

theorem length_pad6_fragments_le {keys order : List Key} (horder : order.Perm keys.dedup) :
    (pad6 (fragments keys order)).length ≤ 16 * keys.length + 4 := by
  have hle := length_fragments_le horder
  have hpad := padding_of_bytes (length_fragments_mod keys order)
  rw [length_pad6]
  omega

end Sys2Proof.Machine
end

section
/-! SUPPORT. PACK as a stage and as a command: its checks in their order, and what it writes (R120 to R132, R182). -/

namespace Sys2Proof.Machine

variable {s : State} {keys : List Key}

/-! Emission. -/

theorem fragment_tallyEntry {k : Key} (hk : (parseKey k).isSome = true) :
    fragment (tallyEntry keys k) = encRun (BitVec.ofNat 13 (keys.count k)) (keyValue k) := by
  obtain ⟨v, hv⟩ := Option.isSome_iff_exists.mp hk
  rw [fragment, tallyEntry, hv, keyValue, hv]
  rfl

/-- The choices see the places and not the elements. -/
theorem permute_map {α β : Type} (choice : Nat → Nat) (f : α → β) (l : List α) :
    permute choice (l.map f) = (permute choice l).map f := by
  induction l with
  | nil => rfl
  | cons x l ih => rw [List.map_cons, permute_cons, permute_cons, ih, List.map_insertIdx, List.length_map]

/-- The tally in GROUP_ORDER lists the distinct keys in some order (R125). -/
theorem exists_permute_tallyOf_eq_map (choice : Nat → Nat) (keys : List Key) :
    ∃ order : List Key, order.Perm keys.dedup ∧ permute choice (tallyOf keys) = order.map (tallyEntry keys) := by
  obtain ⟨first, hfirst, htally⟩ := exists_tallyOf_eq_map keys
  exact ⟨permute choice first, (permute_perm choice first).trans hfirst, by rw [htally, permute_map]⟩

theorem all_tallyOf_iff : ((tallyOf keys).all fun e => (parseKey e.1).isSome) = true ↔
    ∀ k ∈ keys, (parseKey k).isSome = true := by
  obtain ⟨order, horder, htally⟩ := exists_tallyOf_eq_map keys
  have hmem := (perm_dedup_iff.mp horder).2
  rw [htally, List.all_map, List.all_eq_true]
  exact forall_congr' fun k => imp_congr_left (hmem k)

theorem emitTally_valid (choice : Nat → Nat) (h : ∀ k ∈ keys, (parseKey k).isSome = true) :
    ∃ order : List Key, order.Perm keys.dedup ∧ emitTally choice (tallyOf keys) = .ok (pad6 (fragments keys order)) := by
  obtain ⟨order, horder, htally⟩ := exists_permute_tallyOf_eq_map choice keys
  have hmem := (perm_dedup_iff.mp horder).2
  refine ⟨order, horder, (if_pos (all_tallyOf_iff.mpr h)).trans ?_⟩
  have hfragments : emission (order.map (tallyEntry keys)) = fragments keys order := by
    rw [emission, List.map_map]
    exact congrArg _ (List.map_congr_left fun k hk => fragment_tallyEntry (h k ((hmem k).mp hk)))
  rw [htally, hfragments]

theorem emitTally_invalid (choice : Nat → Nat) {k : Key} (hk : k ∈ keys) (h : parseKey k = none) :
    emitTally choice (tallyOf keys) = .error .invalidValue :=
  if_neg fun hall => by simpa [h] using all_tallyOf_iff.mp hall k hk

/-! The stage. -/

theorem textKeys_of_eq_nil {cfg : Config} {text : List Symbol} (h : text = []) : textKeys cfg text = [] := if_pos h

theorem textKeys_of_ne_nil {cfg : Config} {text : List Symbol} (h : text ≠ []) :
    textKeys cfg text = (split text).map (trim cfg.wsSet) := if_neg h

theorem length_textKeys {cfg : Config} {text : List Symbol} (h : text ≠ []) :
    (textKeys cfg text).length = (split text).length := by
  rw [textKeys_of_ne_nil h, List.length_map]

theorem tallyText_full {cfg : Config} {text : List Symbol} (h : cfg.maxEntries.toNat < (split text).length) :
    tallyText cfg text = .error .capacityExceeded := if_pos h

theorem tallyText_fits {cfg : Config} {text : List Symbol} (hne : text ≠ [])
    (h : (split text).length ≤ cfg.maxEntries.toNat) : tallyText cfg text = .ok (tallyOf (textKeys cfg text)) := by
  rw [textKeys_of_ne_nil hne]
  exact if_neg (Nat.not_lt.mpr h)

/-- PACK of a text with too many tokens (R122). -/
theorem packStage_full (n : Nat) (hne : s.ibuf ≠ []) (h : s.cfg.maxEntries.toNat < (split s.ibuf).length) :
    packStage n s = .error .capacityExceeded := by
  rw [packStage, if_neg hne, tallyText_full h]

/-- PACK of a text with few enough tokens, where the tally of its keys is emitted. -/
theorem packStage_emitted {n : Nat} {b : List Bool} (hne : s.ibuf ≠ [])
    (h : (split s.ibuf).length ≤ s.cfg.maxEntries.toNat)
    (hemit : emitTally (Config.groupOrder n (tallyOf (textKeys s.cfg s.ibuf))) (tallyOf (textKeys s.cfg s.ibuf)) = .ok b) :
    packStage n s = putBits b { s with tally := tallyOf (textKeys s.cfg s.ibuf) } := by
  rw [packStage, if_neg hne, tallyText_fits hne h]
  dsimp only
  rw [hemit]

/-- PACK of a text with a key that is no number (R126). -/
theorem packStage_invalid (n : Nat) (hne : s.ibuf ≠ []) (h : (split s.ibuf).length ≤ s.cfg.maxEntries.toNat)
    (hk : ∃ k ∈ textKeys s.cfg s.ibuf, parseKey k = none) : packStage n s = .error .invalidValue := by
  obtain ⟨k, hk, hnone⟩ := hk
  rw [packStage, if_neg hne, tallyText_fits hne h]
  dsimp only
  rw [emitTally_invalid _ hk hnone]

/-- PACK of a valid text puts the padded fragments of the distinct keys, in some order, into BBUF. -/
theorem packStage_valid (n : Nat) (hb : s.bbuf = []) (h : textValid s.cfg s.ibuf) :
    ∃ (order : List Key) (t : Tally), order.Perm (textKeys s.cfg s.ibuf).dedup ∧
      packStage n s = putBits (pad6 (fragments (textKeys s.cfg s.ibuf) order)) { s with tally := t } := by
  obtain ⟨hlen, hkeys⟩ := h
  by_cases hne : s.ibuf = []
  · rw [textKeys_of_eq_nil hne]
    refine ⟨[], s.tally, .nil, (if_pos hne).trans ?_⟩
    exact (congrArg (fun b => Except.ok { s with bbuf := b }) hb).trans (putBits_fits (Nat.zero_le _)).symm
  · rw [length_textKeys hne] at hlen
    obtain ⟨order, horder, hemit⟩ := emitTally_valid (Config.groupOrder n (tallyOf (textKeys s.cfg s.ibuf))) hkeys
    exact ⟨order, _, horder, packStage_emitted hne hlen hemit⟩

/-- PACK and DENSIFY enter the stage with BBUF empty and IBUF as it was. -/
theorem packStage_clearOutputs_valid {c : Command} (hc : c = .pack ∨ c = .densify) (n : Nat) (h : textValid s.cfg s.ibuf) :
    ∃ (order : List Key) (t : Tally), order.Perm (textKeys s.cfg s.ibuf).dedup ∧
      packStage n (clearOutputs c (draw s)) =
        putBits (pad6 (fragments (textKeys s.cfg s.ibuf) order)) { clearOutputs c (draw s) with tally := t } := by
  obtain rfl | rfl := hc
  · exact packStage_valid (s := clearOutputs .pack (draw s)) n rfl h
  · exact packStage_valid (s := clearOutputs .densify (draw s)) n rfl h

/-- Where PACK succeeds the text is valid. -/
theorem textValid_of_packStage_ok {n : Nat} {t : State} (h : packStage n s = .ok t) : textValid s.cfg s.ibuf := by
  by_cases hne : s.ibuf = []
  · rw [textValid, textKeys_of_eq_nil hne]
    exact ⟨Nat.zero_le _, nofun⟩
  · by_cases hlen : (split s.ibuf).length ≤ s.cfg.maxEntries.toNat
    · refine ⟨length_textKeys hne ▸ hlen, fun k hk => Option.isSome_iff_ne_none.mpr fun hnone => ?_⟩
      rw [packStage_invalid n hne hlen ⟨k, hk, hnone⟩] at h
      cases h
    · rw [packStage_full n hne (Nat.not_le.mp hlen)] at h
      cases h

/-- Where PACK succeeds, BBUF holds the padded fragments of the distinct keys in some order. -/
theorem packStage_eq_ok {n : Nat} {t : State} (hb : s.bbuf = []) (h : packStage n s = .ok t) :
    ∃ order : List Key, order.Perm (textKeys s.cfg s.ibuf).dedup ∧
      t.bbuf = pad6 (fragments (textKeys s.cfg s.ibuf) order) := by
  obtain ⟨order, tally, horder, hstage⟩ := packStage_valid n hb (textValid_of_packStage_ok h)
  refine ⟨order, horder, ?_⟩
  rw [hstage, putBits] at h
  split at h
  · cases h
    rfl
  · cases h

/-! The command. -/

theorem exec_pack (he : s.engine = .idle) : exec .pack s = .next (frame .pack (packStage s.draws) (draw s)) :=
  exec_framed (c := .pack) ⟨nofun, nofun⟩ he

theorem exec_pack_ok {t : State} (he : s.engine = .idle) (h : packStage s.draws (clearOutputs .pack (draw s)) = .ok t) :
    exec .pack s = .next (complete t) := by
  rw [exec_pack he, frame_ok h]

theorem exec_pack_error {f : CodecFault} (he : s.engine = .idle)
    (h : packStage s.draws (clearOutputs .pack (draw s)) = .error f) :
    exec .pack s = .next (takeFault .pack f (draw s)) := by
  rw [exec_pack he, frame_error h]

/-- What a PACK without a fault leaves in BBUF. -/
theorem exec_pack_success {t : State} (he : s.engine = .idle) (h : exec .pack s = .next t) (herr : t.err = false) :
    textValid s.cfg s.ibuf ∧ ∃ order : List Key, order.Perm (textKeys s.cfg s.ibuf).dedup ∧
      t.bbuf = pad6 (fragments (textKeys s.cfg s.ibuf) order) := by
  rw [exec_pack he] at h
  cases h
  obtain ⟨u, hu, hframe⟩ | ⟨f, -, hframe⟩ := frame_cases .pack (packStage s.draws) (draw s)
  · rw [hframe]
    exact ⟨textValid_of_packStage_ok (s := clearOutputs .pack (draw s)) hu,
      packStage_eq_ok (s := clearOutputs .pack (draw s)) (t := u) rfl hu⟩
  · rw [hframe, takeFault_err] at herr
    cases herr

/-- Settles O34: the order is GROUP_ORDER's. -/
theorem packEmitsOneRunPerDistinctKey : Obligations.PackEmitsOneRunPerDistinctKey := by
  intro s he hvalid hfits
  obtain ⟨order, t, horder, hstage⟩ := packStage_clearOutputs_valid (.inl rfl) s.draws hvalid
  have hroom := (length_pad6_fragments_perm _ horder).trans_le hfits
  exact ⟨order, horder, (exec_pack_ok he (hstage.trans (putBits_fits hroom))).trans rfl⟩

/-- Settles O35: each check of R132 is made where the ones before it pass. -/
theorem packReportsTheFirstFailingCheck : Obligations.PackReportsTheFirstFailingCheck := by
  refine fun s he hne => ⟨fun hfull => ?_, fun hlen hkey => ?_, fun hvalid hlong => ?_⟩
  · exact exec_pack_error he (packStage_full _ hne hfull)
  · exact exec_pack_error he (packStage_invalid _ hne hlen hkey)
  · obtain ⟨order, t, horder, hstage⟩ := packStage_clearOutputs_valid (.inl rfl) s.draws hvalid
    refine exec_pack_error he (hstage.trans (putBits_full ?_))
    exact hlong.trans_eq (length_pad6_fragments_perm _ horder).symm

/-- Settles O36: what a successful PACK wrote is the padded fragments in some order. -/
theorem packOutputIsAlignedAndBounded : Obligations.PackOutputIsAlignedAndBounded := by
  intro s t he h herr
  obtain ⟨-, order, horder, hbits⟩ := exec_pack_success he h herr
  rw [hbits]
  exact ⟨length_pad6_mod _, length_pad6_fragments_le horder, length_pad6_fragments_perm _ horder⟩

end Sys2Proof.Machine
end

section
/-! SUPPORT. TENC's symbols, and DENSIFY of a valid text (R160, R187). -/

namespace Sys2Proof.Machine

/-! The symbols of a bit string. -/

theorem symbolsOfBits_short {b : List Bool} (h : b.length < 6) : symbolsOfBits b = [] := by
  rw [symbolsOfBits]
  rintro b0 b1 b2 b3 b4 b5 rest rfl
  simp only [List.length_cons] at h
  omega

theorem symbolsOfBits_long {b : List Bool} (h : 6 ≤ b.length) :
    symbolsOfBits b = symbolOf (memRead b 0 6) :: symbolsOfBits (b.drop 6) := by
  match b, h with
  | b0 :: b1 :: b2 :: b3 :: b4 :: b5 :: rest, _ => rfl

theorem length_symbolsOfBits (b : List Bool) : (symbolsOfBits b).length = b.length / 6 := by
  induction hn : b.length / 6 generalizing b with
  | zero => rw [symbolsOfBits_short (by omega), List.length_nil]
  | succ n ih => rw [symbolsOfBits_long (by omega), List.length_cons, ih _ (by rw [List.length_drop]; omega)]

/-- The symbol of each group of six bits (R160). -/
theorem getElem?_symbolsOfBits (b : List Bool) {g : Nat} (hg : g < b.length / 6) :
    (symbolsOfBits b)[g]? = some (symbolOf (memRead b (6 * g) 6)) := by
  induction g generalizing b with
  | zero => rw [symbolsOfBits_long (by omega), List.getElem?_cons_zero, Nat.mul_zero]
  | succ g ih =>
    rw [symbolsOfBits_long (by omega), List.getElem?_cons_succ, ih _ (by rw [List.length_drop]; omega), memRead,
      List.drop_drop, Nat.add_comm 6, ← memRead, Nat.mul_succ]

theorem tencStage_fits {s : State} (h6 : s.bbuf.length % 6 = 0) (h : s.bbuf.length / 6 ≤ s.cfg.obufCap.toNat) :
    tencStage s = .ok { s with obuf := symbolsOfBits s.bbuf } := by
  rw [tencStage, if_neg (by omega), putText_fits (by rwa [length_symbolsOfBits])]

/-! The command. -/

theorem exec_densify {s : State} (he : s.engine = .idle) :
    exec .densify s = .next (frame .densify (densifyStage s.draws) (draw s)) :=
  exec_framed (c := .densify) ⟨nofun, nofun⟩ he

/-- Settles O38: the bounds leave room for PACK's bits and for TENC's symbols. -/
theorem densifyCompletesOnAValidText : Obligations.DensifyCompletesOnAValidText := by
  intro s he hvalid hbits htext
  obtain ⟨order, t, horder, hpack⟩ := packStage_clearOutputs_valid (.inr rfl) s.draws hvalid
  have hle := length_pad6_fragments_le horder
  refine ⟨order, _, _, horder, rfl, length_symbolsOfBits _, fun g hg => getElem?_symbolsOfBits _ hg, ?_⟩
  have hroom : (pad6 (fragments (textKeys s.cfg s.ibuf) order)).length / 6 ≤ s.cfg.obufCap.toNat := by omega
  have hpacked := hpack.trans (putBits_fits (hle.trans hbits))
  rw [exec_densify he, frame_ok ((congrArg (andThen · tencStage) hpacked).trans (tencStage_fits (length_pad6_mod _) hroom))]
  rfl

end Sys2Proof.Machine
end

section
/-! SUPPORT. UNPACK of a string without a whole byte, and of what PACK wrote (R141, R152). -/

namespace Sys2Proof.Machine

variable {s t : State} {keys order : List Key}

/-! A string without a whole byte. -/

theorem exec_unpack (he : s.engine = .idle) : exec .unpack s = .next (frame .unpack (unpackStage .unpack) s) :=
  exec_framed (c := .unpack) ⟨nofun, nofun⟩ he

/-- Settles O20: the short-circuit leaves the state in which UNPACK's frame starts. -/
theorem unpackOfAShortStringIsEmpty : Obligations.UnpackOfAShortStringIsEmpty := by
  intro s he hshort
  have hstage : unpackStage .unpack (clearOutputs .unpack s) = .ok (clearOutputs .unpack s) := if_pos hshort
  rw [exec_unpack he, frame_ok hstage]
  rfl

/-! The numbers of the text, key by key. -/

/-- Taking the distinct elements of a list in any order, each repeated its count, gives the elements of the list. -/
theorem flatMap_replicate_count_perm {α : Type} [DecidableEq α] {l order : List α} (horder : order.Nodup)
    (hmem : ∀ a, a ∈ order ↔ a ∈ l) : (order.flatMap fun a => List.replicate (l.count a) a).Perm l := by
  refine List.perm_iff_count.mpr fun a => ?_
  have hother : ∀ b, b ≠ a → b ∈ order → (List.replicate (l.count b) b).count a = 0 := fun b hb _ =>
    List.count_eq_zero.mpr fun ha => hb (List.eq_of_mem_replicate ha).symm
  have hcount : (order.flatMap fun b => List.replicate (l.count b) b).count a = order.count a * l.count a :=
    List.count_flatMap.trans ((List.sum_map_eq_nsmul_single a _ hother).trans (by rw [List.count_replicate_self, smul_eq_mul]))
  rw [hcount, horder.count]
  split
  next => exact Nat.one_mul _
  next ha => rw [Nat.zero_mul, List.count_eq_zero.mpr fun hl => ha ((hmem a).mpr hl)]

theorem groupedValues_eq_map (keys order : List Key) :
    groupedValues keys order = (order.flatMap fun k => List.replicate (keys.count k) k).map keyValue := by
  rw [List.map_flatMap]
  simp only [List.map_replicate]
  rfl

theorem groupedValues_perm (horder : order.Perm keys.dedup) : (groupedValues keys order).Perm (keys.map keyValue) := by
  obtain ⟨hnodup, hmem⟩ := perm_dedup_iff.mp horder
  have hbeq : (List.instBEq : BEq Key) = instBEqOfDecidableEq := lawful_beq_subsingleton _ _
  rw [groupedValues_eq_map, hbeq]
  exact (flatMap_replicate_count_perm hnodup hmem).map keyValue

/-! PACK's output as a stream of the grammar. -/

/-- The number of a key is at most 300; a key that is no number counts as 0. -/
theorem keyValue_le (k : Key) : (keyValue k).toNat ≤ 300 := by
  rw [keyValue]
  cases hk : parseKey k with
  | none => exact Nat.zero_le _
  | some v =>
    obtain ⟨-, -, -, -, hmax⟩ := (parseAcceptsExactlyTheNumbersOneToThreeHundred k v).mp hk
    exact hmax

/-- The runs PACK writes, one for each key of `order` with its tally among `keys` (R127). -/
def packedRuns (keys order : List Key) : List Run :=
  order.map fun k => encodedRun (BitVec.ofNat 13 (keys.count k)) (keyValue k)

theorem packedRuns_legal (keys order : List Key) : ∀ r ∈ packedRuns keys order, r.legal = true :=
  List.forall_mem_map.mpr fun k _ => encodedRun_legal _ (keyValue_le k)

theorem streamBits_packedRuns (keys order : List Key) : streamBits (packedRuns keys order) = fragments keys order := by
  rw [streamBits, packedRuns, List.map_map]
  exact congrArg _ (List.map_congr_left fun k _ => bits_encodedRun _ (keyValue_le k))

/-- No tally wraps below the entry bound, so each run stands for all tokens of its key. -/
theorem streamValues_packedRuns {cfg : Config} (hlen : keys.length ≤ cfg.maxEntries.toNat) (hmem : ∀ k ∈ order, k ∈ keys) :
    streamValues (packedRuns keys order) = groupedValues keys order := by
  rw [streamValues, packedRuns, List.map_map]
  refine congrArg _ (List.map_congr_left fun k hk => ?_)
  have hcount := toNat_count hlen k
  have hpos : 0 < keys.count k := List.count_pos_iff.mpr (hmem k hk)
  exact (values_encodedRun (hcount.symm ▸ hpos) (keyValue_le k)).trans (congrArg (List.replicate · _) hcount)

theorem pad6_eq_append (b : List Bool) : ∃ tail : List Bool, tail.length < 8 ∧ pad6 b = b ++ tail :=
  ⟨_, by rw [List.length_replicate]; omega, rfl⟩

/-! The commands, one after the other. -/

/-- The whole state after a PACK without a fault. -/
theorem exec_pack_eq_complete (he : s.engine = .idle) (h : exec .pack s = .next t) (herr : t.err = false) :
    textValid s.cfg s.ibuf ∧ ∃ order : List Key, order.Perm (textKeys s.cfg s.ibuf).dedup ∧
      (pad6 (fragments (textKeys s.cfg s.ibuf) order)).length ≤ s.cfg.bbufCap.toNat ∧
      t = complete { s with
        bbuf := pad6 (fragments (textKeys s.cfg s.ibuf) order), bstage := [], draws := s.draws + 1 } := by
  obtain ⟨hvalid, -⟩ := exec_pack_success he h herr
  obtain ⟨order, tally, horder, hstage⟩ := packStage_clearOutputs_valid (.inl rfl) s.draws hvalid
  refine ⟨hvalid, order, horder, ?_⟩
  by_cases hfits : (pad6 (fragments (textKeys s.cfg s.ibuf) order)).length ≤ s.cfg.bbufCap.toNat
  · rw [exec_pack_ok he (hstage.trans (putBits_fits hfits))] at h
    cases h
    exact ⟨hfits, rfl⟩
  · rw [exec_pack_error he (hstage.trans (putBits_full (Nat.not_le.mp hfits)))] at h
    cases h
    rw [takeFault_err] at herr
    cases herr

/-- UNPACK of a stream that PACK padded: the padding is no whole byte, so the scan does not see it. -/
theorem exec_unpack_pad6 {rs : List Run} (he : t.engine = .idle) (hcap : t.bbuf.length ≤ t.cfg.bbufCap.toNat)
    (hrs : ∀ r ∈ rs, r.legal = true) (hb : t.bbuf = pad6 (streamBits rs))
    (hfit : (streamValues rs).length ≤ t.cfg.vbufCap.toNat) :
    exec .unpack t = .next (complete { t with vbuf := streamValues rs }) := by
  obtain ⟨tail, htail, hpad⟩ := pad6_eq_append (streamBits rs)
  obtain ⟨hcomplete, -⟩ := unpackDecodesEveryStreamOfTheGrammar t rs tail he hcap hrs htail (hb.trans hpad)
  exact hcomplete hfit

/-- Settles O37: PACK's output is the padded stream of `packedRuns`, whose values are as many as the text has tokens. -/
theorem unpackOfPackGivesTheNumbersBack : Obligations.UnpackOfPackGivesTheNumbersBack := by
  intro s t he hcaps h herr
  obtain ⟨⟨hlen, -⟩, order, horder, hcap, rfl⟩ := exec_pack_eq_complete he h herr
  have hmem := (perm_dedup_iff.mp horder).2
  have hperm := groupedValues_perm horder
  have hvalues := streamValues_packedRuns hlen fun k hk => (hmem k).mp hk
  have hfit : (groupedValues (textKeys s.cfg s.ibuf) order).length ≤ s.cfg.vbufCap.toNat := by
    rw [hperm.length_eq, List.length_map]
    exact hlen.trans hcaps
  refine ⟨_, order, horder, rfl, exec_unpack_pad6 rfl hcap (packedRuns_legal _ order) ?_ ?_, rfl, hvalues, ?_⟩
  · rw [streamBits_packedRuns]
    rfl
  · rw [hvalues]
    exact hfit
  · rw [complete_vbuf, hvalues]
    exact hperm

end Sys2Proof.Machine
end

section
/-! SUPPORT. TDEC's loop over a string: the six bits of every symbol, up to the first one outside the alphabet (R162, R165,
R167); symbols and bits determine each other (R166). -/

namespace Sys2Proof.Machine

variable {s : State} {text before after : List Symbol} {x : Symbol}

/-! The bits of a string of symbols. -/

/-- The six bits of every symbol, in index order (R162). -/
def bitsOfSymbols (text : List Symbol) : List Bool := (text.map (fun c => binNat 6 (c.toNat - 32))).flatten

@[simp] theorem bitsOfSymbols_nil : bitsOfSymbols [] = [] := rfl

theorem bitsOfSymbols_cons (g : BitVec 6) (text : List Symbol) :
    bitsOfSymbols (symbolOf g :: text) = bin g ++ bitsOfSymbols text := by
  have hgroup : (symbolOf g).toNat - 32 = g.toNat := by rw [toNat_symbolOf, Nat.add_sub_cancel_left]
  exact congrArg (fun n => binNat 6 n ++ bitsOfSymbols text) hgroup

@[simp] theorem length_bitsOfSymbols (text : List Symbol) : (bitsOfSymbols text).length = 6 * text.length := by
  induction text with
  | nil => rfl
  | cons x text ih =>
    change (binNat 6 (x.toNat - 32) ++ bitsOfSymbols text).length = _
    rw [List.length_append, length_binNat, ih, List.length_cons]
    omega

theorem symbolOf_inAlphabet (g : BitVec 6) : inAlphabet (symbolOf g) := by
  have hg := g.isLt
  rw [inAlphabet, toNat_symbolOf]
  omega

theorem symbolsOfBits_inAlphabet (b : List Bool) : ∀ c ∈ symbolsOfBits b, inAlphabet c :=
  fun c hc => symbolsOfBits_range b c hc

theorem bitsOfSymbols_symbolsOfBits {b : List Bool} (h6 : b.length % 6 = 0) : bitsOfSymbols (symbolsOfBits b) = b := by
  induction hn : b.length / 6 generalizing b with
  | zero =>
    obtain rfl : b = [] := List.eq_nil_of_length_eq_zero (by omega)
    rfl
  | succ n ih =>
    have hlen : (b.drop 6).length = b.length - 6 := List.length_drop
    rw [symbolsOfBits_long (by omega), bitsOfSymbols_cons, ih (by omega) (by omega), bin_memRead (by omega),
      List.take_append_drop]

theorem symbolsOfBits_bitsOfSymbols (h : ∀ c ∈ text, inAlphabet c) : symbolsOfBits (bitsOfSymbols text) = text := by
  induction text with
  | nil => rfl
  | cons x text ih =>
    obtain ⟨hx, htext⟩ := List.forall_mem_cons.mp h
    obtain ⟨g, rfl⟩ := exists_symbolOf_eq hx
    have hlen := length_bin g
    rw [bitsOfSymbols_cons, symbolsOfBits_long (by rw [List.length_append]; omega), memRead_append _ _ _ _ hlen.ge, memRead_bin,
      List.drop_left' hlen, ih htext]

/-! One symbol. -/

/-- A symbol of the alphabet runs as the row of its group, SYM_LO or SYM_HI (R162). -/
theorem nextSymbol_symbolOf (g : BitVec 6) (s : State) : nextSymbol (symbolOf g) s = symbolField g s := by
  rw [nextSymbol, decodeSymbol_symbolOf]
  by_cases hg : g < 32#6
  · rw [if_pos hg]
    rfl
  · rw [if_neg hg]
    rfl

theorem nextSymbol_illegal (h : ¬ inAlphabet x) (s : State) : nextSymbol x s = .error (.invalidBase64Character x) := by
  obtain ⟨-, hillegal⟩ := symbolDecodesExactlyInsideTheAlphabet x
  rw [nextSymbol, hillegal h]
  rfl

/-! The loop. -/

/-- The state after the symbols of a string over the alphabet. -/
def afterSymbols (text : List Symbol) (s : State) : State :=
  { s with idx := s.idx + BitVec.ofNat 32 text.length, bbuf := s.bbuf ++ bitsOfSymbols text }

theorem afterSymbols_nil (s : State) : afterSymbols [] s = s := by simp [afterSymbols]

theorem afterSymbols_cons (g : BitVec 6) (text : List Symbol) (s : State) :
    afterSymbols (symbolOf g :: text) s = afterSymbols text (afterSymbol g s) := by
  have hidx : s.idx + BitVec.ofNat 32 (text.length + 1) = s.idx + 1 + BitVec.ofNat 32 text.length := by
    rw [Nat.add_comm, BitVec.ofNat_add, ← BitVec.add_assoc]
    rfl
  simp only [afterSymbols, afterSymbol, bitsOfSymbols_cons, List.length_cons, List.append_assoc, hidx]

theorem symbolLoop_append (xs ys : List Symbol) (s : State) :
    symbolLoop (xs ++ ys) s = andThen (symbolLoop xs s) (symbolLoop ys) := by
  induction xs generalizing s with
  | nil => rfl
  | cons x xs ih =>
    rw [List.cons_append, symbolLoop, symbolLoop]
    cases nextSymbol x s with
    | ok t => exact ih t
    | error f => rfl

theorem symbolLoop_inAlphabet (h : ∀ c ∈ text, inAlphabet c)
    (hroom : s.bbuf.length + 6 * text.length ≤ s.cfg.bbufCap.toNat) : symbolLoop text s = .ok (afterSymbols text s) := by
  induction text generalizing s with
  | nil => exact congrArg _ (afterSymbols_nil s).symm
  | cons x text ih =>
    obtain ⟨hx, htext⟩ := List.forall_mem_cons.mp h
    obtain ⟨g, rfl⟩ := exists_symbolOf_eq hx
    rw [List.length_cons] at hroom
    rw [symbolLoop, nextSymbol_symbolOf, symbolField_fits (by omega), andThen_ok, afterSymbols_cons]
    refine ih htext ?_
    simp only [afterSymbol, List.length_append, length_bin]
    omega

/-- The first symbol outside the alphabet ends the loop, whatever comes after it (R165). -/
theorem symbolLoop_illegal (hbefore : ∀ c ∈ before, inAlphabet c) (hx : ¬ inAlphabet x) (after : List Symbol)
    (hroom : s.bbuf.length + 6 * before.length ≤ s.cfg.bbufCap.toNat) :
    symbolLoop (before ++ x :: after) s = .error (.invalidBase64Character x) := by
  rw [symbolLoop_append, symbolLoop_inAlphabet hbefore hroom, andThen_ok, symbolLoop, nextSymbol_illegal hx, andThen_error]

/-! The stages of TDEC and TENC. -/

/-- The start of the loop for command `c` (R162). -/
def beginSymbols (c : Command) (s : State) : State := { s with idx := 0, engine := .symbols c }

theorem tdecStage_full (c : Command) (h : s.cfg.bbufCap.toNat < 6 * s.ibuf.length) :
    tdecStage c s = .error .capacityExceeded := if_pos h

theorem tdecStage_room (c : Command) (h : 6 * s.ibuf.length ≤ s.cfg.bbufCap.toNat) :
    tdecStage c s = symbolLoop s.ibuf (beginSymbols c s) := if_neg (Nat.not_lt.mpr h)

/-- The capacity test leaves room for the bits of any front of IBUF (R167). -/
theorem beginSymbols_room (c : Command) (hb : s.bbuf = []) (hroom : 6 * s.ibuf.length ≤ s.cfg.bbufCap.toNat) {n : Nat}
    (hn : n ≤ s.ibuf.length) : (beginSymbols c s).bbuf.length + 6 * n ≤ (beginSymbols c s).cfg.bbufCap.toNat := by
  simp only [beginSymbols, hb, List.length_nil]
  omega

theorem tdecStage_inAlphabet (c : Command) (hb : s.bbuf = []) (hroom : 6 * s.ibuf.length ≤ s.cfg.bbufCap.toNat)
    (h : ∀ x ∈ s.ibuf, inAlphabet x) : tdecStage c s = .ok (afterSymbols s.ibuf (beginSymbols c s)) := by
  rw [tdecStage_room c hroom, symbolLoop_inAlphabet h (beginSymbols_room c hb hroom le_rfl)]

theorem tdecStage_illegal (c : Command) (hb : s.bbuf = []) (hroom : 6 * s.ibuf.length ≤ s.cfg.bbufCap.toNat)
    (hi : s.ibuf = before ++ x :: after) (hbefore : ∀ y ∈ before, inAlphabet y) (hx : ¬ inAlphabet x) :
    tdecStage c s = .error (.invalidBase64Character x) := by
  have hlen : before.length ≤ s.ibuf.length := by
    rw [hi, List.length_append]
    exact Nat.le_add_right _ _
  have hfront := beginSymbols_room c hb hroom hlen
  rw [tdecStage_room c hroom, hi, symbolLoop_illegal hbefore hx after hfront]

theorem tencStage_full (h6 : s.bbuf.length % 6 = 0) (h : s.cfg.obufCap.toNat < s.bbuf.length / 6) :
    tencStage s = .error .capacityExceeded := by
  rw [tencStage, if_neg (not_not.mpr h6), putText_full (by rwa [length_symbolsOfBits])]

theorem tencStage_ragged (h6 : s.bbuf.length % 6 ≠ 0) : tencStage s = .error .contractViolation := if_pos h6

/-! The commands. -/

theorem exec_tenc (he : s.engine = .idle) : exec .tenc s = .next (frame .tenc tencStage s) :=
  exec_framed (c := .tenc) ⟨nofun, nofun⟩ he

theorem exec_tdec (he : s.engine = .idle) : exec .tdec s = .next (frame .tdec (tdecStage .tdec) s) :=
  exec_framed (c := .tdec) ⟨nofun, nofun⟩ he

theorem exec_tenc_fits (he : s.engine = .idle) (h6 : s.bbuf.length % 6 = 0)
    (h : s.bbuf.length / 6 ≤ s.cfg.obufCap.toNat) :
    exec .tenc s = .next (complete { s with obuf := symbolsOfBits s.bbuf }) := by
  rw [exec_tenc he, frame_ok (tencStage_fits (s := clearOutputs .tenc s) h6 h)]
  rfl

theorem exec_tdec_inAlphabet (he : s.engine = .idle) (hroom : 6 * s.ibuf.length ≤ s.cfg.bbufCap.toNat)
    (h : ∀ c ∈ s.ibuf, inAlphabet c) :
    exec .tdec s = .next (complete { s with bbuf := bitsOfSymbols s.ibuf, bstage := [] }) := by
  rw [exec_tdec he, frame_ok (tdecStage_inAlphabet (s := clearOutputs .tdec s) .tdec rfl hroom h)]
  rfl

/-- Settles O24: one symbol a group where they fit, and the length is checked before the capacity. -/
theorem tencWritesOneSymbolPerGroup : Obligations.TencWritesOneSymbolPerGroup := by
  refine fun s he => ⟨fun h6 hfits => ?_, fun h6 hfull => ?_, fun h6 => ?_⟩
  · exact ⟨_, exec_tenc_fits he h6 hfits, length_symbolsOfBits _, fun g hg => getElem?_symbolsOfBits _ hg⟩
  · rw [exec_tenc he, frame_error (tencStage_full (s := clearOutputs .tenc s) h6 hfull)]
  · rw [exec_tenc he, frame_error (tencStage_ragged (s := clearOutputs .tenc s) h6)]

/-- Settles O25: the loop over a string of the alphabet, the loop up to the first offender, and the test before the loop. -/
theorem tdecWritesSixBitsPerSymbol : Obligations.TdecWritesSixBitsPerSymbol := by
  refine fun s he => ⟨exec_tdec_inAlphabet he, fun before after c hroom hi hbefore hc => ?_, fun hfull => ?_⟩
  · rw [exec_tdec he, frame_error (tdecStage_illegal (s := clearOutputs .tdec s) .tdec rfl hroom hi hbefore hc)]
  · rw [exec_tdec he, frame_error (tdecStage_full (s := clearOutputs .tdec s) .tdec hfull)]

/-- Settles O26: `symbolsOfBits` and `bitsOfSymbols` undo each other, and both commands have room. -/
theorem transcoderIsABijection : Obligations.TranscoderIsABijection := by
  refine ⟨fun s he h6 hobuf hbbuf => ?_, fun s he halphabet hbbuf hobuf => ?_⟩
  · have hlen := length_symbolsOfBits s.bbuf
    have hroom : 6 * (symbolsOfBits s.bbuf).length ≤ s.cfg.bbufCap.toNat := by omega
    exact ⟨_, _, exec_tenc_fits he h6 hobuf, hlen, symbolsOfBits_inAlphabet _,
      exec_tdec_inAlphabet rfl hroom (symbolsOfBits_inAlphabet _), rfl, bitsOfSymbols_symbolsOfBits h6⟩
  · have hlen := length_bitsOfSymbols s.ibuf
    have h6 : (bitsOfSymbols s.ibuf).length % 6 = 0 := by omega
    have hfits : (bitsOfSymbols s.ibuf).length / 6 ≤ s.cfg.obufCap.toNat := by omega
    exact ⟨_, _, exec_tdec_inAlphabet he hbbuf halphabet, hlen, exec_tenc_fits rfl h6 hfits, rfl,
      symbolsOfBits_bitsOfSymbols halphabet⟩

end Sys2Proof.Machine
end

section
/-! SUPPORT. REVERT, stage by stage: TDEC's fault comes before anything the later stages could find, and a stream goes through
all three (R188). -/

namespace Sys2Proof.Machine

variable {s t : State} {rs : List Run} {tail : List Bool}

theorem exec_revert (he : s.engine = .idle) : exec .revert s = .next (frame .revert revertStage s) :=
  exec_framed (c := .revert) ⟨nofun, nofun⟩ he

/-- Settles O42: TDEC is REVERT's first stage, so the symbol that ends its loop ends the command. -/
theorem revertReportsAnIllegalSymbolFirst : Obligations.RevertReportsAnIllegalSymbolFirst := by
  intro s before after c he hroom hi hbefore hc
  have htdec := tdecStage_illegal (s := clearOutputs .revert s) .revert rfl hroom hi hbefore hc
  have hstage : revertStage (clearOutputs .revert s) = .error (.invalidBase64Character c) := by
    rw [revertStage, htdec, andThen_error]
  rw [exec_revert he, frame_error hstage]

/-- A stream shorter than a byte has no run. -/
theorem eq_nil_of_streamBits_short (hrs : ∀ r ∈ rs, r.legal = true) (h : (streamBits rs).length < 8) : rs = [] := by
  have := length_streamBits hrs
  exact List.eq_nil_of_length_eq_zero (by omega)

/-- UNPACK as a stage, over a stream whose values fit: of what it writes only VBUF outlives the command (R20, R141 to R149). -/
theorem unpackStage_stream (c : Command) (hrs : ∀ r ∈ rs, r.legal = true) (htail : tail.length < 8)
    (hb : s.bbuf = streamBits rs ++ tail) (hcap : s.bbuf.length ≤ s.cfg.bbufCap.toNat) (hv : s.vbuf = [])
    (hfit : (streamValues rs).length ≤ s.cfg.vbufCap.toNat) :
    ∃ t, unpackStage c s = .ok t ∧ park t = park { s with vbuf := streamValues rs } := by
  have hlen : s.bbuf.length = (streamBits rs).length + tail.length := by rw [hb, List.length_append]
  obtain ⟨hcount, hbytes⟩ := length_streamBits hrs
  by_cases hshort : s.bbuf.length < 8
  · obtain rfl := eq_nil_of_streamBits_short hrs (by omega)
    have hsame : { s with vbuf := streamValues [] } = s := congrArg (fun vs => { s with vbuf := vs }) hv.symm
    exact ⟨s, if_pos hshort, congrArg park hsame.symm⟩
  · obtain ⟨n, hn⟩ : ∃ n, s.bbuf.length = rs.length + n := Nat.exists_eq_add_of_le (by omega)
    have hstart : ScanAt c .S (streamBits rs ++ []) (beginScan c s) := by
      rw [List.append_nil]
      exact scanAt_beginScan c hb hbytes htail hcap (by simp [hv])
    obtain ⟨-, hend, hscan⟩ | ⟨hfull, -⟩ := hstart.scanLoop_runs hrs n
    · refine ⟨afterRuns c rs (beginScan c s), ?_, ?_⟩
      · rw [unpackStage, if_neg hshort, hn, hscan, hend.scanLoop_end]
      · rw [park_afterRuns, afterRuns_vbuf hrs, beginScan_vbuf, hv]
        rfl
    · rw [beginScan_vbuf, hv, List.length_nil, Nat.zero_add] at hfull
      exact absurd hfit (Nat.not_le.mpr hfull)

theorem joinStage_fits (h : (joinText s.vbuf).length ≤ s.cfg.obufCap.toNat) :
    joinStage s = .ok { s with obuf := joinText s.vbuf } := putText_fits h

/-- The end of a command sees no transient (R20). -/
theorem complete_putText_of_park_eq (hpark : park t = park s) (text : List Symbol) :
    complete { t with obuf := text } = complete { s with obuf := text } := by
  have hdone := congrArg (fun p => setSuccess { p with obuf := text }) hpark
  exact hdone

/-- JOIN and the end of the command after it see no transient (R20). -/
theorem joinStage_of_park_eq (hpark : park t = park s) (h : (joinText s.vbuf).length ≤ s.cfg.obufCap.toNat) :
    ∃ u, joinStage t = .ok u ∧ complete u = complete { s with obuf := joinText s.vbuf } := by
  have hvbuf : t.vbuf = s.vbuf := by simpa using congrArg State.vbuf hpark
  have hcfg : t.cfg = s.cfg := by simpa using congrArg State.cfg hpark
  refine ⟨_, joinStage_fits (by rwa [hvbuf, hcfg]), (complete_putText_of_park_eq hpark _).trans ?_⟩
  rw [hvbuf]

/-- Settles O40: TDEC gives the stream's bits, UNPACK its values, and JOIN their text. -/
theorem revertCompletesOnAStream : Obligations.RevertCompletesOnAStream := by
  intro s rs tail he halphabet hroom hrs htail hbits hvalues htext
  have hbbuf : bitsOfSymbols s.ibuf = streamBits rs ++ tail := hbits
  have hcap : (bitsOfSymbols s.ibuf).length ≤ s.cfg.bbufCap.toNat := (length_bitsOfSymbols s.ibuf).trans_le hroom
  have htdec : tdecStage .revert (clearOutputs .revert s) =
      .ok (afterSymbols s.ibuf (beginSymbols .revert (clearOutputs .revert s))) :=
    tdecStage_inAlphabet (s := clearOutputs .revert s) .revert rfl hroom halphabet
  obtain ⟨t, hunpack, hpark⟩ := unpackStage_stream .revert
    (s := afterSymbols s.ibuf (beginSymbols .revert (clearOutputs .revert s))) hrs htail hbbuf hcap rfl hvalues
  obtain ⟨u, hjoin, hcomplete⟩ := joinStage_of_park_eq hpark htext
  have hstage : revertStage (clearOutputs .revert s) = .ok u := by
    rw [revertStage, htdec, andThen_ok, hunpack, andThen_ok, hjoin]
  rw [exec_revert he, frame_ok hstage, hcomplete, ← hbbuf]
  rfl

end Sys2Proof.Machine
end

section
/-! SUPPORT. JOIN: the numeral of one value, and the text of a list of values (R189). -/

namespace Sys2Proof.Machine

variable {n v : Nat}

/-! One numeral, digit by digit. -/

theorem digits_of_lt_ten (n : Nat) (h : v < 10) : digits (n + 1) v = [BitVec.ofNat 21 (48 + v)] := if_pos h

theorem digits_of_ten_le (n : Nat) (h : 10 ≤ v) :
    digits (n + 1) v = digits n (v / 10) ++ [BitVec.ofNat 21 (48 + v % 10)] := if_neg (Nat.not_lt.mpr h)

theorem toNat_digit {d : Nat} (h : d < 10) : (BitVec.ofNat 21 (48 + d)).toNat = 48 + d := by
  rw [BitVec.toNat_ofNat]
  omega

theorem decimalValue_concat (k : Key) (x : Symbol) : decimalValue (k ++ [x]) = 10 * decimalValue k + (x.toNat - 48) :=
  List.foldl_append

theorem digits_isDigit (n v : Nat) : ∀ x ∈ digits n v, 48 ≤ x.toNat ∧ x.toNat ≤ 57 := by
  have hdigit {d : Nat} (h : d < 10) : ∀ x ∈ [BitVec.ofNat 21 (48 + d)], 48 ≤ x.toNat ∧ x.toNat ≤ 57 := by
    rw [List.forall_mem_singleton, toNat_digit h]
    omega
  induction n generalizing v with
  | zero => exact nofun
  | succ n ih =>
    obtain hv | hv := Nat.lt_or_ge v 10
    · rw [digits_of_lt_ten n hv]
      exact hdigit hv
    · rw [digits_of_ten_le n hv]
      exact List.forall_mem_append.mpr ⟨ih _, hdigit (Nat.mod_lt _ (by decide))⟩

theorem decimalValue_digits (h : v < 10 ^ n) : decimalValue (digits n v) = v := by
  induction n generalizing v with
  | zero => exact (Nat.lt_one_iff.mp h).symm
  | succ n ih =>
    obtain hv | hv := Nat.lt_or_ge v 10
    · rw [digits_of_lt_ten n hv, ← List.nil_append [_], decimalValue_concat, toNat_digit hv]
      exact (Nat.zero_add _).trans (Nat.add_sub_cancel_left 48 v)
    · rw [digits_of_ten_le n hv, decimalValue_concat, ih (by omega), toNat_digit (by omega)]
      omega

theorem length_digits_le (n v : Nat) : (digits n v).length ≤ n := by
  induction n generalizing v with
  | zero => exact le_rfl
  | succ n ih =>
    obtain hv | hv := Nat.lt_or_ge v 10
    · rw [digits_of_lt_ten n hv]
      exact Nat.succ_le_succ (Nat.zero_le n)
    · rw [digits_of_ten_le n hv, List.length_append]
      exact Nat.succ_le_succ (ih _)

/-- The numeral of a number above 0 begins with a digit above 0, and there is one. -/
theorem exists_digits_eq_cons (hpos : 0 < v) (h : v < 10 ^ n) : ∃ x xs, digits n v = x :: xs ∧ x ≠ 48#21 := by
  induction n generalizing v with
  | zero => omega
  | succ n ih =>
    obtain hv | hv := Nat.lt_or_ge v 10
    · refine ⟨_, [], digits_of_lt_ten n hv, fun hzero => ?_⟩
      have hnum : 48 + v = 48 := (toNat_digit hv).symm.trans (congrArg BitVec.toNat hzero)
      omega
    · obtain ⟨x, xs, hfront, hx⟩ := ih (v := v / 10) (by omega) (by omega)
      exact ⟨x, xs ++ _, by rw [digits_of_ten_le n hv, hfront, List.cons_append], hx⟩

theorem toNat_lt_five_digits (v : Val) : v.toNat < 10 ^ 5 := v.isLt.trans (by decide)

theorem decimal_zero : decimal 0 = [48#21] := rfl

/-- Only the numeral of 0 begins with a 0, and no numeral is empty. -/
theorem decimal_cases (v : Val) : decimal v = [48#21] ∨ ∃ x xs, decimal v = x :: xs ∧ x ≠ 48#21 := by
  by_cases hv : v = 0
  · rw [hv]
    exact .inl decimal_zero
  · have hpos : 0 < v.toNat := Nat.pos_of_ne_zero fun hzero => hv (BitVec.eq_of_toNat_eq hzero)
    exact .inr (exists_digits_eq_cons hpos (toNat_lt_five_digits v))

theorem decimal_ne_nil (v : Val) : decimal v ≠ [] := by
  obtain hzero | ⟨x, xs, hcons, -⟩ := decimal_cases v
  · rw [hzero]
    exact List.cons_ne_nil _ _
  · rw [hcons]
    exact List.cons_ne_nil _ _

theorem decimal_eq_zero_of_head? {v : Val} (h : (decimal v).head? = some 48#21) : decimal v = [48#21] := by
  obtain hzero | ⟨x, xs, hcons, hx⟩ := decimal_cases v
  · exact hzero
  · rw [hcons] at h
    exact absurd (Option.some.inj h) hx

/-! The text of a list. -/

theorem joinText_eq_intercalate (vs : List Val) : joinText vs = List.intercalate [comma] (vs.map decimal) := by
  induction vs using joinText.induct with
  | case1 => rfl
  | case2 v => exact List.intercalate_singleton.symm
  | case3 v w rest ih =>
    rw [joinText, ih]
    exact (List.append_cons _ _ _).trans List.intercalate_cons_cons.symm

theorem joinStage_full {s : State} (h : s.cfg.obufCap.toNat < (joinText s.vbuf).length) :
    joinStage s = .error .capacityExceeded := putText_full h

/-- Settles O43: a value has at most five digits, so its numeral is complete. -/
theorem joinWritesShortestDecimals : Obligations.JoinWritesShortestDecimals :=
  ⟨rfl, fun vs _ => joinText_eq_intercalate vs,
    fun v => ⟨digits_isDigit 5 _, decimalValue_digits (toNat_lt_five_digits v), List.length_pos_of_ne_nil (decimal_ne_nil v),
      length_digits_le 5 _, decimal_eq_zero_of_head?⟩,
    fun _ => ⟨joinStage_fits, joinStage_full⟩⟩

end Sys2Proof.Machine
end

section
/-! SUPPORT. The frame of the commands: what every stage keeps, and the state at the end of a command (R180, R181, R192). -/

namespace Sys2Proof.Machine

variable {bs cs : List Buffer} {s t u : State}

/-- `t` has the buffers outside `bs`, the staged entries and the parameters of `s`; of the status and the transients it says
nothing. -/
structure Keeps (bs : List Buffer) (s t : State) : Prop where
  ibuf : .ibuf ∉ bs → t.ibuf = s.ibuf
  bbuf : .bbuf ∉ bs → t.bbuf = s.bbuf
  vbuf : .vbuf ∉ bs → t.vbuf = s.vbuf
  obuf : .obuf ∉ bs → t.obuf = s.obuf
  istage : t.istage = s.istage
  bstage : t.bstage = s.bstage
  cfg : t.cfg = s.cfg
  draws : t.draws = s.draws
  host : t.host = s.host

theorem Keeps.refl (bs : List Buffer) (s : State) : Keeps bs s s :=
  ⟨fun _ => rfl, fun _ => rfl, fun _ => rfl, fun _ => rfl, rfl, rfl, rfl, rfl, rfl⟩

theorem Keeps.trans (h : Keeps bs s t) (h' : Keeps bs t u) : Keeps bs s u where
  ibuf hb := (h'.ibuf hb).trans (h.ibuf hb)
  bbuf hb := (h'.bbuf hb).trans (h.bbuf hb)
  vbuf hb := (h'.vbuf hb).trans (h.vbuf hb)
  obuf hb := (h'.obuf hb).trans (h.obuf hb)
  istage := h'.istage.trans h.istage
  bstage := h'.bstage.trans h.bstage
  cfg := h'.cfg.trans h.cfg
  draws := h'.draws.trans h.draws
  host := h'.host.trans h.host

theorem Keeps.mono (h : Keeps bs s t) (hsub : bs ⊆ cs) : Keeps cs s t where
  ibuf hb := h.ibuf fun hmem => hb (hsub hmem)
  bbuf hb := h.bbuf fun hmem => hb (hsub hmem)
  vbuf hb := h.vbuf fun hmem => hb (hsub hmem)
  obuf hb := h.obuf fun hmem => hb (hsub hmem)
  istage := h.istage
  bstage := h.bstage
  cfg := h.cfg
  draws := h.draws
  host := h.host

theorem Keeps.readBuf (h : Keeps bs s t) {b : Buffer} (hb : b ∉ bs) (k : Nat) : readBuf b k t = readBuf b k s := by
  cases b with
  | ibuf => simp only [Machine.readBuf, h.ibuf hb]
  | bbuf => simp only [Machine.readBuf, h.bbuf hb]
  | vbuf => simp only [Machine.readBuf, h.vbuf hb]
  | obuf => simp only [Machine.readBuf, h.obuf hb]

/-! What one stage writes. -/

theorem keeps_bbuf (s : State) (b : List Bool) : Keeps [.bbuf] s { s with bbuf := b } where
  __ := Keeps.refl [.bbuf] s
  bbuf hb := absurd (List.mem_singleton_self _) hb

theorem keeps_vbuf (s : State) (vs : List Val) : Keeps [.vbuf] s { s with vbuf := vs } where
  __ := Keeps.refl [.vbuf] s
  vbuf hb := absurd (List.mem_singleton_self _) hb

theorem keeps_obuf (s : State) (text : List Symbol) : Keeps [.obuf] s { s with obuf := text } where
  __ := Keeps.refl [.obuf] s
  obuf hb := absurd (List.mem_singleton_self _) hb

theorem putBits_keeps {b : List Bool} (h : putBits b s = .ok t) : Keeps [.bbuf] s t := by
  unfold putBits at h
  split at h
  · cases h
    exact keeps_bbuf s b
  · cases h

theorem putText_keeps {text : List Symbol} (h : putText text s = .ok t) : Keeps [.obuf] s t := by
  unfold putText at h
  split at h
  · cases h
    exact keeps_obuf s text
  · cases h

theorem packStage_keeps {n : Nat} (h : packStage n s = .ok t) : Keeps [.bbuf] s t := by
  unfold packStage at h
  split at h
  · cases h
    exact .refl _ _
  · split at h
    · cases h
    · dsimp only at h
      split at h
      · cases h
      · exact { putBits_keeps h with }

theorem tencStage_keeps (h : tencStage s = .ok t) : Keeps [.obuf] s t := by
  unfold tencStage at h
  split at h
  · cases h
  · exact putText_keeps h

theorem joinStage_keeps (h : joinStage s = .ok t) : Keeps [.obuf] s t := putText_keeps h

/-! TDEC's loop: where it ends well, every symbol was one of the alphabet. -/

theorem nextSymbol_eq_ok {x : Symbol} (h : nextSymbol x s = .ok t) : ∃ g, x = symbolOf g ∧ t = afterSymbol g s := by
  by_cases hx : inAlphabet x
  · obtain ⟨g, rfl⟩ := exists_symbolOf_eq hx
    rw [nextSymbol_symbolOf] at h
    exact ⟨g, rfl, (appendBits_eq_ok h).2⟩
  · rw [nextSymbol_illegal hx] at h
    cases h

theorem symbolLoop_eq_ok {text : List Symbol} (h : symbolLoop text s = .ok t) : t = afterSymbols text s := by
  induction text generalizing s with
  | nil =>
    cases h
    exact (afterSymbols_nil _).symm
  | cons x text ih =>
    obtain ⟨u, hx, htext⟩ := andThen_eq_ok h
    obtain ⟨g, rfl, rfl⟩ := nextSymbol_eq_ok hx
    rw [afterSymbols_cons]
    exact ih htext

theorem tdecStage_eq_ok {c : Command} (h : tdecStage c s = .ok t) :
    6 * s.ibuf.length ≤ s.cfg.bbufCap.toNat ∧ t = afterSymbols s.ibuf (beginSymbols c s) := by
  by_cases hroom : 6 * s.ibuf.length ≤ s.cfg.bbufCap.toNat
  · rw [tdecStage_room c hroom] at h
    exact ⟨hroom, symbolLoop_eq_ok h⟩
  · rw [tdecStage_full c (Nat.not_le.mp hroom)] at h
    cases h

theorem tdecStage_keeps {c : Command} (h : tdecStage c s = .ok t) : Keeps [.bbuf] s t := by
  obtain ⟨-, rfl⟩ := tdecStage_eq_ok h
  exact { keeps_bbuf s _ with }

/-! UNPACK's scan. -/

theorem runField_keeps {c : Command} {p : Position} {i : Instr} (hi : isValueField i = true ∨ isCountField i = true)
    (hp : i.recognisedAt p = true) (h : runField c p i s = .ok t) : Keeps [.vbuf] s t := by
  obtain hv | hc := hi
  · rw [runField_value_eq_ok hv hp h]
    exact { keeps_vbuf s _ with }
  · rw [runField_count_eq_ok hc h]
    exact { Keeps.refl _ s with }

theorem nextField_keeps (h : nextField s = .ok t) : Keeps [.vbuf] s t := by
  cases he : s.engine with
  | idle =>
    simp only [nextField, he] at h
    cases h
    exact .refl _ _
  | symbols c =>
    simp only [nextField, he] at h
    cases h
    exact .refl _ _
  | fields c p =>
    cases hf : fetchField p s with
    | ok i =>
      rw [nextField_ok he hf] at h
      exact runField_keeps (field_of_decodeField hf).1 (recognisedAt_of_decodeField hf) h
    | error e =>
      rw [nextField_error he hf] at h
      cases h

theorem decRun_keeps (h : decRun s = .ok t) : Keeps [.vbuf] s t := by
  obtain ⟨u, hfirst, hrest⟩ := andThen_eq_ok h
  split at hrest
  · exact (nextField_keeps hfirst).trans (nextField_keeps hrest)
  · cases hrest
    exact nextField_keeps hfirst

theorem scanLoop_keeps {n : Nat} (h : scanLoop n s = .ok t) : Keeps [.vbuf] s t := by
  induction n generalizing s with
  | zero =>
    cases h
    exact .refl _ _
  | succ n ih =>
    unfold scanLoop at h
    split at h
    · obtain ⟨u, hrun, hrest⟩ := andThen_eq_ok h
      exact (decRun_keeps hrun).trans (ih hrest)
    · cases h
      exact .refl _ _

theorem unpackStage_keeps {c : Command} (h : unpackStage c s = .ok t) : Keeps [.vbuf] s t := by
  unfold unpackStage at h
  split at h
  · cases h
    exact .refl _ _
  · exact { scanLoop_keeps h with }

/-! The commands. -/

/-- The stages of a framed command write the buffers of R192 and no other. -/
theorem commandStage_keeps (c : Command) {n : Nat} (h : commandStage n c s = .ok t) : Keeps (writes c) s t := by
  cases c with
  | nop =>
    cases h
    exact .refl _ _
  | clear =>
    cases h
    exact .refl _ _
  | pack => exact packStage_keeps h
  | unpack => exact unpackStage_keeps h
  | tenc => exact tencStage_keeps h
  | tdec => exact tdecStage_keeps h
  | densify =>
    obtain ⟨u, hpack, htenc⟩ := andThen_eq_ok h
    exact ((packStage_keeps hpack).mono (by decide)).trans ((tencStage_keeps htenc).mono (by decide))
  | revert =>
    obtain ⟨u, htdec, hrest⟩ := andThen_eq_ok h
    obtain ⟨v, hunpack, hjoin⟩ := andThen_eq_ok hrest
    exact ((tdecStage_keeps htdec).mono (by decide)).trans
      (((unpackStage_keeps hunpack).mono (by decide)).trans ((joinStage_keeps hjoin).mono (by decide)))

/-- The end of a command writes the status and the transients only. -/
theorem complete_keeps (s : State) : Keeps bs s (complete s) := { Keeps.refl bs s with }

theorem frame_keeps {c : Command} {run : State → Except CodecFault State}
    (h : ∀ t, run (clearOutputs c s) = .ok t → Keeps (writes c) (clearOutputs c s) t) :
    Keeps (writes c) (clearOutputs c s) (frame c run s) := by
  obtain ⟨t, ht, hframe⟩ | ⟨f, -, hframe⟩ := frame_cases c run s
  · rw [hframe]
    exact (h t ht).trans (complete_keeps t)
  · rw [hframe]
    exact { Keeps.refl _ (clearOutputs c s) with }

/-- Before its frame a command draws a GROUP_ORDER at most. -/
theorem exists_commandStart_eq (c : Command) (s : State) : ∃ n, commandStart c s = { s with draws := n } := by
  cases c <;> exact ⟨_, rfl⟩

theorem readBuf_clearOutputs {c : Command} {b : Buffer} (hb : b ∉ writes c) (k : Nat) (s : State) :
    readBuf b k (clearOutputs c s) = readBuf b k s := by
  cases b <;> simp [readBuf, hb]

/-- DONE is set and the transients are at rest (R180; log 7). -/
structure AtRest (s : State) : Prop where
  done : s.done = true
  engine : s.engine = .idle
  tally : s.tally = []
  pos : s.pos = 0
  ltrunc : s.ltrunc = 0
  rcnt : s.rcnt = 0
  rval : s.rval = 0
  idx : s.idx = 0

theorem frame_atRest (c : Command) (run : State → Except CodecFault State) (s : State) : AtRest (frame c run s) := by
  obtain ⟨t, -, hframe⟩ | ⟨f, -, hframe⟩ := frame_cases c run s
  · rw [hframe]
    exact ⟨rfl, rfl, rfl, rfl, rfl, rfl, rfl, rfl⟩
  · rw [hframe]
    exact ⟨rfl, rfl, rfl, rfl, rfl, rfl, rfl, rfl⟩

/-- No framed command writes its input text (R192). -/
theorem ibuf_not_mem_writes {c : Command} (hc : framed c) : .ibuf ∉ writes c := by
  cases c
  case clear => exact absurd rfl hc.2
  all_goals decide

/-- Settles O46: the meaning of NOP is the state as it is. -/
theorem nopChangesNothing : Obligations.NopChangesNothing := fun _ => rfl

/-- A framed command begins with the buffers it writes emptied, keeps all others, and ends at rest. -/
theorem exec_keeps {c : Command} (hc : framed c) (he : s.engine = .idle) (h : exec (commandInstr c) s = .next t) :
    (∃ n, Keeps (writes c) (clearOutputs c { s with draws := n }) t) ∧ AtRest t := by
  rw [exec_framed hc he] at h
  cases h
  refine ⟨?_, frame_atRest _ _ _⟩
  obtain ⟨n, hstart⟩ := exists_commandStart_eq c s
  rw [hstart]
  exact ⟨n, frame_keeps fun _ => commandStage_keeps c⟩

/-- Settles O48: emptying the buffers that the command writes leaves the others alone too. -/
theorem commandLeavesTheOtherBuffers : Obligations.CommandLeavesTheOtherBuffers := by
  intro s t c hc he h
  obtain ⟨⟨n, hkeeps⟩, hrest⟩ := exec_keeps hc he h
  have hi := ibuf_not_mem_writes hc
  exact ⟨fun b hb k => (hkeeps.readBuf hb k).trans (readBuf_clearOutputs hb k _), (hkeeps.ibuf hi).trans (if_neg hi),
    hkeeps.istage.trans (if_neg hi), fun hb => hkeeps.bstage.trans (if_neg hb), hkeeps.cfg, hkeeps.host, hrest.done,
    hrest.engine, hrest.tally, hrest.pos, hrest.ltrunc, hrest.rcnt, hrest.rval, hrest.idx⟩

end Sys2Proof.Machine
end

section
/-! SUPPORT. A command that runs the stages of others, beside those others (R187, R188): what a command's end says of its stage,
and when two ways reach one state. -/

namespace Sys2Proof.Machine

variable {bs : List Buffer} {c : Command} {run : State → Except CodecFault State} {f : CodecFault} {s t t' : State}

/-! What a command's end says of its stage. -/

theorem frame_err_false (h : (frame c run s).err = false) :
    ∃ t, run (clearOutputs c s) = .ok t ∧ frame c run s = complete t := by
  obtain hok | ⟨f, -, hframe⟩ := frame_cases c run s
  · exact hok
  · rw [hframe] at h
    cases h

theorem frame_err_true (h : (frame c run s).err = true) : ∃ f, run (clearOutputs c s) = .error f := by
  obtain ⟨t, -, hframe⟩ | ⟨f, hf, -⟩ := frame_cases c run s
  · rw [hframe] at h
    cases h
  · exact ⟨f, hf⟩

theorem frame_eq_takeFault (h : frame c run s = takeFault c f s) : run (clearOutputs c s) = .error f := by
  obtain ⟨g, hg⟩ := frame_err_true (congrArg State.err h)
  rw [frame_error hg] at h
  rw [hg, takeFault_inj h]

/-! Two ways to one state. -/

theorem OutcomesAgree.of_ok {R : State → State → Prop} {r : Except CodecFault State} (h : OutcomesAgree R (.ok t) r) :
    ∃ t', r = .ok t' ∧ R t t' := by
  cases h with
  | ok h => exact ⟨_, rfl, h⟩

theorem OutcomesAgree.of_error {R : State → State → Prop} {r : Except CodecFault State}
    (h : OutcomesAgree R (.error f) r) : r = .error f := by
  cases h
  rfl

theorem Keeps.symm (h : Keeps bs s t) : Keeps bs t s where
  ibuf hb := (h.ibuf hb).symm
  bbuf hb := (h.bbuf hb).symm
  vbuf hb := (h.vbuf hb).symm
  obuf hb := (h.obuf hb).symm
  istage := h.istage.symm
  bstage := h.bstage.symm
  cfg := h.cfg.symm
  draws := h.draws.symm
  host := h.host.symm

/-- A command that writes BBUF finds nothing staged there after another that did. -/
theorem clearOutputs_keeps (hc : framed c) (hsub : writes c ⊆ bs) (hstage : .bbuf ∈ writes c → s.bstage = []) :
    Keeps bs s (clearOutputs c s) where
  __ := Keeps.refl bs s
  ibuf _ := if_neg (ibuf_not_mem_writes hc)
  bbuf hb := if_neg fun hw => hb (hsub hw)
  vbuf hb := if_neg fun hw => hb (hsub hw)
  obuf hb := if_neg fun hw => hb (hsub hw)
  istage := if_neg (ibuf_not_mem_writes hc)
  bstage := ite_eq_right_iff.mpr fun hw => (hstage hw).symm

/-- A command's end shows the buffers and nothing of the stages before it: where two ways keep the same buffers of one state and
agree on the others, they end alike. -/
theorem complete_eq_of_keeps (h : Keeps bs s t) (h' : Keeps bs s t') (ha : Agree bs t t') : complete t = complete t' := by
  have heq {α : Type} {b : Buffer} {x y z : α} (hin : b ∈ bs → x = y) (hx : b ∉ bs → x = z) (hy : b ∉ bs → y = z) :
      x = y := (em (b ∈ bs)).elim hin fun hb => (hx hb).trans (hy hb).symm
  have hibuf := heq ha.ibuf h.ibuf h'.ibuf
  have hbbuf := heq ha.bbuf h.bbuf h'.bbuf
  have hvbuf := heq ha.vbuf h.vbuf h'.vbuf
  have hobuf := heq ha.obuf h.obuf h'.obuf
  have histage := h.istage.trans h'.istage.symm
  have hbstage := h.bstage.trans h'.bstage.symm
  have hcfg := h.cfg.trans h'.cfg.symm
  have hdraws := h.draws.trans h'.draws.symm
  have hhost := h.host.trans h'.host.symm
  simp only [complete, setSuccess, park, hibuf, hbbuf, hvbuf, hobuf, histage, hbstage, hcfg, hdraws, hhost]

end Sys2Proof.Machine
end

section
/-! SUPPORT. DENSIFY beside PACK and TENC (R187). -/

namespace Sys2Proof.Machine

variable {n : Nat} {s t p q : State} {f : CodecFault}

theorem tencStage_eq_ok (h : tencStage s = .ok t) : t = { s with obuf := symbolsOfBits s.bbuf } := by
  unfold tencStage putText at h
  split at h
  · cases h
  · split at h
    · cases h
      rfl
    · cases h

/-- TENC of whole groups can fail for want of room only (R187). -/
theorem tencStage_eq_error (h6 : s.bbuf.length % 6 = 0) (h : tencStage s = .error f) : f = .capacityExceeded := by
  by_cases hfits : s.bbuf.length / 6 ≤ s.cfg.obufCap.toNat
  · rw [tencStage_fits h6 hfits] at h
    cases h
  · rw [tencStage_full h6 (Nat.not_le.mp hfits)] at h
    cases h
    rfl

/-- PACK's stage does not see that DENSIFY has emptied OBUF. -/
theorem packStage_densify (n : Nat) (s : State) : OutcomesAgree (Agree [.ibuf, .bbuf])
    (packStage n (clearOutputs .pack s)) (packStage n (clearOutputs .densify s)) :=
  packStage_agree n (by decide) ⟨rfl, fun _ => rfl, fun _ => rfl, fun _ => rfl, fun hb => absurd hb (by decide)⟩

theorem densifyStage_of_pack_error (h : packStage n (clearOutputs .pack s) = .error f) :
    densifyStage n (clearOutputs .densify s) = .error f := by
  have hagree := packStage_densify n s
  rw [h] at hagree
  rw [densifyStage, hagree.of_error, andThen_error]

/-- Where PACK succeeds, DENSIFY goes on as TENC does after it. -/
theorem densifyStage_of_pack_ok (h : packStage n (clearOutputs .pack s) = .ok p) : OutcomesAgree (Agree [.bbuf, .obuf])
    (tencStage (clearOutputs .tenc (complete p))) (densifyStage n (clearOutputs .densify s)) := by
  have hagree := packStage_densify n s
  rw [h] at hagree
  obtain ⟨p', hp', hbits⟩ := hagree.of_ok
  have hobuf : p'.obuf = [] := (packStage_keeps hp').obuf (by decide)
  rw [densifyStage, hp', andThen_ok]
  exact tencStage_agree (by decide) ⟨hbits.cfg, fun hb => absurd hb (by decide), fun _ => hbits.bbuf (by decide),
    fun hb => absurd hb (by decide), fun _ => hobuf.symm⟩

/-- PACK and TENC together leave everything outside DENSIFY's buffers as DENSIFY does. -/
theorem pack_tenc_keeps (hp : packStage n (clearOutputs .pack s) = .ok p)
    (hq : tencStage (clearOutputs .tenc (complete p)) = .ok q) : Keeps [.bbuf, .obuf] (clearOutputs .densify s) q := by
  have hstart : Keeps [.bbuf, .obuf] (clearOutputs .pack s) (clearOutputs .densify s) :=
    clearOutputs_keeps (s := clearOutputs .pack s) (c := .densify) ⟨nofun, nofun⟩ (by decide) fun _ => rfl
  have hpack : Keeps [.bbuf, .obuf] (clearOutputs .pack s) (complete p) :=
    ((packStage_keeps hp).mono (by decide)).trans (complete_keeps p)
  have hcleared : Keeps [.bbuf, .obuf] (complete p) (clearOutputs .tenc (complete p)) :=
    clearOutputs_keeps ⟨nofun, nofun⟩ (by decide) fun hb => absurd hb (by decide)
  exact ((hstart.symm.trans hpack).trans hcleared).trans ((tencStage_keeps hq).mono (by decide))

/-! DENSIFY by the stages of the two commands. -/

theorem exec_densify_of_tenc_ok (he : s.engine = .idle) (hp : packStage s.draws (clearOutputs .pack (draw s)) = .ok p)
    (hq : tencStage (clearOutputs .tenc (complete p)) = .ok q) : exec .densify s = .next (complete q) := by
  have hagree := densifyStage_of_pack_ok hp
  rw [hq] at hagree
  obtain ⟨q', hq', hbuffers⟩ := hagree.of_ok
  have hkeeps : Keeps [.bbuf, .obuf] (clearOutputs .densify (draw s)) q' := commandStage_keeps .densify hq'
  rw [exec_densify he, frame_ok hq', complete_eq_of_keeps (pack_tenc_keeps hp hq) hkeeps hbuffers]

theorem exec_densify_of_tenc_error (he : s.engine = .idle) (hp : packStage s.draws (clearOutputs .pack (draw s)) = .ok p)
    (hq : tencStage (clearOutputs .tenc (complete p)) = .error f) :
    exec .densify s = .next (takeFault .densify f (draw s)) := by
  have hagree := densifyStage_of_pack_ok hp
  rw [hq] at hagree
  rw [exec_densify he, frame_error hagree.of_error]

theorem exec_densify_of_pack_error (he : s.engine = .idle)
    (hp : packStage s.draws (clearOutputs .pack (draw s)) = .error f) :
    exec .densify s = .next (takeFault .densify f (draw s)) := by
  rw [exec_densify he, frame_error (densifyStage_of_pack_error hp)]

/-- Settles O39: what each command's end says of its stage is what DENSIFY's stage does. -/
theorem densifyIsPackThenTenc : Obligations.DensifyIsPackThenTenc := by
  intro s t he h
  obtain rfl := Host.Outcome.next.inj ((exec_pack he).symm.trans h)
  refine ⟨fun u ht hu herr => ?_, fun u ht hu herr => ?_, fun f ht => ?_⟩
  · obtain ⟨p, hp, hframe⟩ := frame_err_false ht
    rw [hframe, exec_tenc rfl] at hu
    cases hu
    obtain ⟨q, hq, hend⟩ := frame_err_false herr
    rw [hend]
    refine ⟨exec_densify_of_tenc_ok he hp hq, ?_⟩
    rw [tencStage_eq_ok hq]
    exact length_symbolsOfBits _
  · obtain ⟨h6, -⟩ := packOutputIsAlignedAndBounded s _ he h ht
    obtain ⟨p, hp, hframe⟩ := frame_err_false ht
    rw [hframe] at hu h6
    rw [exec_tenc rfl] at hu
    cases hu
    obtain ⟨f, hf⟩ := frame_err_true herr
    obtain rfl := tencStage_eq_error h6 hf
    exact exec_densify_of_tenc_error he hp hf
  · exact exec_densify_of_pack_error he (frame_eq_takeFault ht)

end Sys2Proof.Machine
end

section
/-! SUPPORT. REVERT beside TDEC, UNPACK and JOIN (R188): no stage's result depends on the command it runs for. -/

namespace Sys2Proof.Machine

variable {c : Command} {rs : List Run} {cut tail : List Bool} {s s' t p q : State} {f : CodecFault}

/-! TDEC. -/

/-- TDEC's loop does not see the command it runs for, nor that REVERT has emptied VBUF and OBUF. -/
theorem tdecStage_revert (s : State) : OutcomesAgree (Agree [.ibuf, .bbuf])
    (tdecStage .tdec (clearOutputs .tdec s)) (tdecStage .revert (clearOutputs .revert s)) := by
  by_cases hroom : 6 * s.ibuf.length ≤ s.cfg.bbufCap.toNat
  · rw [tdecStage_room (s := clearOutputs .tdec s) .tdec hroom, tdecStage_room (s := clearOutputs .revert s) .revert hroom]
    exact symbolLoop_agree _ (by decide) ⟨rfl, fun _ => rfl, fun _ => rfl, fun hb => absurd hb (by decide),
      fun hb => absurd hb (by decide)⟩
  · have hfull := Nat.not_le.mp hroom
    rw [tdecStage_full (s := clearOutputs .tdec s) .tdec hfull, tdecStage_full (s := clearOutputs .revert s) .revert hfull]
    exact .error _

theorem tdecStage_length (hb : s.bbuf = []) (h : tdecStage c s = .ok t) :
    t.bbuf.length = 6 * s.ibuf.length ∧ t.bbuf.length ≤ t.cfg.bbufCap.toNat := by
  obtain ⟨hroom, rfl⟩ := tdecStage_eq_ok h
  have hbits : (afterSymbols s.ibuf (beginSymbols c s)).bbuf = bitsOfSymbols s.ibuf := congrArg (· ++ _) hb
  rw [hbits, length_bitsOfSymbols]
  exact ⟨rfl, hroom⟩

/-! UNPACK. -/

/-- The values UNPACK's stage writes, or its fault, are fixed by the stream in BBUF and the capacity of VBUF. -/
theorem map_vbuf_unpackStage (c : Command) (hv : s.vbuf = []) (hcap : s.bbuf.length ≤ s.cfg.bbufCap.toNat)
    (hrs : ∀ r ∈ rs, r.legal = true) (hcut : cut = [] ∨ endsInsideARun cut) (h8 : cut.length % 8 = 0)
    (htail : tail.length < 8) (hb : s.bbuf = streamBits rs ++ cut ++ tail) :
    (unpackStage c s).map State.vbuf =
      if (streamValues rs).length ≤ s.cfg.vbufCap.toNat then
        if cut = [] then .ok (streamValues rs) else .error .unexpectedEndOfInput
      else .error .capacityExceeded := by
  obtain ⟨hcount, hbytes⟩ := length_streamBits hrs
  have hlen : s.bbuf.length = (streamBits rs).length + cut.length + tail.length := by
    rw [hb, List.length_append, List.length_append]
  by_cases hshort : s.bbuf.length < 8
  · obtain rfl := eq_nil_of_streamBits_short hrs (by omega)
    obtain rfl : cut = [] := List.eq_nil_of_length_eq_zero (by omega)
    have hfit : (streamValues []).length ≤ s.cfg.vbufCap.toNat := Nat.zero_le _
    rw [unpackStage, if_pos hshort, if_pos hfit, if_pos rfl]
    exact congrArg _ hv
  · obtain ⟨n, hn⟩ : ∃ n, s.bbuf.length = rs.length + n := Nat.exists_eq_add_of_le (by omega)
    have hstart : ScanAt c .S (streamBits rs ++ cut) (beginScan c s) :=
      scanAt_beginScan c hb (by rw [List.length_append]; omega) htail hcap (by simp [hv])
    have hruns := hstart.scanLoop_runs hrs n
    rw [beginScan_vbuf, beginScan_cfg, hv, List.length_nil, Nat.zero_add] at hruns
    rw [unpackStage, if_neg hshort, hn]
    obtain ⟨hfit, hend, hscan⟩ | ⟨hfull, hscan⟩ := hruns
    · rw [hscan, if_pos hfit]
      obtain rfl | hcut := hcut
      · rw [hend.scanLoop_end, if_pos rfl]
        refine congrArg _ ((afterRuns_vbuf hrs c _).trans ?_)
        rw [beginScan_vbuf, hv, List.nil_append]
      · have hpos : 0 < cut.length := List.length_pos_of_ne_nil hcut.1
        obtain ⟨m, rfl⟩ : ∃ m, n = m + 1 := Nat.exists_eq_add_one.mpr (by omega)
        rw [hend.scanLoop_succ hcut.1, hend.decRun_cut hcut, andThen_error, if_neg hcut.1]
        rfl
    · rw [hscan, if_neg (Nat.not_le.mpr hfull)]
      rfl

theorem outcomesAgree_of_map_vbuf {r r' : Except CodecFault State} (h : r.map State.vbuf = r'.map State.vbuf) :
    OutcomesAgree (fun t t' => t.vbuf = t'.vbuf) r r' := by
  cases r with
  | ok t =>
    cases r' with
    | ok t' => exact .ok (Except.ok.inj h)
    | error g => cases h
  | error f =>
    cases r' with
    | ok t' => cases h
    | error g =>
      cases h
      exact .error f

/-- UNPACK's stage does not see the command it runs for. -/
theorem unpackStage_agree_commands (c d : Command) (hv : s.vbuf = []) (hcap : s.bbuf.length ≤ s.cfg.bbufCap.toNat)
    (h : Agree [.bbuf, .vbuf] s s') : OutcomesAgree (Agree [.bbuf, .vbuf]) (unpackStage c s) (unpackStage d s') := by
  have hcfg := h.cfg
  have hbits := h.bbuf (by decide)
  have hv' : s'.vbuf = [] := (h.vbuf (by decide)).symm.trans hv
  obtain ⟨⟨rs, cut, tail, hrs, hcut, h8, htail, hb⟩, -⟩ := unpackOutcomeOfEveryBitString { s with engine := .idle } rfl hcap
  have hvalues : (unpackStage c s).map State.vbuf = (unpackStage d s').map State.vbuf := by
    rw [map_vbuf_unpackStage c hv hcap hrs hcut h8 htail hb,
      map_vbuf_unpackStage d hv' (by rwa [← hbits, ← hcfg]) hrs hcut h8 htail (hbits.symm.trans hb), hcfg]
  have hagree := outcomesAgree_of_map_vbuf hvalues
  cases hr : unpackStage c s with
  | ok t =>
    rw [hr] at hagree
    obtain ⟨t', hr', hvbuf⟩ := hagree.of_ok
    have ht := unpackStage_keeps hr
    have ht' := unpackStage_keeps hr'
    rw [hr']
    exact .ok ⟨(ht.cfg.trans hcfg).trans ht'.cfg.symm, fun hb => absurd hb (by decide),
      fun _ => ((ht.bbuf (by decide)).trans hbits).trans (ht'.bbuf (by decide)).symm, fun _ => hvbuf,
      fun hb => absurd hb (by decide)⟩
  | error f =>
    rw [hr] at hagree
    rw [hagree.of_error]
    exact .error f

/-! REVERT. -/

theorem revertStage_of_tdec_error (h : tdecStage .tdec (clearOutputs .tdec s) = .error f) :
    revertStage (clearOutputs .revert s) = .error f := by
  have hagree := tdecStage_revert s
  rw [h] at hagree
  rw [revertStage, hagree.of_error, andThen_error]

/-- Where TDEC succeeds, REVERT goes on to a stage that agrees with UNPACK's after TDEC, and then to JOIN. -/
theorem revertStage_of_tdec_ok (h : tdecStage .tdec (clearOutputs .tdec s) = .ok p) :
    ∃ r, OutcomesAgree (Agree [.bbuf, .vbuf]) (unpackStage .unpack (clearOutputs .unpack (complete p))) r ∧
      revertStage (clearOutputs .revert s) = andThen r joinStage := by
  have hagree := tdecStage_revert s
  rw [h] at hagree
  obtain ⟨p', hp', hbits⟩ := hagree.of_ok
  have hvbuf : p'.vbuf = [] := (tdecStage_keeps hp').vbuf (by decide)
  obtain ⟨-, hcap⟩ := tdecStage_length rfl h
  refine ⟨unpackStage .revert p', unpackStage_agree_commands _ _ rfl hcap ?_, by rw [revertStage, hp', andThen_ok]⟩
  exact ⟨hbits.cfg, fun hb => absurd hb (by decide), fun _ => hbits.bbuf (by decide), fun _ => hvbuf.symm,
    fun hb => absurd hb (by decide)⟩

/-- TDEC and UNPACK together leave everything outside REVERT's buffers as REVERT does. -/
theorem tdec_unpack_keeps (hp : tdecStage .tdec (clearOutputs .tdec s) = .ok p)
    (hq : unpackStage .unpack (clearOutputs .unpack (complete p)) = .ok q) :
    Keeps [.bbuf, .vbuf, .obuf] (clearOutputs .revert s) q := by
  have hstart : Keeps [.bbuf, .vbuf, .obuf] (clearOutputs .tdec s) (clearOutputs .revert s) :=
    clearOutputs_keeps (s := clearOutputs .tdec s) (c := .revert) ⟨nofun, nofun⟩ (by decide) fun _ => rfl
  have htdec : Keeps [.bbuf, .vbuf, .obuf] (clearOutputs .tdec s) (complete p) :=
    ((tdecStage_keeps hp).mono (by decide)).trans (complete_keeps p)
  have hcleared : Keeps [.bbuf, .vbuf, .obuf] (complete p) (clearOutputs .unpack (complete p)) :=
    clearOutputs_keeps ⟨nofun, nofun⟩ (by decide) fun hb => absurd hb (by decide)
  exact ((hstart.symm.trans htdec).trans hcleared).trans ((unpackStage_keeps hq).mono (by decide))

/-! REVERT by the stages of the three commands. -/

theorem exec_revert_of_tdec_error (he : s.engine = .idle) (hp : tdecStage .tdec (clearOutputs .tdec s) = .error f) :
    exec .revert s = .next (takeFault .revert f s) := by
  rw [exec_revert he, frame_error (revertStage_of_tdec_error hp)]

theorem exec_revert_of_unpack_error (he : s.engine = .idle) (hp : tdecStage .tdec (clearOutputs .tdec s) = .ok p)
    (hq : unpackStage .unpack (clearOutputs .unpack (complete p)) = .error f) :
    exec .revert s = .next (takeFault .revert f s) := by
  obtain ⟨r, hagree, hstage⟩ := revertStage_of_tdec_ok hp
  rw [hq] at hagree
  rw [hagree.of_error, andThen_error] at hstage
  rw [exec_revert he, frame_error hstage]

/-- Where TDEC and UNPACK succeed, REVERT has their bits and values when it comes to JOIN. -/
theorem revertStage_of_unpack_ok (hp : tdecStage .tdec (clearOutputs .tdec s) = .ok p)
    (hq : unpackStage .unpack (clearOutputs .unpack (complete p)) = .ok q) :
    ∃ q', Agree [.bbuf, .vbuf] q q' ∧ q'.cfg = s.cfg ∧ revertStage (clearOutputs .revert s) = joinStage q' := by
  obtain ⟨r, hagree, hstage⟩ := revertStage_of_tdec_ok hp
  rw [hq] at hagree
  obtain ⟨q', rfl, hbuffers⟩ := hagree.of_ok
  exact ⟨q', hbuffers, hbuffers.cfg.symm.trans (tdec_unpack_keeps hp hq).cfg, hstage⟩

theorem exec_revert_of_join_fits (he : s.engine = .idle) (hp : tdecStage .tdec (clearOutputs .tdec s) = .ok p)
    (hq : unpackStage .unpack (clearOutputs .unpack (complete p)) = .ok q)
    (hfits : (joinText q.vbuf).length ≤ s.cfg.obufCap.toNat) :
    exec .revert s = .next (complete { complete q with obuf := joinText q.vbuf }) := by
  obtain ⟨q', hbuffers, hcfg, hstage⟩ := revertStage_of_unpack_ok hp hq
  have hvbuf := hbuffers.vbuf (by decide)
  rw [joinStage_fits (by rwa [← hvbuf, hcfg])] at hstage
  have hrevert : Keeps [.bbuf, .vbuf, .obuf] (clearOutputs .revert s) { q' with obuf := joinText q'.vbuf } :=
    commandStage_keeps (n := s.draws) .revert hstage
  have hstages : Keeps [.bbuf, .vbuf, .obuf] (clearOutputs .revert s) { complete q with obuf := joinText q.vbuf } :=
    ((tdec_unpack_keeps hp hq).trans (complete_keeps q)).trans ((keeps_obuf _ _).mono (by decide))
  rw [exec_revert he, frame_ok hstage]
  refine congrArg Host.Outcome.next (complete_eq_of_keeps hrevert hstages ?_)
  exact ⟨hbuffers.cfg.symm, fun hb => absurd hb (by decide), fun _ => (hbuffers.bbuf (by decide)).symm, fun _ => hvbuf.symm,
    fun _ => congrArg joinText hvbuf.symm⟩

theorem exec_revert_of_join_full (he : s.engine = .idle) (hp : tdecStage .tdec (clearOutputs .tdec s) = .ok p)
    (hq : unpackStage .unpack (clearOutputs .unpack (complete p)) = .ok q)
    (hfull : s.cfg.obufCap.toNat < (joinText q.vbuf).length) :
    exec .revert s = .next (takeFault .revert .capacityExceeded s) := by
  obtain ⟨q', hbuffers, hcfg, hstage⟩ := revertStage_of_unpack_ok hp hq
  rw [joinStage_full (by rwa [← hbuffers.vbuf (by decide), hcfg])] at hstage
  rw [exec_revert he, frame_error hstage]

/-- Settles O41: what each command's end says of its stage is what REVERT's stage does. -/
theorem revertIsTdecThenUnpackThenJoin : Obligations.RevertIsTdecThenUnpackThenJoin := by
  intro s t he h
  obtain rfl := Host.Outcome.next.inj ((exec_tdec he).symm.trans h)
  refine ⟨fun f ht => ?_, fun u f ht hu hfault => ?_, fun u ht hu herr => ?_⟩
  · exact exec_revert_of_tdec_error he (frame_eq_takeFault ht)
  · obtain ⟨p, hp, hframe⟩ := frame_err_false ht
    rw [hframe, exec_unpack rfl] at hu
    rw [hframe] at hfault
    cases hu
    exact exec_revert_of_unpack_error he hp (frame_eq_takeFault hfault)
  · obtain ⟨p, hp, hframe⟩ := frame_err_false ht
    rw [hframe, exec_unpack rfl] at hu
    cases hu
    obtain ⟨q, hq, hend⟩ := frame_err_false herr
    obtain ⟨hlen, -⟩ := tdecStage_length rfl hp
    have hbbuf := congrArg List.length ((unpackStage_keeps hq).bbuf (by decide))
    rw [hend]
    exact ⟨hbbuf.trans hlen, exec_revert_of_join_fits (q := q) he hp hq, exec_revert_of_join_full (q := q) he hp hq⟩

end Sys2Proof.Machine
end

section
/-! SUPPORT. REVERT of what DENSIFY wrote (R191): its symbols are PACK's bits, and those are a stream of the text's numbers. -/

namespace Sys2Proof.Machine

variable {keys order : List Key} {s t : State}

/-! The length of JOIN's text. -/

/-- Every numeral has a comma after it but the last. -/
theorem length_joinText (vs : List Val) : (joinText vs).length = (vs.map fun v => (decimal v).length + 1).sum - 1 := by
  induction vs using joinText.induct with
  | case1 => rfl
  | case2 v => rfl
  | case3 v w rest ih =>
    rw [joinText, List.length_append, List.length_cons, ih]
    simp only [List.map_cons, List.sum_cons]
    omega

theorem length_joinText_perm {vs ws : List Val} (h : vs.Perm ws) : (joinText vs).length = (joinText ws).length := by
  rw [length_joinText, length_joinText, (h.map _).sum_eq]

/-! What a DENSIFY without a fault leaves. -/

theorem exec_tenc_eq_complete (he : s.engine = .idle) (h : exec .tenc s = .next t) (herr : t.err = false) :
    t = complete { s with obuf := symbolsOfBits s.bbuf } := by
  rw [exec_tenc he] at h
  cases h
  obtain ⟨u, hu, hend⟩ := frame_err_false herr
  rw [hend, tencStage_eq_ok hu]
  rfl

/-- Where DENSIFY took no fault, neither PACK nor TENC after it does. -/
theorem exec_densify_eq_pack_tenc (he : s.engine = .idle) (h : exec .densify s = .next t) (herr : t.err = false) :
    ∃ p, exec .pack s = .next p ∧ p.err = false ∧ p.engine = .idle ∧ exec .tenc p = .next t := by
  have hpack := exec_pack he
  obtain ⟨hsuccess, htencFault, hpackFault⟩ := densifyIsPackThenTenc s _ he hpack
  have hnofault (f : CodecFault) : exec .densify s ≠ .next (takeFault .densify f (draw s)) := fun hf => by
    rw [Host.Outcome.next.inj (h.symm.trans hf), takeFault_err] at herr
    cases herr
  cases hp : (frame .pack (packStage s.draws) (draw s)).err with
  | true =>
    obtain ⟨f, hf⟩ := frame_err_true hp
    exact absurd (hpackFault f (frame_error hf)) (hnofault f)
  | false =>
    have hidle := (frame_atRest .pack (packStage s.draws) (draw s)).engine
    have htenc := exec_tenc hidle
    cases hu : (frame .tenc tencStage (frame .pack (packStage s.draws) (draw s))).err with
    | true => exact absurd (htencFault _ hp htenc hu) (hnofault _)
    | false =>
      obtain ⟨hdensify, -⟩ := hsuccess _ hp htenc hu
      rw [Host.Outcome.next.inj (h.symm.trans hdensify)]
      exact ⟨_, hpack, hp, hidle, htenc⟩

/-- The whole state after a DENSIFY without a fault. -/
theorem exec_densify_eq_complete (he : s.engine = .idle) (h : exec .densify s = .next t) (herr : t.err = false) :
    textValid s.cfg s.ibuf ∧ ∃ order : List Key, order.Perm (textKeys s.cfg s.ibuf).dedup ∧
      (pad6 (fragments (textKeys s.cfg s.ibuf) order)).length ≤ s.cfg.bbufCap.toNat ∧
      t = complete { s with
        bbuf := pad6 (fragments (textKeys s.cfg s.ibuf) order), bstage := [], draws := s.draws + 1
        obuf := symbolsOfBits (pad6 (fragments (textKeys s.cfg s.ibuf) order)) } := by
  obtain ⟨p, hpack, hperr, hidle, htenc⟩ := exec_densify_eq_pack_tenc he h herr
  obtain ⟨hvalid, order, horder, hcap, rfl⟩ := exec_pack_eq_complete he hpack hperr
  exact ⟨hvalid, order, horder, hcap, exec_tenc_eq_complete hidle htenc herr⟩

/-! REVERT. -/

/-- REVERT of the symbols of a stream that PACK padded. -/
theorem exec_revert_pad6 {rs : List Run} (he : s.engine = .idle) (hrs : ∀ r ∈ rs, r.legal = true)
    (hi : s.ibuf = symbolsOfBits (pad6 (streamBits rs))) (hcap : (pad6 (streamBits rs)).length ≤ s.cfg.bbufCap.toNat)
    (hvalues : (streamValues rs).length ≤ s.cfg.vbufCap.toNat)
    (htext : (joinText (streamValues rs)).length ≤ s.cfg.obufCap.toNat) :
    exec .revert s = .next (complete { s with
      bbuf := pad6 (streamBits rs), bstage := [], vbuf := streamValues rs, obuf := joinText (streamValues rs) }) := by
  obtain ⟨tail, htail, hpad⟩ := pad6_eq_append (streamBits rs)
  have hroom : 6 * s.ibuf.length ≤ s.cfg.bbufCap.toNat := by
    rw [hi, length_symbolsOfBits]
    exact (Nat.mul_div_le _ _).trans hcap
  have hbits : bitsOfSymbols s.ibuf = pad6 (streamBits rs) := by
    rw [hi, bitsOfSymbols_symbolsOfBits (length_pad6_mod _)]
  rw [revertCompletesOnAStream s rs tail he (hi ▸ symbolsOfBits_inAlphabet _) hroom hrs htail (hbits.trans hpad) hvalues htext,
    hpad]

/-- Settles O44: DENSIFY's OBUF is the symbols of the padded stream of `packedRuns`, and JOIN's text has the length of the text's
numbers in any order. -/
theorem revertOfDensifyGivesTheNumbersBack : Obligations.RevertOfDensifyGivesTheNumbersBack := by
  intro s t he hcaps hjoin h herr
  obtain ⟨⟨hlen, -⟩, order, horder, hcap, rfl⟩ := exec_densify_eq_complete he h herr
  have hmem := (perm_dedup_iff.mp horder).2
  have hperm := groupedValues_perm horder
  have hbits := streamBits_packedRuns (textKeys s.cfg s.ibuf) order
  have hvalues := streamValues_packedRuns hlen fun k hk => (hmem k).mp hk
  have hfit : (groupedValues (textKeys s.cfg s.ibuf) order).length ≤ s.cfg.vbufCap.toNat := by
    rw [hperm.length_eq, List.length_map]
    exact hlen.trans hcaps
  have htext : (joinText (groupedValues (textKeys s.cfg s.ibuf) order)).length ≤ s.cfg.obufCap.toNat :=
    (length_joinText_perm hperm).trans_le hjoin
  rw [← hvalues] at hfit htext hperm
  rw [← hbits] at hcap ⊢
  exact ⟨_, order, horder, congrArg pad6 hbits, exec_revert_pad6 rfl (packedRuns_legal _ order) rfl hcap hfit htext, rfl, rfl,
    hvalues, hperm, rfl⟩

end Sys2Proof.Machine
end

section
/-! SUPPORT. Which fault ends a stage, and which a command: the table of R219, and what a fault leaves (R212). -/

namespace Sys2Proof.Machine

variable {c : Command} {f : CodecFault} {s t : State} {code : BitVec 4} {k : State → Except CodecFault State}

/-! The shared operations. -/

theorem appendBits_eq_error {b : List Bool} (h : appendBits b s = .error f) : f = .capacityExceeded := by
  unfold appendBits at h
  split at h <;> cases h
  rfl

theorem appendRun_eq_error {n : Nat} {v : Val} (h : appendRun n v s = .error f) : f = .capacityExceeded := by
  unfold appendRun at h
  split at h <;> cases h
  rfl

theorem putBits_eq_error {b : List Bool} (h : putBits b s = .error f) : f = .capacityExceeded := by
  unfold putBits at h
  split at h <;> cases h
  rfl

theorem putText_eq_error {text : List Symbol} (h : putText text s = .error f) : f = .capacityExceeded := by
  unfold putText at h
  split at h <;> cases h
  rfl

theorem needBits_eq_error {n : Nat} (h : needBits n k s = .error f) : f = .unexpectedEndOfInput ∨ k s = .error f := by
  unfold needBits at h
  split at h
  · cases h
    exact .inl rfl
  · exact .inr h

/-! PACK, TENC and JOIN. -/

theorem tallyText_eq_error {cfg : Config} {text : List Symbol} (h : tallyText cfg text = .error f) :
    f = .capacityExceeded := by
  unfold tallyText at h
  split at h <;> cases h
  rfl

theorem emitTally_eq_error {choice : Nat → Nat} {tally : Tally} (h : emitTally choice tally = .error f) :
    f = .invalidValue := by
  unfold emitTally at h
  split at h <;> cases h
  rfl

theorem packStage_eq_error {n : Nat} (h : packStage n s = .error f) : f = .invalidValue ∨ f = .capacityExceeded := by
  unfold packStage at h
  split at h
  · cases h
  · split at h
    next htally =>
      cases h
      exact .inr (tallyText_eq_error htally)
    next =>
      dsimp only at h
      split at h
      next hemit =>
        cases h
        exact .inl (emitTally_eq_error hemit)
      next => exact .inr (putBits_eq_error h)

theorem joinStage_eq_error (h : joinStage s = .error f) : f = .capacityExceeded := putText_eq_error h

theorem tencStage_eq_error_cases (h : tencStage s = .error f) : f = .contractViolation ∨ f = .capacityExceeded := by
  by_cases h6 : s.bbuf.length % 6 = 0
  · exact .inr (tencStage_eq_error h6 h)
  · rw [tencStage_ragged h6] at h
    cases h
    exact .inl rfl

/-- In DENSIFY the TENC after PACK has whole groups (R128, R187). -/
theorem densifyStage_eq_error {n : Nat} (hb : s.bbuf = []) (h : densifyStage n s = .error f) :
    f = .invalidValue ∨ f = .capacityExceeded := by
  obtain hpack | ⟨u, hpack, htenc⟩ := andThen_eq_error h
  · exact packStage_eq_error hpack
  · obtain ⟨order, -, hbits⟩ := packStage_eq_ok hb hpack
    exact .inr (tencStage_eq_error (hbits ▸ length_pad6_mod _) htenc)

/-! TDEC's loop. -/

theorem nextSymbol_eq_error {x : Symbol} (h : nextSymbol x s = .error f) :
    (f = .invalidBase64Character x ∧ ¬ inAlphabet x) ∨ f = .capacityExceeded := by
  by_cases hx : inAlphabet x
  · obtain ⟨g, rfl⟩ := exists_symbolOf_eq hx
    rw [nextSymbol_symbolOf] at h
    exact .inr (appendBits_eq_error h)
  · rw [nextSymbol_illegal hx] at h
    cases h
    exact .inl ⟨rfl, hx⟩

theorem symbolLoop_eq_error {text : List Symbol} (h : symbolLoop text s = .error f) :
    (∃ x ∈ text, f = .invalidBase64Character x ∧ ¬ inAlphabet x) ∨ f = .capacityExceeded := by
  induction text generalizing s with
  | nil => cases h
  | cons x text ih =>
    obtain hx | ⟨u, -, htext⟩ := andThen_eq_error h
    · exact (nextSymbol_eq_error hx).imp_left fun hbad => ⟨x, List.mem_cons_self, hbad⟩
    · exact (ih htext).imp_left fun ⟨y, hy, hbad⟩ => ⟨y, List.mem_cons_of_mem x hy, hbad⟩

theorem tdecStage_eq_error (h : tdecStage c s = .error f) :
    (∃ x ∈ s.ibuf, f = .invalidBase64Character x ∧ ¬ inAlphabet x) ∨ f = .capacityExceeded := by
  unfold tdecStage at h
  split at h
  · cases h
    exact .inr rfl
  · exact symbolLoop_eq_error h

/-! UNPACK's scan. -/

/-- A fault that a scan can raise (R103 to R108). -/
def ScanFault (f : CodecFault) : Prop := f = .unexpectedEndOfInput ∨ f = .capacityExceeded

theorem valueField_eq_error {p : Position} {w : Len} {v : Val} (h : valueField c p w v s = .error f) : ScanFault f :=
  .inr (appendRun_eq_error h)

/-- Every instruction but the five fields leaves the scan as it is. -/
theorem runField_eq_error {p : Position} {i : Instr} (h : runField c p i s = .error f) : ScanFault f := by
  cases i
  case v8 v => exact valueField_eq_error h
  case v16 v => exact (needBits_eq_error h).elim .inl valueField_eq_error
  case v16x v => exact (needBits_eq_error h).elim .inl valueField_eq_error
  case c16 n => exact (needBits_eq_error h).elim .inl nofun
  all_goals cases h

theorem nextField_eq_error (h : nextField s = .error f) : ScanFault f := by
  unfold nextField at h
  split at h
  next =>
    split at h
    next => exact runField_eq_error h
    next hfetch =>
      cases h
      exact .inl (congrArg faultOf (endOfInput_of_decodeField hfetch))
  next => cases h
  next => cases h

theorem decRun_eq_error (h : decRun s = .error f) : ScanFault f := by
  obtain hfirst | ⟨u, -, hrest⟩ := andThen_eq_error h
  · exact nextField_eq_error hfirst
  · split at hrest
    · exact nextField_eq_error hrest
    · cases hrest

theorem scanLoop_eq_error {n : Nat} (h : scanLoop n s = .error f) : ScanFault f := by
  induction n generalizing s with
  | zero => cases h
  | succ n ih =>
    unfold scanLoop at h
    split at h
    · obtain hrun | ⟨u, -, hrest⟩ := andThen_eq_error h
      · exact decRun_eq_error hrun
      · exact ih hrest
    · cases h

theorem unpackStage_eq_error (h : unpackStage c s = .error f) : ScanFault f := by
  unfold unpackStage at h
  split at h
  · cases h
  · exact scanLoop_eq_error h

/-! The commands. -/

/-- The rows of R219 by fault: which command can take it, and for code 1 on which symbol of the text (R202, R219). -/
def CanTake (text : List Symbol) (c : Command) : CodecFault → Prop
  | .invalidBase64Character x => (c = .tdec ∨ c = .revert) ∧ x ∈ text ∧ ¬ inAlphabet x
  | .parseError => False
  | .unexpectedEndOfInput => c = .unpack ∨ c = .revert
  | .unexpectedChar => False
  | .invalidValue => c = .pack ∨ c = .densify
  | .contractViolation => c = .tenc
  | .capacityExceeded => framed c

theorem canTake_of_pack (hc : c = .pack ∨ c = .densify) (hf : f = .invalidValue ∨ f = .capacityExceeded)
    (text : List Symbol) : CanTake text c f := by
  obtain rfl | rfl := hf
  · exact hc
  · obtain rfl | rfl := hc <;> exact ⟨nofun, nofun⟩

theorem canTake_of_scan (hc : c = .unpack ∨ c = .revert) (hf : ScanFault f) (text : List Symbol) : CanTake text c f := by
  obtain rfl | rfl := hf
  · exact hc
  · obtain rfl | rfl := hc <;> exact ⟨nofun, nofun⟩

theorem canTake_of_tdec {text : List Symbol} (hc : c = .tdec ∨ c = .revert)
    (hf : (∃ x ∈ text, f = .invalidBase64Character x ∧ ¬ inAlphabet x) ∨ f = .capacityExceeded) : CanTake text c f := by
  obtain ⟨x, hx, rfl, hout⟩ | rfl := hf
  · exact ⟨hc, hx, hout⟩
  · obtain rfl | rfl := hc <;> exact ⟨nofun, nofun⟩

theorem commandStage_canTake {n : Nat} (h : commandStage n c (clearOutputs c s) = .error f) : CanTake s.ibuf c f := by
  cases c with
  | nop => cases h
  | clear => cases h
  | pack => exact canTake_of_pack (.inl rfl) (packStage_eq_error h) _
  | unpack => exact canTake_of_scan (.inl rfl) (unpackStage_eq_error h) _
  | tenc =>
    obtain rfl | rfl := tencStage_eq_error_cases h
    · exact rfl
    · exact ⟨nofun, nofun⟩
  | tdec => exact canTake_of_tdec (.inl rfl) (tdecStage_eq_error (s := clearOutputs .tdec s) h)
  | densify => exact canTake_of_pack (.inr rfl) (densifyStage_eq_error (s := clearOutputs .densify s) rfl h) _
  | revert =>
    obtain htdec | ⟨u, -, hrest⟩ := andThen_eq_error h
    · exact canTake_of_tdec (.inr rfl) (tdecStage_eq_error (s := clearOutputs .revert s) htdec)
    · obtain hunpack | ⟨v, -, hjoin⟩ := andThen_eq_error hrest
      · exact canTake_of_scan (.inr rfl) (unpackStage_eq_error hunpack) _
      · exact canTake_of_scan (.inr rfl) (.inr (joinStage_eq_error hjoin)) _

theorem commandStart_ibuf (c : Command) (s : State) : (commandStart c s).ibuf = s.ibuf := by
  obtain ⟨n, hstart⟩ := exists_commandStart_eq c s
  rw [hstart]

/-- A framed command completes, or takes a fault that R219 allows it. -/
theorem exec_framed_cases (hc : framed c) (he : s.engine = .idle) (h : exec (commandInstr c) s = .next t) :
    (∃ u, t = complete u) ∨ ∃ f, CanTake s.ibuf c f ∧ t = takeFault c f (commandStart c s) := by
  rw [exec_framed hc he] at h
  cases h
  obtain ⟨u, -, hframe⟩ | ⟨f, hf, hframe⟩ := frame_cases c (commandStage s.draws c) (commandStart c s)
  · exact .inl ⟨u, hframe⟩
  · exact .inr ⟨f, commandStart_ibuf c s ▸ commandStage_canTake hf, hframe⟩

/-! What a fault leaves. -/

theorem readBuf_takeFault_written {b : Buffer} (hb : b ∈ writes c) (f : CodecFault) (k : Nat) (s : State) :
    readBuf b k (takeFault c f s) = none := by
  cases b <;> simp [readBuf, hb]

theorem faultClass_eq_classOfCode (f : CodecFault) : faultClass f = classOfCode (faultCode f) := by
  cases f <;> rfl

theorem faultChar_of_code_ne_one (h : faultCode f ≠ 1) : faultChar f = 0 := by
  cases f
  case invalidBase64Character x => exact absurd rfl h
  all_goals rfl

/-- Code 1 is that of one fault alone, which carries its symbol (R202). -/
theorem CanTake.faultChar_illegal {text : List Symbol} (h : CanTake text c f) (hcode : faultCode f = 1) :
    faultChar f ∈ text ∧ ¬ inAlphabet (faultChar f) := by
  cases f
  case invalidBase64Character x => exact h.2
  all_goals simp [faultCode] at hcode

/-- Settles O49: a command that ends with ERR took a fault, and the fault emptied what the command writes; that the rest stands
is the frame of every command. -/
theorem faultEmptiesTheWrittenBuffers : Obligations.FaultEmptiesTheWrittenBuffers := by
  intro s t c hc he h herr
  obtain ⟨hothers, -, -, -, -, -, hdone, hengine, -⟩ := commandLeavesTheOtherBuffers s t c hc he h
  obtain ⟨u, rfl⟩ | ⟨f, hf, rfl⟩ := exec_framed_cases hc he h
  · cases herr
  · exact ⟨fun b hb k => readBuf_takeFault_written hb f k _, hothers, faultCode_ne_zero f, faultClass_eq_classOfCode f,
      faultChar_of_code_ne_one, hf.faultChar_illegal, hdone, hengine⟩

/-! The table of R219. -/

/-- The codes that R219 gives a command. -/
def tableCodes : Command → List (BitVec 4)
  | .pack => [0, 5, 7]
  | .unpack => [0, 3, 7]
  | .tenc => [0, 6, 7]
  | .tdec => [0, 1, 7]
  | .densify => [0, 5, 7]
  | .revert => [0, 1, 3, 7]
  | .nop => []
  | .clear => []

/-- The commands that run in the frame of R180. -/
def framedCommands : List Command := [.pack, .unpack, .tenc, .tdec, .densify, .revert]

theorem mem_framedCommands (hc : framed c) : c ∈ framedCommands := by
  cases c
  case nop => exact absurd rfl hc.1
  case clear => exact absurd rfl hc.2
  all_goals decide

/-- Every command can complete, and every command can run out of room. -/
theorem zero_seven_mem_tableCodes (hc : framed c) : 0 ∈ tableCodes c ∧ 7 ∈ tableCodes c := by
  have hall : ∀ c ∈ framedCommands, 0 ∈ tableCodes c ∧ 7 ∈ tableCodes c := by decide
  exact hall c (mem_framedCommands hc)

theorem CanTake.faultCode_mem {text : List Symbol} (h : CanTake text c f) : faultCode f ∈ tableCodes c := by
  cases f with
  | invalidBase64Character x => obtain ⟨rfl | rfl, -⟩ := h <;> simp [faultCode, tableCodes]
  | parseError => exact h.elim
  | unexpectedEndOfInput => obtain rfl | rfl := h <;> decide
  | unexpectedChar => exact h.elim
  | invalidValue => obtain rfl | rfl := h <;> decide
  | contractViolation =>
    obtain rfl := h
    decide
  | capacityExceeded => exact (zero_seven_mem_tableCodes h).2

theorem errCode_mem_tableCodes (hc : framed c) (he : s.engine = .idle) (h : exec (commandInstr c) s = .next t) :
    t.errCode ∈ tableCodes c := by
  obtain ⟨u, rfl⟩ | ⟨f, hf, rfl⟩ := exec_framed_cases hc he h
  · exact (zero_seven_mem_tableCodes hc).1
  · exact hf.faultCode_mem

/-! A state for each entry of the table. -/

/-- The text `7,7,7` and three V8 fields of value 0, in a machine whose parameters are too small for any result. -/
def crampedState : State :=
  { State.reset with
    cfg := { Config.standard with bbufCap := 24, vbufCap := 1, obufCap := 1, maxEntries := 1 }
    ibuf := [55, 44, 55, 44, 55]
    bbuf := List.replicate 24 false }

/-- One symbol just outside the alphabet (TC-16). -/
def illegalSymbolState : State := { State.reset with ibuf := [96] }

/-- In both inputs a C8 field with no value after it (R84): in BBUF as bits, not in groups of six, and in IBUF as symbols (RV-6),
which are no number. -/
def cutRunState : State :=
  { State.reset with ibuf := [80, 80], bbuf := [true, true, false, false, false, false, true, true] }

/-- Between commands, a state from which every command that R219 gives the code ends with it. -/
def stateEndingWith (code : BitVec 4) : State :=
  if code = 0 then State.reset
  else if code = 1 then illegalSymbolState
  else if code = 7 then crampedState
  else cutRunState

/-- Each entry of the table, run. -/
theorem stateEndingWith_ends : ∀ c ∈ framedCommands, ∀ code ∈ tableCodes c, (stateEndingWith code).engine = .idle ∧
    (frame c (commandStage (stateEndingWith code).draws c) (commandStart c (stateEndingWith code))).errCode = code := by
  decide

theorem exists_exec_of_mem_tableCodes (hc : framed c) (h : code ∈ tableCodes c) :
    ∃ s t : State, s.engine = .idle ∧ exec (commandInstr c) s = .next t ∧ t.errCode = code := by
  obtain ⟨he, hcode⟩ := stateEndingWith_ends c (mem_framedCommands hc) code h
  exact ⟨_, _, he, exec_framed hc he, hcode⟩

theorem exists_exec_iff_mem_tableCodes (hc : framed c) (code : BitVec 4) :
    (∃ s t : State, s.engine = .idle ∧ exec (commandInstr c) s = .next t ∧ t.errCode = code) ↔ code ∈ tableCodes c := by
  refine ⟨?_, exists_exec_of_mem_tableCodes hc⟩
  rintro ⟨s, t, he, ht, rfl⟩
  exact errCode_mem_tableCodes hc he ht

/-- Settles O50: the faults of every stage are in the table, and each entry of the table is reached from a state given above. -/
theorem commandsEndWithTheCodesOfTheTable : Obligations.CommandsEndWithTheCodesOfTheTable := by
  refine ⟨fun s t h => ?_, fun s t he h => ?_, fun c hc code => ?_⟩
  · obtain rfl := Host.Outcome.next.inj ((nopChangesNothing s).symm.trans h)
    exact ⟨rfl, rfl, rfl⟩
  · obtain rfl := Host.Outcome.next.inj ((whenIdle_idle (f := resetBlock) he).symm.trans h)
    exact ⟨rfl, rfl, rfl⟩
  · have htable := exists_exec_iff_mem_tableCodes hc code
    cases c <;> exact htable

end Sys2Proof.Machine
end

section
/-! SUPPORT. Where a field, a symbol or a command has no effect of its own: outside its position (log 14), and while another
command is in progress (log 13). -/

namespace Sys2Proof.Machine

variable {s : State}

/-- Outside a scan a field is refused (log 14). -/
theorem atField_outside {k : Command → Position → Host.Outcome State Fault Refusal}
    (h : ∀ c p, s.engine ≠ .fields c p) : atField s k = .refused .outOfPosition := by
  cases he : s.engine with
  | idle => simp only [atField, he]
  | symbols c => simp only [atField, he]
  | fields c p => exact absurd he (h c p)

/-- Outside TDEC's loop a symbol is refused (log 14). -/
theorem atSymbol_outside {k : Command → Host.Outcome State Fault Refusal} (h : ∀ c, s.engine ≠ .symbols c) :
    atSymbol s k = .refused .outOfPosition := by
  cases he : s.engine with
  | idle => simp only [atSymbol, he]
  | symbols c => exact absurd he (h c)
  | fields c p => simp only [atSymbol, he]

/-- Settles O12: a field asks for a scan and then for its position there, a symbol for TDEC's loop. -/
theorem fieldOutOfItsPositionIsRefused : Obligations.FieldOutOfItsPositionIsRefused := by
  refine ⟨fun s i hi hpos => ?_, fun s g hloop => ?_⟩
  · rw [exec_eq_atField hi]
    by_cases hscan : ∃ c p, s.engine = .fields c p
    · obtain ⟨c, p, he⟩ := hscan
      rw [atField_fields he, hpos c p he]
      rfl
    · exact atField_outside fun c p he => hscan ⟨c, p, he⟩
  · rw [exec_eq_atSymbol (.inl rfl), exec_eq_atSymbol (.inr rfl)]
    exact ⟨atSymbol_outside hloop, atSymbol_outside hloop⟩

/-- Settles O52: every command but NOP, which has no effect anyway, waits for the engine to be idle. -/
theorem commandWhileBusyIsIgnored : Obligations.CommandWhileBusyIsIgnored := by
  intro s c hbusy
  cases c
  case nop => exact nopChangesNothing s
  all_goals exact if_neg hbusy

end Sys2Proof.Machine
end

section
/-! SUPPORT. A command stepped from the inside ends as the atomic command does (R180; log 6): a rule for one step, and from it a
rule for each loop. -/

namespace Sys2Proof.Machine

variable {s t : State} {c : Command} {p : Position} {r : Except CodecFault State} {k : State → Except CodecFault State}

theorem andThen_ok_right (r : Except CodecFault State) : andThen r .ok = r := by cases r <;> rfl

theorem andThen_assoc (r : Except CodecFault State) (k l : State → Except CodecFault State) :
    andThen (andThen r k) l = andThen r (fun s => andThen (k s) l) := by cases r <;> rfl

/-! The end of a command. -/

/-- The state in which command `c` ends with the result `r` of its stages: it completes, or takes the fault in `s` (R180). -/
def commandEnd (c : Command) (s : State) (r : Except CodecFault State) : State :=
  match r with
  | .ok t => complete t
  | .error f => takeFault c f s

theorem takeFault_clearOutputs (c : Command) (f : CodecFault) (s : State) :
    takeFault c f (clearOutputs c s) = takeFault c f s := by
  cases c <;> rfl

/-- The frame of R180, from the state in which the stages begin. -/
theorem frame_eq_commandEnd (c : Command) (run : State → Except CodecFault State) (s : State) :
    frame c run s = commandEnd c (clearOutputs c s) (run (clearOutputs c s)) := by
  obtain ⟨t, ht, hframe⟩ | ⟨f, hf, hframe⟩ := frame_cases c run s
  · rw [hframe, ht]
    rfl
  · rw [hframe, hf]
    exact (takeFault_clearOutputs c f s).symm

/-- A fault shows nothing of what its command has written (R212). -/
theorem takeFault_of_keeps (f : CodecFault) (h : Keeps (writes c) s t) : takeFault c f t = takeFault c f s := by
  have hibuf : (clearOutputs c t).ibuf = (clearOutputs c s).ibuf := ite_congr rfl (fun _ => rfl) h.ibuf
  have hbbuf : (clearOutputs c t).bbuf = (clearOutputs c s).bbuf := ite_congr rfl (fun _ => rfl) h.bbuf
  have hvbuf : (clearOutputs c t).vbuf = (clearOutputs c s).vbuf := ite_congr rfl (fun _ => rfl) h.vbuf
  have hobuf : (clearOutputs c t).obuf = (clearOutputs c s).obuf := ite_congr rfl (fun _ => rfl) h.obuf
  have histage : (clearOutputs c t).istage = (clearOutputs c s).istage := ite_congr rfl (fun _ => rfl) fun _ => h.istage
  have hbstage : (clearOutputs c t).bstage = (clearOutputs c s).bstage := ite_congr rfl (fun _ => rfl) fun _ => h.bstage
  simp only [takeFault, setFault, park, hibuf, hbbuf, hvbuf, hobuf, histage, hbstage, clearOutputs_cfg, clearOutputs_draws,
    clearOutputs_host, h.cfg, h.draws, h.host]

theorem Keeps.of_singleton {b : Buffer} {bs : List Buffer} (h : Keeps [b] s t) (hb : b ∈ bs) : Keeps bs s t :=
  h.mono (List.cons_subset.mpr ⟨hb, List.nil_subset _⟩)

theorem commandEnd_of_keeps (r : Except CodecFault State) (h : Keeps (writes c) s t) :
    commandEnd c t r = commandEnd c s r := by
  cases r with
  | ok u => rfl
  | error f => exact takeFault_of_keeps f h

/-! One step. -/

/-- Stepped from `s`, the machine comes to the state in which command `c` ends with the result `r`. -/
def EndsAs (c : Command) (s : State) (r : Except CodecFault State) : Prop :=
  ∃ n, Sys2Proof.core.run n s = .next (commandEnd c s r)

/-- A step to a state with the same end before it. -/
theorem EndsAs.of_step (h : EndsAs c t r) (hs : step s = .next t) (hend : commandEnd c t r = commandEnd c s r) :
    EndsAs c s r := by
  obtain ⟨n, hn⟩ := h
  exact ⟨n + 1, by rw [run_next n hs, hn, hend]⟩

/-- A step with the result of a stage, of which more is to come. -/
theorem EndsAs.andThen (hs : step s = settle c s r)
    (hk : ∀ t, r = .ok t → Keeps (writes c) s t ∧ EndsAs c t (k t)) : EndsAs c s (andThen r k) := by
  cases r with
  | ok t =>
    obtain ⟨hkeeps, hend⟩ := hk t rfl
    exact hend.of_step hs (commandEnd_of_keeps _ hkeeps)
  | error f => exact ⟨1, run_next 0 hs⟩

/-- A step of the scan is the next field. -/
theorem step_eq_nextField (he : s.engine = .fields c p) (hp : p = .S → s.pos < s.ltrunc) :
    step s = settle c s (nextField s) := by
  cases hf : fetchField p s with
  | ok i => rw [step_field he hp hf, exec_field he hf, nextField_ok he hf]
  | error e => rw [step_other (fetch_field_error he hp hf), nextField_error he hf, settle_error]

/-- A step of TDEC's loop is the next symbol. -/
theorem step_eq_nextSymbol {x : Symbol} (he : s.engine = .symbols c) (hx : s.ibuf[s.idx.toNat]? = some x) :
    step s = settle c s (nextSymbol x s) := by
  unfold nextSymbol
  cases hd : decodeSymbol x with
  | ok i => exact (step_symbol he hx hd).trans (exec_symbol he hd)
  | error e => exact step_other (fetch_symbol_error he hx hd)

/-- A command whose stages are stepped from `t`, where nothing but transients is new, ends as in its frame (R180). -/
theorem EndsAs.run_eq_frame {run : State → Except CodecFault State} (h : EndsAs c t (run (clearOutputs c s)))
    (hkeeps : Keeps (writes c) (clearOutputs c s) t) : ∃ n, Sys2Proof.core.run n t = .next (frame c run s) := by
  rwa [EndsAs, commandEnd_of_keeps _ hkeeps, ← frame_eq_commandEnd] at h

/-! UNPACK's scan. -/

/-- Past a value field the decoder is back at a run start; past a count field, which a run start alone has, it is not (R76). -/
theorem nextField_engine (he : s.engine = .fields c p) (h : nextField s = .ok t) :
    t.engine = .fields c .S ∨ (p = .S ∧ t.engine = .fields c .V) := by
  cases hf : fetchField p s with
  | error e =>
    rw [nextField_error he hf] at h
    cases h
  | ok i =>
    rw [nextField_ok he hf] at h
    have hp := recognisedAt_of_decodeField hf
    obtain ⟨hv | hc, -⟩ := field_of_decodeField hf
    · rw [runField_value_eq_ok hv hp h]
      exact .inl rfl
    · rw [runField_count_eq_ok hc h]
      exact .inr ⟨(recognisedAt_count_iff hc).mp hp, rfl⟩

/-- A run is one step, or two. -/
theorem endsAs_decRun (hv : .vbuf ∈ writes c) (he : s.engine = .fields c .S) (hpos : s.pos < s.ltrunc)
    (hk : ∀ t, decRun s = .ok t → t.engine = .fields c .S → EndsAs c t (k t)) : EndsAs c s (andThen (decRun s) k) := by
  have hkeeps {u w : State} (h : nextField u = .ok w) : Keeps (writes c) u w :=
    (nextField_keeps h).of_singleton hv
  rw [decRun, andThen_assoc]
  refine .andThen (step_eq_nextField he fun _ => hpos) fun t ht => ⟨hkeeps ht, ?_⟩
  obtain hS | ⟨-, hV⟩ := nextField_engine he ht
  · have hvalue : expectsValue t = false := by simp only [expectsValue, hS]
    rw [hvalue]
    exact hk t (decRun_of_value ht hS) hS
  · have hvalue : expectsValue t = true := by simp only [expectsValue, hV]
    rw [hvalue]
    refine .andThen (step_eq_nextField hV nofun) fun u hu => ⟨hkeeps hu, hk u ((decRun_of_count ht hV).trans hu) ?_⟩
    exact (nextField_engine hV hu).resolve_right nofun

theorem endsAs_scanLoop (hv : .vbuf ∈ writes c) {n : Nat} (he : s.engine = .fields c .S)
    (hk : ∀ t, scanLoop n s = .ok t → EndsAs c t (k t)) : EndsAs c s (andThen (scanLoop n s) k) := by
  induction n generalizing s with
  | zero => exact hk s rfl
  | succ n ih =>
    by_cases hpos : s.pos < s.ltrunc
    · have hloop : scanLoop (n + 1) s = andThen (decRun s) (scanLoop n) := if_pos hpos
      rw [hloop, andThen_assoc]
      refine endsAs_decRun hv he hpos fun t ht het => ih het fun u hu => hk u ?_
      rw [hloop, ht, andThen_ok, hu]
    · have hloop : scanLoop (n + 1) s = .ok s := if_neg hpos
      rw [hloop]
      exact hk s hloop

/-- A scan with a turn for every bit that ends well has read them all. -/
theorem ScanAt.of_scanLoop_eq_ok {b : List Bool} {n : Nat} (h : ScanAt c .S b s) (hn : b.length ≤ n)
    (ht : scanLoop n s = .ok t) : ScanAt c .S [] t := by
  obtain ⟨rs, cut, hrs, hcut, rfl⟩ := exists_stream b
  obtain ⟨hcount, -⟩ := length_streamBits hrs
  rw [List.length_append] at hn
  obtain ⟨m, rfl⟩ : ∃ m, n = rs.length + m := Nat.exists_eq_add_of_le (by omega)
  obtain ⟨-, hend, hscan⟩ | ⟨-, hscan⟩ := h.scanLoop_runs hrs m
  · rw [hscan] at ht
    obtain rfl | hcut := hcut
    · rw [hend.scanLoop_end] at ht
      exact Except.ok.inj ht ▸ hend
    · have hpos : 0 < cut.length := List.length_pos_of_ne_nil hcut.1
      obtain ⟨j, rfl⟩ : ∃ j, m = j + 1 := Nat.exists_eq_add_one.mpr (by omega)
      rw [hend.scanLoop_succ hcut.1, hend.decRun_cut hcut] at ht
      cases ht
  · rw [hscan] at ht
    cases ht

/-- What command `c` does after its scan: REVERT goes on to JOIN (R188). -/
def afterScan (c : Command) (s : State) : Except CodecFault State := if c = .revert then joinStage s else .ok s

theorem finishFields_eq_commandEnd (c : Command) (s : State) : finishFields c s = commandEnd c s (afterScan c s) := by
  unfold finishFields afterScan
  split <;> rfl

/-- The transients that the start of a scan writes are not seen after it (R20). -/
theorem commandEnd_afterScan_beginScan (c : Command) (s : State) :
    commandEnd c (beginScan c s) (afterScan c (beginScan c s)) = commandEnd c (beginScan c s) (afterScan c s) := by
  unfold afterScan
  split
  · unfold joinStage putText
    rw [beginScan_vbuf, beginScan_cfg]
    split <;> rfl
  · rfl

/-- With no bit left to read the next step is the end of the scan. -/
theorem ScanAt.endsAs (h : ScanAt c .S [] s) : EndsAs c s (afterScan c s) := by
  have hpos : s.ltrunc ≤ s.pos := BitVec.not_lt.mp fun hlt => h.pos_lt_iff.mp hlt rfl
  rw [EndsAs, ← finishFields_eq_commandEnd]
  exact ⟨1, run_next 0 (step_other (fetch_fields_end h.engine hpos))⟩

/-- The scan field by field is UNPACK as a stage; where R141 does not scan, there is nothing to read. -/
theorem endsAs_beginScan (hv : .vbuf ∈ writes c) (hcap : s.bbuf.length ≤ s.cfg.bbufCap.toNat)
    (hroom : s.vbuf.length ≤ s.cfg.vbufCap.toNat) :
    EndsAs c (beginScan c s) (andThen (unpackStage c s) (afterScan c)) := by
  unfold unpackStage
  split
  next hshort =>
    have hend := (scanAt_beginScan (b := []) c rfl rfl hshort hcap hroom).endsAs
    rwa [EndsAs, commandEnd_afterScan_beginScan] at hend
  next =>
    have hbytes : (s.bbuf.take (s.bbuf.length - s.bbuf.length % 8)).length = s.bbuf.length - s.bbuf.length % 8 :=
      List.length_take_of_le (Nat.sub_le _ _)
    have htail : (s.bbuf.drop (s.bbuf.length - s.bbuf.length % 8)).length < 8 := by
      rw [List.length_drop]
      omega
    have hstart := scanAt_beginScan c (List.take_append_drop _ s.bbuf).symm (by rw [hbytes]; omega) htail hcap hroom
    exact endsAs_scanLoop hv rfl fun t ht => (hstart.of_scanLoop_eq_ok (List.length_take_le' _ _) ht).endsAs

/-- Settles O23: the start of the scan shows nothing at UNPACK's end. -/
theorem unpackIsItsFieldsOneByOne : Obligations.UnpackIsItsFieldsOneByOne := by
  intro s he hcap
  have hend : EndsAs .unpack (beginScan .unpack (clearOutputs .unpack s))
      (andThen (unpackStage .unpack (clearOutputs .unpack s)) .ok) := endsAs_beginScan (by decide) hcap (Nat.zero_le _)
  rw [andThen_ok_right] at hend
  rw [exec_unpack he]
  exact hend.run_eq_frame { Keeps.refl _ _ with }

/-! TDEC's loop. -/

theorem endsAs_symbolLoop (hb : .bbuf ∈ writes c) {xs : List Symbol} (he : s.engine = .symbols c)
    (hlen : s.ibuf.length < 2 ^ 32) (hxs : s.ibuf.drop s.idx.toNat = xs)
    (hk : ∀ t, symbolLoop xs s = .ok t → EndsAs c t (k t)) : EndsAs c s (andThen (symbolLoop xs s) k) := by
  induction xs generalizing s with
  | nil => exact hk s rfl
  | cons x xs ih =>
    have hx : s.ibuf[s.idx.toNat]? = some x := by rw [← List.head?_drop, hxs, List.head?_cons]
    have hi : s.idx.toNat < s.ibuf.length := (List.getElem?_eq_some_iff.mp hx).1
    have hidx : (s.idx + 1).toNat = s.idx.toNat + 1 := BitVec.toNat_add_of_lt (hlen.trans_le' hi)
    rw [symbolLoop, andThen_assoc]
    refine .andThen (step_eq_nextSymbol he hx) fun t ht => ?_
    obtain ⟨g, -, rfl⟩ := nextSymbol_eq_ok ht
    have hkeeps : Keeps [.bbuf] s (afterSymbol g s) := { keeps_bbuf s _ with }
    refine ⟨hkeeps.of_singleton hb, ih (s := afterSymbol g s) he hlen ?_ fun u hu => hk u ?_⟩
    · have hdrop : s.ibuf.drop (s.idx + 1).toNat = xs := by rw [hidx, ← List.drop_drop, hxs, List.drop_one, List.tail_cons]
      exact hdrop
    · rw [symbolLoop, ht, andThen_ok, hu]

/-- After the symbols of IBUF REVERT's next step begins its scan. -/
theorem step_afterSymbols (hlen : s.ibuf.length < 2 ^ 32) :
    step (afterSymbols s.ibuf (beginSymbols .revert s)) =
      .next (beginScan .revert (afterSymbols s.ibuf (beginSymbols .revert s))) := by
  have hidx : (afterSymbols s.ibuf (beginSymbols .revert s)).idx.toNat = s.ibuf.length := by
    simp only [afterSymbols, beginSymbols, BitVec.ofNat_eq_ofNat, BitVec.zero_add, BitVec.toNat_ofNat]
    exact Nat.mod_eq_of_lt hlen
  exact step_other (fetch_symbols_end (s := afterSymbols s.ibuf (beginSymbols .revert s)) rfl hidx.ge)

/-- REVERT from the start of TDEC's loop, symbol by symbol and field by field. -/
theorem endsAs_beginSymbols (hb : s.bbuf = []) (hv : s.vbuf = []) (hroom : 6 * s.ibuf.length ≤ s.cfg.bbufCap.toNat) :
    EndsAs .revert (beginSymbols .revert s) (revertStage s) := by
  have hlen : s.ibuf.length < 2 ^ 32 := by
    have := s.cfg.bbufCap.isLt
    omega
  rw [revertStage, tdecStage_room _ hroom]
  refine endsAs_symbolLoop (by decide) rfl hlen rfl fun t ht => ?_
  obtain ⟨-, hcap⟩ := tdecStage_length hb ((tdecStage_room _ hroom).trans ht)
  obtain rfl := symbolLoop_eq_ok ht
  have hscan : EndsAs .revert (beginScan .revert (afterSymbols s.ibuf (beginSymbols .revert s))) _ :=
    endsAs_beginScan (by decide) hcap ((congrArg List.length hv).trans_le (Nat.zero_le _))
  exact hscan.of_step (step_afterSymbols hlen) (commandEnd_of_keeps _ { Keeps.refl _ _ with }).symm

/-- Settles O45: the start of TDEC's loop shows nothing at REVERT's end. -/
theorem revertIsItsSymbolsAndFieldsOneByOne : Obligations.RevertIsItsSymbolsAndFieldsOneByOne := by
  intro s he hroom
  have hend := endsAs_beginSymbols (s := clearOutputs .revert s) rfl rfl hroom
  rw [exec_revert he]
  exact hend.run_eq_frame { Keeps.refl _ _ with }

end Sys2Proof.Machine
end
